-- ==== Sys2Proof/Word.lean ====
section
/-! DEFINITION. The word types of the TEA core: 32-bit words (00_scope R5, R6), bytes, register offsets of the
64-byte window (20_memory R34), blocks and keys (00_scope R9). Arithmetic on words is that of `BitVec 32`:
`+`, `-` and `*` wrap modulo 2^32 (R7), `^^^`, `&&&`, `<<<` are bitwise, `>>>` is the logical shift (R8). -/

namespace Sys2Proof

/-- A 32-bit word, 00_scope R5 (`WORD_BITS`). -/
abbrev Word := BitVec 32

/-- A byte of a block's byte form, 20_memory R36. -/
abbrev Byte := BitVec 8

/-- A byte offset in the 64-byte register window, 00_scope R5 (`WINDOW_BYTES`). -/
abbrev Offset := BitVec 6

/-- A Block: two words, 00_scope R9. -/
structure Block where
  w0 : Word
  w1 : Word
  deriving DecidableEq, Repr

/-- A Key: four words, 00_scope R9. -/
structure Key where
  k0 : Word
  k1 : Word
  k2 : Word
  k3 : Word
  deriving DecidableEq, Repr

end Sys2Proof
end

