-- ==== Sys2Proof/Config.lean ====
section
/-! DEFINITION. What an implementation fixes, 00_scope R5: the configuration, a parameter of the step relation and no
state (00_scope R11). The spec leaves no value after an instruction open, so there is no free value; the two opaque
constants are the OPEN parameters of the machine behind the host's interface (log entry 3). -/

namespace Sys2Proof

/-- `ROUND_VARIANT`, 00_scope R5 and 40_block_cipher R70: which member of the TEA family the core computes. -/
inductive RoundVariant where
  | xtea
  | tea
  deriving DecidableEq, Repr

/-- The configuration of an instance, 00_scope R11: fixed by the platform, read by the step, written by nothing. -/
structure Configuration where
  /-- `ROUND_VARIANT` -/
  variant : RoundVariant
  /-- `BASE_ADDR`, where the window stands in the host's address space, 20_memory R39 -/
  baseAddr : Nat
  /-- `CMD_LATENCY` in cycles; no rule depends on it, 70_reset_and_hazards R146 -/
  cmdLatency : Nat
  deriving DecidableEq, Repr

/-- The default of `ROUND_VARIANT`, 00_scope R2 and R5 (90_conflicts C1). -/
def Config.defaultVariant : RoundVariant := .xtea

/-- `WINDOW_BYTES`, 00_scope R5. -/
def Config.windowBytes : Nat := 64

/-- `BASE_ADDR / 64` of the standard configuration: OPEN in 00_scope R5, so it has no value here (log entry 3). -/
opaque Config.basePage : Nat

/-- `CMD_LATENCY` of the standard configuration: OPEN in 00_scope R5, so it has no value here (log entry 3). -/
opaque Config.latency : Nat

/-- The configuration of the machine behind the host's interface: the default variant, and the OPEN parameters at no
value in particular (log entry 3). -/
def Config.standard : Configuration := ⟨Config.defaultVariant, Config.windowBytes * Config.basePage, Config.latency⟩

end Sys2Proof
end

