-- ==== Sys2Proof/Syntax.lean ====
section
/-! DEFINITION. The instructions: one constructor per row of spec/opcode_table.json, and the bus transaction that
carries them (30_encoding R48, R53). The core has no other operations. -/

namespace Sys2Proof

/-- A host bus transaction as it reaches the core (30_encoding R48, R53; 20_memory R34): direction, byte offset,
access width in bytes, and the data word. A read has no data: its `data` is not looked at.
It names no master, no privilege level and no guest: every master reaches the one set of registers alike (60_exceptions
R128, R129). -/
structure Transaction where
  write : Bool
  off   : Offset
  width : Nat
  data  : Word
  deriving DecidableEq, Repr

/-- The instructions of the TEA core. The first five are the CMD format (30_encoding R50), the others the BUS format
(30_encoding R54). `i` is the word index of 30_encoding R55, `v` the write data, `c` a command word. -/
inductive Instr where
  /-- NOP, R100 -/
  | nop
  /-- ENCIPHER, R71 -/
  | encipher
  /-- DECIPHER, R72 -/
  | decipher
  /-- CBC_ENC, R79 -/
  | cbcEnc
  /-- CBC_DEC, R80 -/
  | cbcDec
  /-- RD KEYi, R88 -/
  | rdKey (i : BitVec 2)
  /-- RD CHAINi, R90 -/
  | rdChain (i : BitVec 1)
  /-- RD DINi, R92 -/
  | rdDin (i : BitVec 1)
  /-- RD DOUTi, R94 -/
  | rdDout (i : BitVec 1)
  /-- RD CMD, R96 -/
  | rdCmd
  /-- RD STATUS, R98 -/
  | rdStatus
  /-- RD reserved, R99 -/
  | rdReserved (i : BitVec 2)
  /-- WR KEYi, R87 -/
  | wrKey (i : BitVec 2) (v : Word)
  /-- WR CHAINi, R89 -/
  | wrChain (i : BitVec 1) (v : Word)
  /-- WR DINi, R91 -/
  | wrDin (i : BitVec 1) (v : Word)
  /-- WR DOUTi, R93 -/
  | wrDout (i : BitVec 1) (v : Word)
  /-- WR CMD, R95 -/
  | wrCmd (c : Word)
  /-- WR STATUS, R97 -/
  | wrStatus (v : Word)
  /-- WR reserved, R99 -/
  | wrReserved (i : BitVec 2) (v : Word)
  deriving DecidableEq, Repr

end Sys2Proof
end

