-- ==== Sys2Proof/WellFormed.lean ====
section
/-! DEFINITION. The checks on what arrives at the core. A term of `Instr` needs no check of its own: the types of its
operands hold exactly the values their fields admit (30_encoding R55). What can be ill-formed is what arrives on the bus: a transaction
(20_memory R40, R41) and a command word (30_encoding R51, R52). -/

namespace Sys2Proof

/-- 20_memory R40: the only access width is 4 bytes. -/
def Transaction.widthOk (t : Transaction) : Bool := t.width == 4

/-- 20_memory R41: `off[1:0] = 0b00`. -/
def Transaction.aligned (t : Transaction) : Bool := t.off.extractLsb' 0 2 == 0#2

/-- A transaction that passes steps 1 and 2 of 30_encoding R53. -/
def Transaction.wellFormed (t : Transaction) : Bool := t.widthOk && t.aligned

/-- 30_encoding R49, R51: `RSVD`, bits 31:4 of a command word, is 0. -/
def CommandWord.reservedClear (c : Word) : Bool := c.extractLsb' 4 28 == 0#28

/-- 30_encoding R50, R52: `OP`, bits 3:0 of a command word, is one of 0x0..0x4. -/
def CommandWord.opDefined (c : Word) : Bool := decide ((c.extractLsb' 0 4).toNat ≤ 4)

/-- A command word that selects an instruction, 30_encoding R50. -/
def CommandWord.wellFormed (c : Word) : Bool := CommandWord.reservedClear c && CommandWord.opDefined c

end Sys2Proof
end

