-- ==== Sys2Proof/Decode.lean ====
section
/-! DEFINITION. The decoder of both formats (30_encoding R48 to R54), total and rejecting by name, and after it the
encoder. A CMD word and a BUS transaction are told apart by where they stand, not by their bits: a command word is
the data of a BUS write to CMD (30_encoding R48). -/

namespace Sys2Proof

/-- Why something that arrives selects no instruction. -/
inductive DecodeError where
  /-- 20_memory R40: an access width other than 4 bytes -/
  | badWidth (n : Nat)
  /-- 20_memory R41: `off[1:0] != 0b00` -/
  | misaligned (off : Offset)
  /-- 30_encoding R51: a command word with `RSVD != 0` -/
  | reservedBits (c : Word)
  /-- 30_encoding R52: a command word with `RSVD = 0` and OP in 0x5..0xF -/
  | reservedOp (op : BitVec 4)
  /-- no row of 30_encoding R54 selects the descriptor; no aligned descriptor comes here -/
  | noRow (d : BitVec 7)
  deriving DecidableEq, Repr

/-- The two formats of 30_encoding R48. -/
inductive Code where
  | cmd (c : Word)
  | bus (t : Transaction)
  deriving DecidableEq, Repr

/-- The descriptor `D[6:0] = W, off[5:0]` of 30_encoding R48. -/
def Transaction.descriptor (t : Transaction) : BitVec 7 := BitVec.ofBool t.write ++ t.off

/-- The five commands, by the names of 30_encoding R50 and R59. -/
inductive CommandName where
  | nop
  | encipher
  | decipher
  | cbcEnc
  | cbcDec
  deriving DecidableEq, Repr

/-- The instruction a command is. -/
def CommandName.instr : CommandName → Instr
  | .nop => .nop
  | .encipher => .encipher
  | .decipher => .decipher
  | .cbcEnc => .cbcEnc
  | .cbcDec => .cbcDec

/-- The command word of a command, the table of 30_encoding R50. -/
def CommandName.word : CommandName → Word
  | .nop => 0x00000000#32
  | .encipher => 0x00000001#32
  | .decipher => 0x00000002#32
  | .cbcEnc => 0x00000003#32
  | .cbcDec => 0x00000004#32

/-- The command a command word selects, 30_encoding R49 to R52. -/
def decodeCommand (c : Word) : Except DecodeError CommandName :=
  if c.extractLsb' 4 28 ≠ 0#28 then .error (.reservedBits c)
  else match (c.extractLsb' 0 4).toNat with
    | 0 => .ok .nop
    | 1 => .ok .encipher
    | 2 => .ok .decipher
    | 3 => .ok .cbcEnc
    | 4 => .ok .cbcDec
    | _ => .error (.reservedOp (c.extractLsb' 0 4))

/-- A row of 30_encoding R54 selects `d` when `d` has the row's match bits under its mask. -/
def rowSelects (d mtch mask : BitVec 7) : Bool := d &&& mask == mtch

/-- The word index `off[3:2]` of KEY and of the reserved slots, 30_encoding R55. -/
def wordIndex2 (d : BitVec 7) : BitVec 2 := d.extractLsb' 2 2

/-- The word index `off[2]` of CHAIN, DIN and DOUT, 30_encoding R55. -/
def wordIndex1 (d : BitVec 7) : BitVec 1 := d.extractLsb' 2 1

/-- The rows of 30_encoding R54, in the spec's order. -/
def decodeRow (d : BitVec 7) (v : Word) : Except DecodeError Instr :=
  if rowSelects d 0x00#7 0x73#7 then .ok (.rdKey (wordIndex2 d))
  else if rowSelects d 0x10#7 0x7B#7 then .ok (.rdChain (wordIndex1 d))
  else if rowSelects d 0x18#7 0x7B#7 then .ok (.rdDin (wordIndex1 d))
  else if rowSelects d 0x20#7 0x7B#7 then .ok (.rdDout (wordIndex1 d))
  else if rowSelects d 0x28#7 0x7F#7 then .ok .rdCmd
  else if rowSelects d 0x2C#7 0x7F#7 then .ok .rdStatus
  else if rowSelects d 0x30#7 0x73#7 then .ok (.rdReserved (wordIndex2 d))
  else if rowSelects d 0x40#7 0x73#7 then .ok (.wrKey (wordIndex2 d) v)
  else if rowSelects d 0x50#7 0x7B#7 then .ok (.wrChain (wordIndex1 d) v)
  else if rowSelects d 0x58#7 0x7B#7 then .ok (.wrDin (wordIndex1 d) v)
  else if rowSelects d 0x60#7 0x7B#7 then .ok (.wrDout (wordIndex1 d) v)
  else if rowSelects d 0x68#7 0x7F#7 then .ok (.wrCmd v)
  else if rowSelects d 0x6C#7 0x7F#7 then .ok (.wrStatus v)
  else if rowSelects d 0x70#7 0x73#7 then .ok (.wrReserved (wordIndex2 d) v)
  else .error (.noRow d)

/-- Steps 1, 2 and 4 of 30_encoding R53. Step 3, the BUSY hazard, is in each instruction's meaning. -/
def decodeBus (t : Transaction) : Except DecodeError Instr :=
  if t.widthOk = false then .error (.badWidth t.width)
  else if t.aligned = false then .error (.misaligned t.off)
  else decodeRow t.descriptor t.data

/-- The decoder of both formats, 30_encoding R48. -/
def decode : Code → Except DecodeError Instr
  | .cmd c => (decodeCommand c).map CommandName.instr
  | .bus t => decodeBus t

/-- A 32-bit read at `off`, 00_scope R10 (`BusRead(off, 4)`). -/
def busRead32 (off : Offset) : Transaction := ⟨false, off, 4, 0#32⟩

/-- A 32-bit write at `off`, 00_scope R10 (`BusWrite(off, 4, v)`). -/
def busWrite32 (off : Offset) (v : Word) : Transaction := ⟨true, off, 4, v⟩

/-- The offset of KEYi, 10_state R13. -/
def keyOff (i : BitVec 2) : Offset := 0b00#2 ++ i ++ 0b00#2
/-- The offset of CHAINi, 10_state R13. -/
def chainOff (i : BitVec 1) : Offset := 0b010#3 ++ i ++ 0b00#2
/-- The offset of DINi, 10_state R13. -/
def dinOff (i : BitVec 1) : Offset := 0b011#3 ++ i ++ 0b00#2
/-- The offset of DOUTi, 10_state R13. -/
def doutOff (i : BitVec 1) : Offset := 0b100#3 ++ i ++ 0b00#2
/-- The offset of CMD, 10_state R13. -/
def cmdOff : Offset := 0x28#6
/-- The offset of STATUS, 10_state R13. -/
def statusOff : Offset := 0x2C#6
/-- The offset of the i-th reserved slot, 20_memory R38. -/
def reservedOff (i : BitVec 2) : Offset := 0b11#2 ++ i ++ 0b00#2

/-- The encoder, from the tables of 30_encoding R50 and R54. -/
def encode : Instr → Code
  | .nop => .cmd CommandName.nop.word
  | .encipher => .cmd CommandName.encipher.word
  | .decipher => .cmd CommandName.decipher.word
  | .cbcEnc => .cmd CommandName.cbcEnc.word
  | .cbcDec => .cmd CommandName.cbcDec.word
  | .rdKey i => .bus (busRead32 (keyOff i))
  | .rdChain i => .bus (busRead32 (chainOff i))
  | .rdDin i => .bus (busRead32 (dinOff i))
  | .rdDout i => .bus (busRead32 (doutOff i))
  | .rdCmd => .bus (busRead32 cmdOff)
  | .rdStatus => .bus (busRead32 statusOff)
  | .rdReserved i => .bus (busRead32 (reservedOff i))
  | .wrKey i v => .bus (busWrite32 (keyOff i) v)
  | .wrChain i v => .bus (busWrite32 (chainOff i) v)
  | .wrDin i v => .bus (busWrite32 (dinOff i) v)
  | .wrDout i v => .bus (busWrite32 (doutOff i) v)
  | .wrCmd c => .bus (busWrite32 cmdOff c)
  | .wrStatus v => .bus (busWrite32 statusOff v)
  | .wrReserved i v => .bus (busWrite32 (reservedOff i) v)

/-- How an encoded instruction reaches the core: a command word is the data of a BUS write to CMD (30_encoding R48). -/
def Code.transaction : Code → Transaction
  | .cmd c => busWrite32 cmdOff c
  | .bus t => t

/-- An opcode-table word as the code it stands for (log entry 5): a row of at most 8 bits is a BUS descriptor, with
width 4 and data 0; a row of 32 bits is a CMD word; the table has no other rows. -/
def tableCode (nbits w : Nat) : Option Code :=
  if nbits ≤ 8 then
    if w < 128 then
      some (.bus ⟨w.testBit 6, BitVec.ofNat 6 w, 4, 0#32⟩)
    else none
  else if nbits = 32 then
    if w < 2 ^ 32 then some (.cmd (BitVec.ofNat 32 w)) else none
  else none

/-- What the decoder reads from an opcode-table word. -/
def decodeTableWord (nbits w : Nat) : Option Instr :=
  match tableCode nbits w with
  | none => none
  | some code =>
    match decode code with
    | .ok i => some i
    | .error _ => none

end Sys2Proof
end

