-- ==== Sys2Proof/Machine/State.lean ====
section
/-! DEFINITION. The state of one instance of the TEA core, as 10_state R33 gives it, with two fields of the model's
own: the schedule of events, and the record of what the host has read. Plain data. The configuration is no state
(00_scope R11): it is an argument of the step (Config.lean). -/

namespace Sys2Proof.Machine

/-- The operations a pending command can be, 10_state R28. -/
inductive Op where
  | encipher
  | decipher
  | cbcEnc
  | cbcDec
  deriving DecidableEq, Repr

/-- The PENDING record `(op, K, C, D)`: snapshots of KEY, CHAIN and DIN at acceptance, 10_state R28. -/
structure Pending where
  op    : Op
  key   : Key
  chain : Block
  din   : Block
  deriving DecidableEq, Repr

/-- The command errors of 60_exceptions R117 (the code NONE is the absence of one). -/
inductive CommandError where
  | illegalCmd
  | keyNotLoaded
  | chainNotLoaded
  deriving DecidableEq, Repr

/-- What can happen at the core next: a host transaction arrives, the engine has its turn (00_scope R11), or the
reset input is asserted (70_reset_and_hazards R135). -/
inductive Event where
  | host (t : Transaction)
  | engine
  | reset
  deriving DecidableEq, Repr

/-- One value the host has read, with the offset it read. -/
structure ReadRecord where
  off   : Offset
  value : Word
  deriving DecidableEq, Repr

/-- The complete state of one instance, 10_state R33: one set of registers, with no bank, no privilege level, no
delegation of errors and no virtual copy (60_exceptions R128, R129). -/
structure State where
  /-- KEY[0..3], R14 -/
  key       : Key
  /-- KEYV, R15 -/
  keyv      : BitVec 4
  /-- CHAIN[0..1], R16 -/
  chain     : Block
  /-- CHV, R17 -/
  chv       : BitVec 2
  /-- DIN[0..1], R19 -/
  din       : Block
  /-- DOUT[0..1], R20 -/
  dout      : Block
  /-- STATUS.DOUT_VALID, R24 -/
  doutValid : Bool
  /-- STATUS.BUSY, R23 -/
  busy      : Bool
  /-- STATUS.ERR, R25 -/
  err       : BitVec 4
  /-- STATUS.STICKY, R26 -/
  sticky    : Bool
  /-- PENDING, R28 -/
  pending   : Option Pending
  /-- what happens at the core next, oldest first (the model's own field, log entry 1) -/
  schedule  : List Event
  /-- the host's read values, 70_reset_and_hazards R147, oldest first (the model's own field, log entry 4) -/
  reads     : List ReadRecord
  deriving DecidableEq, Repr

/-- Why a run stops. -/
inductive Fault where
  /-- `BusError(off)`, 60_exceptions R119: raised by a transaction of a wrong width or a misaligned offset (the step's
  decoding) and by the meanings of WR DOUTi, RD reserved and WR reserved. Safe: the core answers with an error and
  changes nothing, and no claim holds of a run that goes on from here. -/
  | busError (off : Offset)
  /-- `HazardFault(kind)`, 70_reset_and_hazards R141: raised by the meaning of every row but RD STATUS while BUSY; the
  kind is the access's offset and direction. Safe: the hardware effect is unspecified, and the model gives none. -/
  | hazard (off : Offset) (write : Bool)
  deriving DecidableEq, Repr

/-- Why an instruction has no meaning in the model. -/
inductive Refusal where
  /-- An arm of `exec` that is not modelled, by its mnemonic; no arm of this model raises it. Safe: the run stops. -/
  | notModelled (mnemonic : String)
  deriving DecidableEq, Repr

/-- The state after reset, 70_reset_and_hazards R136. The model's own fields: an empty schedule and no reads
(log entries 1, 4). -/
def State.reset : State where
  key       := ⟨0#32, 0#32, 0#32, 0#32⟩
  keyv      := 0b0000#4
  chain     := ⟨0#32, 0#32⟩
  chv       := 0b00#2
  din       := ⟨0#32, 0#32⟩
  dout      := ⟨0#32, 0#32⟩
  doutValid := false
  busy      := false
  err       := 0x0#4
  sticky    := false
  pending   := none
  schedule  := []
  reads     := []

end Sys2Proof.Machine
end

