-- ==== Sys2Proof/Machine/Operands.lean ====
section
/-! DEFINITION. The operand forms: a word of a multi-word register by its index (00_scope R9, R10; 30_encoding R55),
and the byte forms of words and blocks (20_memory R35, R36). -/

namespace Sys2Proof

/-- `K[i]`, 00_scope R9. -/
def Key.word (k : Key) (i : BitVec 2) : Word :=
  match i.toNat with
  | 0 => k.k0
  | 1 => k.k1
  | 2 => k.k2
  | _ => k.k3

/-- `KEY[i] <- v`. -/
def Key.setWord (k : Key) (i : BitVec 2) (v : Word) : Key :=
  match i.toNat with
  | 0 => { k with k0 := v }
  | 1 => { k with k1 := v }
  | 2 => { k with k2 := v }
  | _ => { k with k3 := v }

/-- Word `i` of a block: `w0` for 0, `w1` for 1. -/
def Block.word (b : Block) (i : BitVec 1) : Word :=
  match i.toNat with
  | 0 => b.w0
  | _ => b.w1

/-- `B[i] <- v`. -/
def Block.setWord (b : Block) (i : BitVec 1) (v : Word) : Block :=
  match i.toNat with
  | 0 => { b with w0 := v }
  | _ => { b with w1 := v }

/-- Byte lane `j` of a 32-bit access carries bits `[8*j+7 : 8*j]`, 20_memory R35. -/
def byteLane (v : Word) (j : Nat) : Byte := v.extractLsb' (8 * j) 8

/-- The word whose byte lanes 0 to 3 are the four bytes, 20_memory R35. -/
def wordOfLanes (b0 b1 b2 b3 : Byte) : Word := b3 ++ b2 ++ b1 ++ b0

end Sys2Proof
end

