-- ==== Sys2Proof/Machine/Flags.lean ====
section
/-! DEFINITION. The STATUS register (10_state R22): its assembly from its fields, the written flags, and the command
error codes (60_exceptions R117). The core has no other flags (10_state R30). -/

namespace Sys2Proof.Machine

/-- `STATUS = 19'b0, STICKY, ERR, CHV, KEYV, DOUT_VALID, BUSY`, 10_state R22 and 42_register_access R98. -/
def statusWord (s : State) : Word :=
  0#19 ++ BitVec.ofBool s.sticky ++ s.err ++ s.chv ++ s.keyv ++ BitVec.ofBool s.doutValid ++ BitVec.ofBool s.busy

/-- The STATUS.ERR code of "no error", 60_exceptions R117. -/
def errNone : BitVec 4 := 0x0#4

/-- The STATUS.ERR codes, 60_exceptions R117. -/
def CommandError.code : CommandError → BitVec 4
  | .illegalCmd => 0x1#4
  | .keyNotLoaded => 0x2#4
  | .chainNotLoaded => 0x3#4

/-- `KEYV[i] <- 1`, 10_state R15. -/
def markKeyWord (f : BitVec 4) (i : BitVec 2) : BitVec 4 := f ||| (1#4 <<< i.toNat)

/-- `CHV[i] <- 1`, 10_state R17. -/
def markChainWord (f : BitVec 2) (i : BitVec 1) : BitVec 2 := f ||| (1#2 <<< i.toNat)

/-- `KEYV = 0b1111`: every key word has been written since reset, 10_state R15. -/
def keyLoaded (s : State) : Bool := s.keyv == 0b1111#4

/-- `CHV = 0b11`: both chain words have been written since reset, 10_state R17. -/
def chainLoaded (s : State) : Bool := s.chv == 0b11#2

/-- STATUS bit 12, STICKY, in data written to STATUS, 42_register_access R97. -/
def clearsSticky (v : Word) : Bool := v.getLsbD 12

end Sys2Proof.Machine
end

