-- ==== Sys2Proof/Machine/Cipher.lean ====
section
/-! DEFINITION. The block primitive (40_block_cipher R63 to R70) and the CBC step functions (41_cbc_chain R77, R78).
Pure functions of the variant, the key and the block; the formulas of R65 to R69 are the spec's, which marks them as
supplied from general knowledge (log entry 7). -/

namespace Sys2Proof.Machine

/-- `DELTA`, 00_scope R5. -/
def delta : Word := 0x9E3779B9#32

/-- `NUM_CYCLES`, 00_scope R5: 32 iterations, each updating both words (90_conflicts C8). -/
def numCycles : Nat := 32

/-- `DEC_SUM0 = DELTA * 32 mod 2^32`, 00_scope R5. -/
def decSum0 : Word := delta * 32#32

/-- `F(w)`, the XTEA mix, 40_block_cipher R65. -/
def mixF (w : Word) : Word := ((w <<< 4) ^^^ (w >>> 5)) + w

/-- `G(w, sum, ka, kb)`, the TEA mix, 40_block_cipher R65. -/
def mixG (w sum ka kb : Word) : Word := ((w <<< 4) + ka) ^^^ (w + sum) ^^^ ((w >>> 5) + kb)

/-- The engine's working values, 10_state R29: the two block words and the running sum. -/
structure Working where
  v0  : Word
  v1  : Word
  sum : Word
  deriving DecidableEq, Repr

/-- `n` cycles, one after the other (the loops of 40_block_cipher R66 to R69). -/
def cycles (f : Working → Working) : Nat → Working → Working
  | 0, w => w
  | n + 1, w => cycles f n (f w)

/-- The key word added into `v0`: `K[sum[1:0]]`, 40_block_cipher R66. -/
def xteaKeyLow (k : Key) (sum : Word) : Word := k.word (sum.extractLsb' 0 2)

/-- The key word added into `v1`: `K[sum[12:11]]`, 40_block_cipher R66 (90_conflicts C7). -/
def xteaKeyHigh (k : Key) (sum : Word) : Word := k.word (sum.extractLsb' 11 2)

/-- One cycle of `XTEA_Encipher`, 40_block_cipher R66. -/
def xteaEncCycle (k : Key) (w : Working) : Working :=
  let v0 := w.v0 + (mixF w.v1 ^^^ (w.sum + xteaKeyLow k w.sum))
  let sum := w.sum + delta
  let v1 := w.v1 + (mixF v0 ^^^ (sum + xteaKeyHigh k sum))
  ⟨v0, v1, sum⟩

/-- One cycle of `XTEA_Decipher`, 40_block_cipher R67. -/
def xteaDecCycle (k : Key) (w : Working) : Working :=
  let v1 := w.v1 - (mixF w.v0 ^^^ (w.sum + xteaKeyHigh k w.sum))
  let sum := w.sum - delta
  let v0 := w.v0 - (mixF v1 ^^^ (sum + xteaKeyLow k sum))
  ⟨v0, v1, sum⟩

/-- One cycle of `TEA_Encipher`, 40_block_cipher R68. -/
def teaEncCycle (k : Key) (w : Working) : Working :=
  let sum := w.sum + delta
  let v0 := w.v0 + mixG w.v1 sum k.k0 k.k1
  let v1 := w.v1 + mixG v0 sum k.k2 k.k3
  ⟨v0, v1, sum⟩

/-- One cycle of `TEA_Decipher`, 40_block_cipher R69. -/
def teaDecCycle (k : Key) (w : Working) : Working :=
  let v1 := w.v1 - mixG w.v0 w.sum k.k2 k.k3
  let v0 := w.v0 - mixG v1 w.sum k.k0 k.k1
  let sum := w.sum - delta
  ⟨v0, v1, sum⟩

/-- The encipher cycle of a variant, 40_block_cipher R70. -/
def encCycle (rv : RoundVariant) (k : Key) : Working → Working :=
  match rv with
  | .xtea => xteaEncCycle k
  | .tea => teaEncCycle k

/-- The decipher cycle of a variant, 40_block_cipher R70. -/
def decCycle (rv : RoundVariant) (k : Key) : Working → Working :=
  match rv with
  | .xtea => xteaDecCycle k
  | .tea => teaDecCycle k

/-- The working values with a block and a sum. -/
def Working.load (b : Block) (sum : Word) : Working := ⟨b.w0, b.w1, sum⟩

/-- The block in the working values. -/
def Working.block (w : Working) : Block := ⟨w.v0, w.v1⟩

/-- `Encipher(K, B)`, 40_block_cipher R70. -/
def encipher (rv : RoundVariant) (k : Key) (b : Block) : Block :=
  (cycles (encCycle rv k) numCycles (Working.load b 0#32)).block

/-- `Decipher(K, B)`, 40_block_cipher R70. -/
def decipher (rv : RoundVariant) (k : Key) (b : Block) : Block :=
  (cycles (decCycle rv k) numCycles (Working.load b decSum0)).block

/-- `B ^ C`, word-wise, 00_scope R9. -/
def blockXor (b c : Block) : Block := ⟨b.w0 ^^^ c.w0, b.w1 ^^^ c.w1⟩

/-- `EncryptStep(K, P, prev)`, 41_cbc_chain R77: the ciphertext and the new chaining value. -/
def encryptStep (rv : RoundVariant) (k : Key) (p prev : Block) : Block × Block :=
  let c := encipher rv k (blockXor p prev)
  (c, c)

/-- `DecryptStep(K, C, prev)`, 41_cbc_chain R78: the plaintext and the new chaining value, the ciphertext received. -/
def decryptStep (rv : RoundVariant) (k : Key) (c prev : Block) : Block × Block :=
  (blockXor (decipher rv k c) prev, c)

end Sys2Proof.Machine
end

