-- ==== Sys2Proof/Machine/Ops.lean ====
section
/-! DEFINITION. The named operations over the registers: register writes, the record of a read, the command decoder's
effects (accept, refuse), the errors, reset and the engine's completion. `set_error` (60_exceptions R118), the bus
error (R119) and the hazard fault (70_reset_and_hazards R141) are the core's only exceptions: there is no trap entry
and no return from one (60_exceptions R126, R127). -/

namespace Sys2Proof.Machine

/-- The answer of a step. -/
abbrev Answer := Host.Outcome State Fault Refusal

/-- `KEY[i] <- v ; KEYV[i] <- 1`, 42_register_access R87. -/
def State.setKeyWord (s : State) (i : BitVec 2) (v : Word) : State :=
  { s with key := s.key.setWord i v, keyv := markKeyWord s.keyv i }

/-- `CHAIN[i] <- v ; CHV[i] <- 1`, 42_register_access R89. -/
def State.setChainWord (s : State) (i : BitVec 1) (v : Word) : State :=
  { s with chain := s.chain.setWord i v, chv := markChainWord s.chv i }

/-- `DIN[i] <- v`, 42_register_access R91. -/
def State.setDinWord (s : State) (i : BitVec 1) (v : Word) : State :=
  { s with din := s.din.setWord i v }

/-- `STATUS.STICKY <- 0`, 42_register_access R97. -/
def State.clearSticky (s : State) : State := { s with sticky := false }

/-- `STATUS.ERR <- 0`, 42_register_access R95. -/
def State.clearErr (s : State) : State := { s with err := errNone }

/-- `set_error(code)`, the only effect of a refused command, 60_exceptions R118. -/
def State.refuseCommand (s : State) (e : CommandError) : State := { s with err := e.code, sticky := true }

/-- The acceptance of a command (40_block_cipher R71, 42_register_access R95): the snapshot in PENDING, ERR 0, BUSY 1,
DOUT_VALID 0. -/
def State.accept (s : State) (op : Op) : State :=
  { s with pending := some ⟨op, s.key, s.chain, s.din⟩, err := errNone, busy := true, doutValid := false }

/-- What every completion writes (42_register_access R101): DOUT, DOUT_VALID 1, BUSY 0, PENDING none; and CHAIN. -/
def State.finish (s : State) (result chain : Block) : State :=
  { s with dout := result, chain := chain, doutValid := true, busy := false, pending := none }

/-- A value goes back to the host: the host's record of it (70_reset_and_hazards R147). -/
def State.recordRead (s : State) (off : Offset) (v : Word) : State :=
  { s with reads := s.reads ++ [⟨off, v⟩] }

/-- The state of 70_reset_and_hazards R136, in place: every register and PENDING at its reset value (R135, R137). The
schedule and the host's record are not the core's (log entry 6). -/
def State.resetCore (s : State) : State :=
  { State.reset with schedule := s.schedule, reads := s.reads }

/-- The state with what is left of the schedule. -/
def State.withSchedule (s : State) (rest : List Event) : State := { s with schedule := rest }

/-- `raise BusError(off)`, 60_exceptions R119: the transaction ends with an error response and no state change; a model
records it as a fault of the run (log entry 9). -/
def raiseBusError (off : Offset) : Answer := .fault (.busError off)

/-- Step 3 of 30_encoding R53: while BUSY every access but a STATUS read is a hazard fault
(70_reset_and_hazards R140, R141); otherwise the access goes on as `k` says. -/
def guardIdle (off : Offset) (write : Bool) (s : State) (k : Answer) : Answer :=
  if s.busy = true then .fault (.hazard off write) else k

/-- A read of `off` that returns `v`, under the BUSY guard (42_register_access R86). -/
def readRegister (off : Offset) (v : Word) (s : State) : Answer :=
  guardIdle off false s (.next (s.recordRead off v))

/-- A write of `off` that leaves `s'`, under the BUSY guard (42_register_access R86). -/
def writeRegister (off : Offset) (s' : State) (s : State) : Answer :=
  guardIdle off true s (.next s')

/-- Whether a command reads CHAIN: CBC_ENC and CBC_DEC do, 60_exceptions R122. -/
def Op.needsChain : Op → Bool
  | .encipher => false
  | .decipher => false
  | .cbcEnc => true
  | .cbcDec => true

/-- The refusal a legal cipher command meets, if any, 60_exceptions R121 to R123: the key first, then the chain. -/
def commandRefusal (op : Op) (s : State) : Option CommandError :=
  if keyLoaded s = false then some .keyNotLoaded
  else if op.needsChain = true ∧ chainLoaded s = false then some .chainNotLoaded
  else none

/-- A cipher command at the command decoder (the acceptance clause of 40_block_cipher R71, R72, 41_cbc_chain R79, R80). -/
def presentCommand (op : Op) (s : State) : State :=
  match commandRefusal op s with
  | some e => s.refuseCommand e
  | none => s.accept op

/-- The completion step for a pending command, 42_register_access R101. ENCIPHER and DECIPHER leave CHAIN as it is. -/
def completePending (cfg : Configuration) (p : Pending) (s : State) : State :=
  match p.op with
  | .encipher => s.finish (encipher cfg.variant p.key p.din) s.chain
  | .decipher => s.finish (decipher cfg.variant p.key p.din) s.chain
  | .cbcEnc =>
    let r := encryptStep cfg.variant p.key p.din p.chain
    s.finish r.1 r.2
  | .cbcDec =>
    let r := decryptStep cfg.variant p.key p.din p.chain
    s.finish r.1 r.2

/-- The engine's turn: the completion step is enabled exactly when PENDING is not none (42_register_access R101); a
turn with nothing pending changes nothing (60_exceptions R134). -/
def engineTurn (cfg : Configuration) (s : State) : State :=
  match s.pending with
  | none => s
  | some p => completePending cfg p s

end Sys2Proof.Machine
end

