-- ==== Sys2Proof/Machine/Commands.lean ====
section
/-! DEFINITION. The meanings of the CMD-format rows (30_encoding R50), as the command presented by a bus write to
CMD, and of WR CMD, the command decoder itself (42_register_access R95). -/

namespace Sys2Proof.Machine

/-- NOP, 42_register_access R100: `STATUS.ERR <- 0`, nothing else. -/
def execNop (s : State) : Answer := writeRegister cmdOff s.clearErr s

/-- ENCIPHER, 40_block_cipher R71. -/
def execEncipher (s : State) : Answer := writeRegister cmdOff (presentCommand .encipher s) s

/-- DECIPHER, 40_block_cipher R72. -/
def execDecipher (s : State) : Answer := writeRegister cmdOff (presentCommand .decipher s) s

/-- CBC_ENC, 41_cbc_chain R79. -/
def execCbcEnc (s : State) : Answer := writeRegister cmdOff (presentCommand .cbcEnc s) s

/-- CBC_DEC, 41_cbc_chain R80. -/
def execCbcDec (s : State) : Answer := writeRegister cmdOff (presentCommand .cbcDec s) s

/-- WR CMD, 42_register_access R95: the word is decoded and its command presented; any other word is refused with
ILLEGAL_CMD (60_exceptions R120), before any other check (R123). -/
def execWrCmd (c : Word) (s : State) : Answer :=
  match decodeCommand c with
  | .ok .nop => execNop s
  | .ok .encipher => execEncipher s
  | .ok .decipher => execDecipher s
  | .ok .cbcEnc => execCbcEnc s
  | .ok .cbcDec => execCbcDec s
  | .error _ => writeRegister cmdOff (s.refuseCommand .illegalCmd) s

end Sys2Proof.Machine
end

