-- ==== Sys2Proof/Machine/Reads.lean ====
section
/-! DEFINITION. The meanings of the bus reads (42_register_access R88 to R99). -/

namespace Sys2Proof.Machine

/-- RD KEYi, 42_register_access R88: the key can never be read back. -/
def execRdKey (i : BitVec 2) (s : State) : Answer := readRegister (keyOff i) 0x00000000#32 s

/-- RD CHAINi, 42_register_access R90. -/
def execRdChain (i : BitVec 1) (s : State) : Answer := readRegister (chainOff i) (s.chain.word i) s

/-- RD DINi, 42_register_access R92. -/
def execRdDin (i : BitVec 1) (s : State) : Answer := readRegister (dinOff i) (s.din.word i) s

/-- RD DOUTi, 42_register_access R94: the held value, whatever DOUT_VALID says. -/
def execRdDout (i : BitVec 1) (s : State) : Answer := readRegister (doutOff i) (s.dout.word i) s

/-- RD CMD, 42_register_access R96. -/
def execRdCmd (s : State) : Answer := readRegister cmdOff 0x00000000#32 s

/-- RD STATUS, 42_register_access R98: the only access permitted while BUSY. -/
def execRdStatus (s : State) : Answer := .next (s.recordRead statusOff (statusWord s))

/-- RD reserved, 42_register_access R99. -/
def execRdReserved (i : BitVec 2) (s : State) : Answer :=
  guardIdle (reservedOff i) false s (raiseBusError (reservedOff i))

end Sys2Proof.Machine
end

