-- ==== Sys2Proof/Machine/Writes.lean ====
section
/-! DEFINITION. The meanings of the bus writes other than WR CMD (42_register_access R87 to R99). -/

namespace Sys2Proof.Machine

/-- WR KEYi, 42_register_access R87. -/
def execWrKey (i : BitVec 2) (v : Word) (s : State) : Answer := writeRegister (keyOff i) (s.setKeyWord i v) s

/-- WR CHAINi, 42_register_access R89. -/
def execWrChain (i : BitVec 1) (v : Word) (s : State) : Answer := writeRegister (chainOff i) (s.setChainWord i v) s

/-- WR DINi, 42_register_access R91. -/
def execWrDin (i : BitVec 1) (v : Word) (s : State) : Answer := writeRegister (dinOff i) (s.setDinWord i v) s

/-- WR DOUTi, 42_register_access R93: every value gets a bus error. -/
def execWrDout (i : BitVec 1) (_v : Word) (s : State) : Answer :=
  guardIdle (doutOff i) true s (raiseBusError (doutOff i))

/-- WR STATUS, 42_register_access R97: every bit of the data but bit 12 is ignored. -/
def execWrStatus (v : Word) (s : State) : Answer :=
  writeRegister statusOff (if clearsSticky v = true then s.clearSticky else s) s

/-- WR reserved, 42_register_access R99. -/
def execWrReserved (i : BitVec 2) (_v : Word) (s : State) : Answer :=
  guardIdle (reservedOff i) true s (raiseBusError (reservedOff i))

end Sys2Proof.Machine
end

