-- ==== Sys2Proof/Machine/Dispatch.lean ====
section
/-! DEFINITION. The dispatch: one arm per constructor of Instr, each one direct call of its meaning. -/

namespace Sys2Proof.Machine

def exec (i : Instr) (s : State) : Host.Outcome State Fault Refusal :=
  match i with
  -- the CMD format, 30_encoding R50
  | .nop => Sys2Proof.Machine.execNop s
  | .encipher => Sys2Proof.Machine.execEncipher s
  | .decipher => Sys2Proof.Machine.execDecipher s
  | .cbcEnc => Sys2Proof.Machine.execCbcEnc s
  | .cbcDec => Sys2Proof.Machine.execCbcDec s
  -- the BUS format, 30_encoding R54
  | .rdKey j => Sys2Proof.Machine.execRdKey j s
  | .rdChain j => Sys2Proof.Machine.execRdChain j s
  | .rdDin j => Sys2Proof.Machine.execRdDin j s
  | .rdDout j => Sys2Proof.Machine.execRdDout j s
  | .rdCmd => Sys2Proof.Machine.execRdCmd s
  | .rdStatus => Sys2Proof.Machine.execRdStatus s
  | .rdReserved j => Sys2Proof.Machine.execRdReserved j s
  | .wrKey j v => Sys2Proof.Machine.execWrKey j v s
  | .wrChain j v => Sys2Proof.Machine.execWrChain j v s
  | .wrDin j v => Sys2Proof.Machine.execWrDin j v s
  | .wrDout j v => Sys2Proof.Machine.execWrDout j v s
  | .wrCmd c => Sys2Proof.Machine.execWrCmd c s
  | .wrStatus v => Sys2Proof.Machine.execWrStatus v s
  | .wrReserved j v => Sys2Proof.Machine.execWrReserved j v s

end Sys2Proof.Machine
end

