-- ==== Sys2Proof/Machine/Step.lean ====
section
/-! DEFINITION. One step of an instance of a given configuration (00_scope R11): the event at the head of the schedule happens (20_memory R44: one at a time, in the order of
arrival). With an empty schedule the engine moves if a command is pending (70_reset_and_hazards R146, weak fairness),
and otherwise the core idles (60_exceptions R134). -/

namespace Sys2Proof.Machine

/-- A host transaction, 30_encoding R53: width, alignment, then the row's meaning, which holds the BUSY guard. -/
def hostTurn (t : Transaction) (s : State) : Answer :=
  match decodeBus t with
  | .ok i => exec i s
  | .error _ => raiseBusError t.off

/-- One event at the core. The configuration is read by the engine alone. -/
def deliver (cfg : Configuration) (e : Event) (s : State) : Answer :=
  match e with
  | .host t => hostTurn t s
  | .engine => .next (engineTurn cfg s)
  | .reset => .next s.resetCore

/-- The step relation of an instance: the configuration is its parameter, 00_scope R11 and 40_block_cipher R70. -/
def stepWith (cfg : Configuration) (s : State) : Host.Outcome State Fault Refusal :=
  match s.schedule with
  | [] => .next (engineTurn cfg s)
  | e :: rest => deliver cfg e (s.withSchedule rest)

/-- One step of the machine behind the host's interface: the standard configuration (log entry 3). -/
def step (s : State) : Host.Outcome State Fault Refusal := stepWith Config.standard s

/-- The machine of a configuration, XTEA or TEA, from reset. -/
def coreWith (cfg : Configuration) : Host.Core :=
  { State := State, Fault := Fault, Refusal := Refusal, step := stepWith cfg, reset := State.reset }

/-- `s` with the opcode-table word as the next thing that happens at the core (log entry 5): a BUS row as the host
transaction of its descriptor with width 4 and data 0, a CMD row as the bus write of its word to CMD. A word the
table does not have leaves `s` as it is. -/
def State.withFetchWord (s : State) (nbits w : Nat) : State :=
  match tableCode nbits w with
  | none => s
  | some code => s.withSchedule (.host code.transaction :: s.schedule)

end Sys2Proof.Machine
end

