-- ==== Sys2Proof/Machine/HostProgram.lean ====
section
/-! DEFINITION. The host agent as a program over the core: the statements and pseudo-instructions of 30_encoding R58
to R62, their expansion, and a host that issues them while the engine takes its turns in any interleaving. This is the
host's side, not hardware (30_encoding R61, R62). -/

namespace Sys2Proof.Machine

/-- The register names of statements, 30_encoding R59. -/
inductive RegName where
  | key0 | key1 | key2 | key3
  | chain0 | chain1
  | din0 | din1
  | dout0 | dout1
  | cmd
  | status
  deriving DecidableEq, Repr

/-- `off(REG)`, 10_state R13. -/
def RegName.off : RegName → Offset
  | .key0 => keyOff 0#2
  | .key1 => keyOff 1#2
  | .key2 => keyOff 2#2
  | .key3 => keyOff 3#2
  | .chain0 => chainOff 0#1
  | .chain1 => chainOff 1#1
  | .din0 => dinOff 0#1
  | .din1 => dinOff 1#1
  | .dout0 => doutOff 0#1
  | .dout1 => doutOff 1#1
  | .cmd => cmdOff
  | .status => statusOff

/-- The register a name of the assembler stands for; an unknown name is an assembly error, 30_encoding R59. -/
def RegName.parse (n : String) : Option RegName :=
  if n = "KEY0" then some .key0 else if n = "KEY1" then some .key1
  else if n = "KEY2" then some .key2 else if n = "KEY3" then some .key3
  else if n = "CHAIN0" then some .chain0 else if n = "CHAIN1" then some .chain1
  else if n = "DIN0" then some .din0 else if n = "DIN1" then some .din1
  else if n = "DOUT0" then some .dout0 else if n = "DOUT1" then some .dout1
  else if n = "CMD" then some .cmd else if n = "STATUS" then some .status
  else none

/-- The command an OP name of the assembler stands for; an unknown name is an assembly error, 30_encoding R59. -/
def commandNamed (n : String) : Option CommandName :=
  if n = "NOP" then some .nop else if n = "ENCIPHER" then some .encipher
  else if n = "DECIPHER" then some .decipher else if n = "CBC_ENC" then some .cbcEnc
  else if n = "CBC_DEC" then some .cbcDec else none

/-- The statements of 30_encoding R58, R60, R61 and R62. -/
inductive Stmt where
  | wr (r : RegName) (imm : Word)
  | rd (r : RegName)
  | cmd (op : CommandName)
  | ldkey (a b c d : Word)
  | ldiv (a b : Word)
  | ldblk (a b : Word)
  | getout
  | getchain
  | clrerr
  | run (op : CommandName)
  | wait
  | assert (r : RegName) (v : Word)
  deriving DecidableEq, Repr

/-- What a host does: issue one transaction, poll STATUS until BUSY is 0 (30_encoding R61), or check the value of the
last read of a register (R62). -/
inductive Action where
  | issue (t : Transaction)
  | poll
  | check (r : RegName) (v : Word)
  deriving DecidableEq, Repr

/-- An action that is a transaction, or a poll, which is one or more: an assertion is none (30_encoding R62). -/
def Action.reachesCore : Action → Bool
  | .issue _ => true
  | .poll => true
  | .check _ _ => false

/-- `wr REG, imm32`, 30_encoding R58. -/
def issueWrite (r : RegName) (v : Word) : Action := .issue (busWrite32 r.off v)

/-- `rd REG`, 30_encoding R58. -/
def issueRead (r : RegName) : Action := .issue (busRead32 r.off)

/-- The expansion of a statement, 30_encoding R58, R60, R61, R62. -/
def Stmt.expand : Stmt → List Action
  | .wr r imm => [issueWrite r imm]
  | .rd r => [issueRead r]
  | .cmd op => [issueWrite .cmd op.word]
  | .ldkey a b c d => [issueWrite .key0 a, issueWrite .key1 b, issueWrite .key2 c, issueWrite .key3 d]
  | .ldiv a b => [issueWrite .chain0 a, issueWrite .chain1 b]
  | .ldblk a b => [issueWrite .din0 a, issueWrite .din1 b]
  | .getout => [issueRead .dout0, issueRead .dout1]
  | .getchain => [issueRead .chain0, issueRead .chain1]
  | .clrerr => [issueWrite .status 0x00001000#32]
  | .run op => [issueWrite .cmd op.word, .poll]
  | .wait => [.poll]
  | .assert r v => [.check r v]

/-- A host program, 30_encoding R58: its statements, one after the other. -/
def assemble (p : List Stmt) : List Action := p.flatMap Stmt.expand

/-- The value of the last read of an offset, 30_encoding R62. -/
def lastRead (off : Offset) (rs : List ReadRecord) : Option Word :=
  (rs.filter (fun r => r.off == off)).getLast?.map ReadRecord.value

/-- The two agents of 00_scope R11. -/
inductive Agent where
  | host
  | engine
  deriving DecidableEq, Repr

/-- A core with the host that drives it: what the host has still to do, and the outcomes of its assertions. The
program's own position is the host's (10_state R18). -/
structure System where
  core   : State
  todo   : List Action
  checks : List Bool
  deriving DecidableEq, Repr

/-- An answer of the core, carried on into an answer of what drives it. -/
def andThen {σ τ φ ρ : Type} (a : Host.Outcome σ φ ρ) (k : σ → Host.Outcome τ φ ρ) : Host.Outcome τ φ ρ :=
  match a with
  | .next s => k s
  | .fault f => .fault f
  | .refused r => .refused r

/-- `STATUS[0]` of the last STATUS read, 30_encoding R61. -/
def lastStatusBusy (s : State) : Bool :=
  match lastRead statusOff s.reads with
  | none => false
  | some v => v.getLsbD 0

/-- One turn of an agent: the host's next action, or the engine's completion step (42_register_access R86, R101).
30_encoding R62 leaves open what an assertion is worth when its register has not been read, and what a host does after
one that fails: here it fails without a read, its outcome is kept in `checks`, and the host goes on (log entry 17). -/
def System.turn (cfg : Configuration) (a : Agent) (y : System) : Host.Outcome System Fault Refusal :=
  match a with
  | .engine => andThen (deliver cfg .engine y.core) fun c => .next { y with core := c }
  | .host =>
    match y.todo with
    | [] => .next y
    | .issue t :: rest => andThen (deliver cfg (.host t) y.core) fun c => .next { y with core := c, todo := rest }
    | .poll :: rest =>
      andThen (deliver cfg (.host (busRead32 statusOff)) y.core) fun c =>
        .next { y with core := c, todo := if lastStatusBusy c = true then .poll :: rest else rest }
    | .check r v :: rest =>
      .next { y with todo := rest, checks := y.checks ++ [lastRead r.off y.core.reads == some v] }

/-- Turns in the order of a list of agents: one interleaving (70_reset_and_hazards R145). -/
def System.run (cfg : Configuration) : List Agent → System → Host.Outcome System Fault Refusal
  | [], y => .next y
  | a :: as, y => andThen (y.turn cfg a) (System.run cfg as)

/-- The end of a run, 70_reset_and_hazards R147: no transaction left, BUSY = 0, PENDING none. Assertions that are left are
no transactions (30_encoding R62). -/
def System.ended (y : System) : Bool := !y.todo.any Action.reachesCore && !y.core.busy && y.core.pending.isNone

/-- The observable result of a run, 70_reset_and_hazards R147: the host's read values and the readable registers. KEY is
no part of it. -/
structure RunResult where
  reads  : List ReadRecord
  chain  : Block
  din    : Block
  dout   : Block
  status : Word
  deriving DecidableEq, Repr

/-- What the host and the readable registers hold. CHAIN and DOUT count whether or not they have been written since
reset: so R147 and D33 have it, while D6 would leave out what was never written (log entry 18). -/
def State.observed (s : State) : RunResult := ⟨s.reads, s.chain, s.din, s.dout, statusWord s⟩

/-- The result of a run, 70_reset_and_hazards R147: a run that is not over has none. -/
def System.result (y : System) : Option RunResult := if y.ended = true then some y.core.observed else none

/-- The result of a run by its outcome: one that recorded a bus error or a hazard fault is no successful end,
70_reset_and_hazards R147. -/
def resultOf (a : Host.Outcome System Fault Refusal) : Option RunResult :=
  match a with
  | .next y => y.result
  | .fault _ => none
  | .refused _ => none

end Sys2Proof.Machine
end

