-- ==== Sys2Proof/Machine/HostStream.lean ====
section
/-! DEFINITION. The host reference procedure of 48_host_stream: byte mapping, padding, and the stream encryptor and
decryptor as host software that drives the core through its bus, with the saving and restoring of a stream's chain
(41_cbc_chain R85). Not hardware (48_host_stream, first paragraph). -/

namespace Sys2Proof.Machine

/-- `pack`, 48_host_stream R103 and 20_memory R36, of a list of 8 bytes. -/
def pack (b : List Byte) : Block :=
  ⟨wordOfLanes (b.getD 0 0#8) (b.getD 1 0#8) (b.getD 2 0#8) (b.getD 3 0#8),
   wordOfLanes (b.getD 4 0#8) (b.getD 5 0#8) (b.getD 6 0#8) (b.getD 7 0#8)⟩

/-- `unpack`, 48_host_stream R103 and 20_memory R36. -/
def unpack (b : Block) : List Byte :=
  [byteLane b.w0 0, byteLane b.w0 1, byteLane b.w0 2, byteLane b.w0 3,
   byteLane b.w1 0, byteLane b.w1 1, byteLane b.w1 2, byteLane b.w1 3]

/-- `pad = 8 - (L mod 8)`, 48_host_stream R104. -/
def padLength (n : Nat) : Nat := 8 - n % 8

/-- The padded plaintext, 48_host_stream R104. -/
def padded (p : List Byte) : List Byte :=
  p ++ List.replicate (padLength p.length) (BitVec.ofNat 8 (padLength p.length))

/-- The full 8-byte groups of a byte stream, as blocks. -/
def blocksOf : List Byte → List Block
  | b0 :: b1 :: b2 :: b3 :: b4 :: b5 :: b6 :: b7 :: rest => pack [b0, b1, b2, b3, b4, b5, b6, b7] :: blocksOf rest
  | _ => []

/-- The ciphertext blocks of a sequence of plaintext blocks, 41_cbc_chain R77 once per block. -/
def encryptBlocks (rv : RoundVariant) (k : Key) : Block → List Block → List Block
  | _, [] => []
  | prev, p :: ps =>
    let r := encryptStep rv k p prev
    r.1 :: encryptBlocks rv k r.2 ps

/-- The plaintext blocks of a sequence of ciphertext blocks, 41_cbc_chain R78 once per block. -/
def decryptBlocks (rv : RoundVariant) (k : Key) : Block → List Block → List Block
  | _, [] => []
  | prev, c :: cs =>
    let r := decryptStep rv k c prev
    r.1 :: decryptBlocks rv k r.2 cs

/-- The ciphertext bytes of a plaintext, 48_host_stream R106. -/
def ciphertextOf (rv : RoundVariant) (k : Key) (iv : Block) (p : List Byte) : List Byte :=
  (encryptBlocks rv k iv (blocksOf (padded p))).flatMap unpack

/-- An I/O error of a byte source or a byte sink, as the transport gives it: a number the stream software does not look
at (48_host_stream R114; log entry 10). -/
structure IoError where
  code : Nat
  deriving DecidableEq, Repr

/-- The host-level errors, 48_host_stream R114, and the core's own stops. -/
inductive StreamError where
  /-- an I/O error of the underlying source or sink, passed on unchanged -/
  | io (e : IoError)
  /-- a write, a close or a read of a stream that is suspended, R85 (log entry 10) -/
  | suspended
  /-- the sink took fewer bytes than offered and the call could not go on; recoverable -/
  | underrun
  /-- `flush` with a partial block buffered, R108 -/
  | misalignedFlush
  /-- a ciphertext length, or a chunk, that is no whole block, R110, R113 -/
  | malformedLength
  /-- a final byte outside [1, 8], R112 -/
  | malformedPad
  /-- a short write during close, R109 -/
  | shortWrite
  /-- an operation on a closed encryptor, R109 -/
  | closed
  /-- the core stopped with a fault -/
  | coreFault (f : Fault)
  /-- the core refused an instruction -/
  | coreRefused (r : Refusal)
  deriving DecidableEq, Repr

/-- Pad stripping of the whole decrypted stream, 48_host_stream R112: only the last byte is looked at (D27). -/
def stripPad (bytes : List Byte) : Except StreamError (List Byte) :=
  let pad := (bytes.getLastD 0#8).toNat
  if 1 ≤ pad ∧ pad ≤ 8 then .ok (bytes.take (bytes.length - pad)) else .error .malformedPad

/-- The plaintext bytes of a ciphertext, 48_host_stream R110 to R113. -/
def plaintextOf (rv : RoundVariant) (k : Key) (iv : Block) (c : List Byte) : Except StreamError (List Byte) :=
  if c.length = 0 ∨ c.length % 8 ≠ 0 then .error .malformedLength
  else stripPad ((decryptBlocks rv k iv (blocksOf c)).flatMap unpack)

/-! ### The core, and the host that drives it -/

/-- Events one after the other, 20_memory R44. -/
def deliverAll (cfg : Configuration) : List Event → State → Answer
  | [], s => .next s
  | e :: es, s => andThen (deliver cfg e s) (deliverAll cfg es)

/-- The events of an action list in which every wait takes `n` polls, then the engine's turn, then the poll that ends it
(30_encoding R61, 42_register_access R101; log entry 16). -/
def eventsOf (n : Nat) : List Action → List Event
  | [] => []
  | .issue t :: rest => .host t :: eventsOf n rest
  | .poll :: rest =>
    List.replicate n (.host (busRead32 statusOff)) ++ .engine :: .host (busRead32 statusOff) :: eventsOf n rest
  | .check _ _ :: rest => eventsOf n rest

/-- A core with the host that drives it. `polls` says of each wait to come how many STATUS reads it takes before the
engine's turn, the first wait first; none when the list is exhausted (log entry 16). -/
structure Driven where
  core  : State
  polls : List Nat
  deriving DecidableEq, Repr

/-- `ldkey` and `ldiv`, once per stream, 48_host_stream R106. -/
def openStream (cfg : Configuration) (k : Key) (iv : Block) (s : State) : Answer :=
  deliverAll cfg (eventsOf 0 (assemble [.ldkey k.k0 k.k1 k.k2 k.k3, .ldiv iv.w0 iv.w1])) s

/-- The block of the last reads of two offsets. -/
def readPair (off0 off1 : Offset) (s : State) : Block :=
  ⟨(lastRead off0 s.reads).getD 0#32, (lastRead off1 s.reads).getD 0#32⟩

/-- The block of the last reads of DOUT0 and DOUT1. -/
def readBlock (s : State) : Block := readPair (doutOff 0#1) (doutOff 1#1) s

/-- The block of the last reads of CHAIN0 and CHAIN1. -/
def readChain (s : State) : Block := readPair (chainOff 0#1) (chainOff 1#1) s

/-- `ldblk b ; run op ; getout`, exactly once for a block, 48_host_stream R106 and R110. -/
def processBlock (cfg : Configuration) (op : CommandName) (b : Block) (d : Driven) :
    Host.Outcome (Block × Driven) Fault Refusal :=
  andThen (deliverAll cfg (eventsOf (d.polls.headD 0) (assemble [.ldblk b.w0 b.w1, .run op, .getout])) d.core)
    fun s => .next (readBlock s, ⟨s, d.polls.tail⟩)

/-- A sequence of blocks, in stream order, each exactly once (70_reset_and_hazards R143). -/
def processBlocks (cfg : Configuration) (op : CommandName) :
    List Block → Driven → Host.Outcome (List Block × Driven) Fault Refusal
  | [], d => .next ([], d)
  | b :: bs, d =>
    andThen (processBlock cfg op b d) fun r =>
      andThen (processBlocks cfg op bs r.2) fun q => .next (r.1 :: q.1, q.2)

/-! ### What a host keeps of a stream -/

/-- The key and the chaining value a host keeps of a stream, 48_host_stream R102. While the stream runs its chaining value
is in CHAIN and `saved` is none; while it is suspended `saved` is its chaining value (41_cbc_chain R85). The key is
kept because it cannot be read back (42_register_access R88). -/
structure StreamContext where
  key   : Key
  saved : Option Block
  deriving DecidableEq, Repr

/-- A stream's own start: `ldkey`, `ldiv`, and the key kept, 48_host_stream R102, R106. -/
def StreamContext.start (cfg : Configuration) (k : Key) (iv : Block) (d : Driven) :
    Host.Outcome (StreamContext × Driven) Fault Refusal :=
  andThen (openStream cfg k iv d.core) fun s => .next (⟨k, none⟩, { d with core := s })

/-- `getchain`, and the chaining value kept, 41_cbc_chain R85. A stream that is suspended stays as it is. -/
def StreamContext.suspend (cfg : Configuration) (c : StreamContext) (d : Driven) :
    Host.Outcome (StreamContext × Driven) Fault Refusal :=
  match c.saved with
  | some _ => .next (c, d)
  | none =>
    andThen (deliverAll cfg (eventsOf 0 (assemble [.getchain])) d.core) fun s =>
      .next ({ c with saved := some (readChain s) }, { d with core := s })

/-- The key and the saved chaining value loaded again into the core that `d` drives, 41_cbc_chain R85. A stream that runs
goes on with the core it has, `own`. -/
def StreamContext.resume (cfg : Configuration) (c : StreamContext) (own d : Driven) :
    Host.Outcome (StreamContext × Driven) Fault Refusal :=
  match c.saved with
  | none => .next (c, own)
  | some v => StreamContext.start cfg c.key v d

/-- The states of a stream's state machine, 48_host_stream R102. -/
inductive StreamPhase where
  | idle
  | buffering
  | blockReady
  | draining
  | pendingWrite
  | closed
  deriving DecidableEq, Repr

/-! ### The byte sink and the byte source -/

/-- What a sink does with one offer of bytes: it takes some of them, or it fails and takes none. -/
inductive SinkReply where
  | takes (n : Nat)
  | fails (e : IoError)
  deriving DecidableEq, Repr

/-- The I/O error of a reply, if it is one. -/
def SinkReply.ioError : SinkReply → Option IoError
  | .takes _ => none
  | .fails e => some e

/-- The byte sink of a stream: the bytes it has taken, what it does with each offer to come (it takes all, when the list
is exhausted), how often it was flushed, and which of the flushes to come fail (none, when the list is exhausted). -/
structure Sink where
  taken        : List Byte
  replies      : List SinkReply
  flushes      : Nat
  flushReplies : List (Option IoError)
  deriving DecidableEq, Repr

/-- An offer of bytes to a sink: what it does not take, or its I/O error; and the sink after it. Nothing is offered of an
empty list. -/
def Sink.offer (k : Sink) (bs : List Byte) : Except IoError (List Byte) × Sink :=
  if bs.isEmpty then (.ok [], k)
  else match k.replies with
    | [] => (.ok [], { k with taken := k.taken ++ bs })
    | .takes n :: rest => (.ok (bs.drop n), { k with taken := k.taken ++ bs.take n, replies := rest })
    | .fails e :: rest => (.error e, { k with replies := rest })

/-- A flush passed on to the sink, 48_host_stream R108 and R109: done, or its I/O error. -/
def Sink.flush (k : Sink) : Except IoError Unit × Sink :=
  match k.flushReplies with
  | [] => (.ok (), { k with flushes := k.flushes + 1 })
  | none :: rest => (.ok (), { k with flushes := k.flushes + 1, flushReplies := rest })
  | some e :: rest => (.error e, { k with flushReplies := rest })

/-- What a source answers a pull with: a chunk of ciphertext, or its I/O error. A source is exhausted when it has no
more answers; an empty chunk does not exhaust it (log entry 10). -/
inductive SourceReply where
  | chunk (bytes : List Byte)
  | fails (e : IoError)
  deriving DecidableEq, Repr

/-- The I/O error of an answer, if it is one. -/
def SourceReply.ioError : SourceReply → Option IoError
  | .chunk _ => none
  | .fails e => some e

/-- The I/O error a caller is told, if it is one. -/
def ioErrorTold {α : Type} : Except StreamError α → Option IoError
  | .error (.io e) => some e
  | _ => none

/-! ### The stream encryptor -/

/-- The stream encryptor, 48_host_stream R102: the core it drives, the key and chaining value it keeps, a plaintext
buffer of 0 to 7 bytes (8 within a call, when a block is ready), the ciphertext on its way to the sink, and whether the
sink has already left some of it. -/
structure Encryptor where
  core    : Driven
  context : StreamContext
  plain   : List Byte
  unsent  : List Byte
  blocked : Bool
  closed  : Bool
  deriving DecidableEq, Repr

/-- What an operation of the encryptor leaves. -/
structure WriterResult (α : Type) where
  enc    : Encryptor
  sink   : Sink
  result : Except StreamError α

/-- A new encryptor, 48_host_stream R106. -/
def Encryptor.create (cfg : Configuration) (k : Key) (iv : Block) (d : Driven) : Host.Outcome Encryptor Fault Refusal :=
  andThen (StreamContext.start cfg k iv d) fun r => .next ⟨r.2, r.1, [], [], false, false⟩

/-- The encryptor gives its core up to another stream, 41_cbc_chain R85. A closed one does so like an open one: its chain
is still what its core holds, and the spec says nothing of it (log entry 10). -/
def Encryptor.suspend (cfg : Configuration) (e : Encryptor) : Host.Outcome Encryptor Fault Refusal :=
  andThen (e.context.suspend cfg e.core) fun r => .next { e with context := r.1, core := r.2 }

/-- The encryptor goes on, on the core that `d` drives, 41_cbc_chain R85. A closed one takes the core like an open one,
and stays closed (log entry 10). -/
def Encryptor.resume (cfg : Configuration) (e : Encryptor) (d : Driven) : Host.Outcome Encryptor Fault Refusal :=
  andThen (e.context.resume cfg e.core d) fun r => .next { e with context := r.1, core := r.2 }

/-- Where the encryptor is in the state machine of 48_host_stream R102: ciphertext the sink has not been offered yet is
being drained, and ciphertext it has left is a pending write. -/
def Encryptor.phase (e : Encryptor) : StreamPhase :=
  if e.closed = true then .closed
  else if e.unsent.isEmpty = false then (if e.blocked = true then .pendingWrite else .draining)
  else if 8 ≤ e.plain.length then .blockReady
  else if e.plain.isEmpty = false then .buffering
  else .idle

/-- Input bytes appended to the plaintext buffer, up to 8 in all: step 2 of 48_host_stream R107. -/
def Encryptor.fill (e : Encryptor) (input : List Byte) : Encryptor :=
  { e with plain := e.plain ++ input.take (8 - e.plain.length) }

/-- One CBC_ENC on the ready block, 48_host_stream R106: its ciphertext is then on its way to the sink. -/
def Encryptor.cipherStep (cfg : Configuration) (e : Encryptor) : Host.Outcome Encryptor Fault Refusal :=
  andThen (processBlock cfg .cbcEnc (pack e.plain) e.core) fun r =>
    .next { e with core := r.2, plain := [], unsent := unpack r.1, blocked := false }

/-- The pending ciphertext offered to the sink: whether all of it is taken, or the sink's I/O error, unchanged
(48_host_stream R107, R114). Only delivery is retried; what the sink does not take stays pending. -/
def Encryptor.send (e : Encryptor) (k : Sink) : WriterResult Bool :=
  match k.offer e.unsent with
  | (.error x, k') => ⟨{ e with blocked := true }, k', .error (.io x)⟩
  | (.ok rest, k') => ⟨{ e with unsent := rest, blocked := !rest.isEmpty }, k', .ok rest.isEmpty⟩

/-- The ready block enciphered, and its ciphertext offered to the sink (48_host_stream R106, R107). -/
def Encryptor.emit (cfg : Configuration) (e : Encryptor) (k : Sink) : WriterResult Bool :=
  match e.cipherStep cfg with
  | .fault f => ⟨e, k, .error (.coreFault f)⟩
  | .refused r => ⟨e, k, .error (.coreRefused r)⟩
  | .next e' => e'.send k

/-- Steps 2 to 5 of 48_host_stream R107, one group at a time; `n` counts the plaintext bytes taken so far. -/
def Encryptor.writeGroups (cfg : Configuration) : Nat → Encryptor → Sink → List Byte → Nat → WriterResult Nat
  | 0, e, k, _, n => ⟨e, k, .ok n⟩
  | fuel + 1, e, k, input, n =>
    let need := 8 - e.plain.length
    if (e.fill input).plain.length < 8 then ⟨e.fill input, k, .ok (n + input.length)⟩
    else
      let r := (e.fill input).emit cfg k
      match r.result with
      | .error x => ⟨r.enc, r.sink, .error x⟩
      | .ok true => Encryptor.writeGroups cfg fuel r.enc r.sink (input.drop need) (n + need)
      | .ok false => ⟨r.enc, r.sink, .ok (n + need)⟩

/-- `write(bytes) -> bytes_consumed`, 48_host_stream R107. -/
def Encryptor.write (cfg : Configuration) (e : Encryptor) (k : Sink) (input : List Byte) : WriterResult Nat :=
  if e.closed = true then ⟨e, k, .error .closed⟩
  else if e.context.saved.isSome = true then ⟨e, k, .error .suspended⟩
  else
    let r := e.send k
    match r.result with
    | .error x => ⟨r.enc, r.sink, .error x⟩
    | .ok false => ⟨r.enc, r.sink, .ok 0⟩
    | .ok true => Encryptor.writeGroups cfg (input.length + 1) r.enc r.sink input 0

/-- The writes of a caller that offers its plaintext in chunks, one `write` for each, with the answer of each. -/
def Encryptor.writeAll (cfg : Configuration) (e : Encryptor) (k : Sink) :
    List (List Byte) → Encryptor × Sink × List (Except StreamError Nat)
  | [] => (e, k, [])
  | c :: cs =>
    let r := e.write cfg k c
    let q := Encryptor.writeAll cfg r.enc r.sink cs
    (q.1, q.2.1, r.result :: q.2.2)

/-- A flush passed on to the sink, with the sink's I/O error unchanged. -/
def Encryptor.flushSink (e : Encryptor) (k : Sink) : WriterResult Unit :=
  match k.flush with
  | (.error x, k') => ⟨e, k', .error (.io x)⟩
  | (.ok _, k') => ⟨e, k', .ok ()⟩

/-- `flush()`, 48_host_stream R108. If the sink leaves some of the pending ciphertext, the call ends with a
recoverable underrun (log entry 10). -/
def Encryptor.flush (e : Encryptor) (k : Sink) : WriterResult Unit :=
  if e.closed = true then ⟨e, k, .error .closed⟩
  else
    let r := e.send k
    match r.result with
    | .error x => ⟨r.enc, r.sink, .error x⟩
    | .ok false => ⟨r.enc, r.sink, .error .underrun⟩
    | .ok true =>
      if r.enc.plain.isEmpty = false then ⟨r.enc, r.sink, .error .misalignedFlush⟩ else r.enc.flushSink r.sink

/-- `close() -> sink`, 48_host_stream R109: from here on the encryptor is closed, whatever comes of it. -/
def Encryptor.close (cfg : Configuration) (e : Encryptor) (k : Sink) : WriterResult Unit :=
  if e.closed = true then ⟨e, k, .error .closed⟩
  else if e.context.saved.isSome = true then ⟨e, k, .error .suspended⟩
  else
    let r := Encryptor.send { e with closed := true } k
    match r.result with
    | .error x => ⟨r.enc, r.sink, .error x⟩
    | .ok false => ⟨r.enc, r.sink, .error .shortWrite⟩
    | .ok true =>
      let q := Encryptor.emit cfg { r.enc with plain := padded r.enc.plain } r.sink
      match q.result with
      | .error x => ⟨q.enc, q.sink, .error x⟩
      | .ok false => ⟨q.enc, q.sink, .error .shortWrite⟩
      | .ok true => q.enc.flushSink q.sink

/-! ### The stream decryptor -/

/-- The stream decryptor, 48_host_stream R102: the core it drives, the key and chaining value it keeps, the
ciphertext bytes still to decrypt (0 to 7 between calls), the last decrypted block held back (R111), the released bytes,
and what its source has still to answer. -/
structure Decryptor where
  core    : Driven
  context : StreamContext
  carry   : List Byte
  held    : Option (List Byte)
  buffer  : List Byte
  source  : List SourceReply
  done    : Bool
  deriving DecidableEq, Repr

/-- What an operation of the decryptor leaves. -/
inductive Reading (α : Type) where
  /-- it is done, and the decryptor goes on -/
  | got (v : α) (d : Decryptor)
  /-- an error after which the decryptor can go on, and nothing it has decrypted is lost: the source's I/O error,
  unchanged, or a read while suspended -/
  | again (e : StreamError) (d : Decryptor)
  /-- a fatal error: decryption aborts, 48_host_stream R114 -/
  | aborted (e : StreamError)

/-- What the caller of an operation is told. -/
def Reading.told {α : Type} : Reading α → Except StreamError α
  | .got v _ => .ok v
  | .again e _ => .error e
  | .aborted e => .error e

/-- A new decryptor of a source. -/
def Decryptor.create (cfg : Configuration) (k : Key) (iv : Block) (source : List SourceReply) (d : Driven) :
    Host.Outcome Decryptor Fault Refusal :=
  andThen (StreamContext.start cfg k iv d) fun r => .next ⟨r.2, r.1, [], none, [], source, false⟩

/-- The decryptor gives its core up to another stream, 41_cbc_chain R85. -/
def Decryptor.suspend (cfg : Configuration) (d : Decryptor) : Host.Outcome Decryptor Fault Refusal :=
  andThen (d.context.suspend cfg d.core) fun r => .next { d with context := r.1, core := r.2 }

/-- The decryptor goes on, on the core that `new` drives, 41_cbc_chain R85. -/
def Decryptor.resume (cfg : Configuration) (d : Decryptor) (new : Driven) : Host.Outcome Decryptor Fault Refusal :=
  andThen (d.context.resume cfg d.core new) fun r => .next { d with context := r.1, core := r.2 }

/-- Where the decryptor is in the state machine of 48_host_stream R102 (log entry 10). -/
def Decryptor.phase (d : Decryptor) : StreamPhase :=
  if 8 ≤ d.carry.length then .blockReady
  else if d.buffer.isEmpty = false then .draining
  else if d.carry.isEmpty = false ∨ d.held.isSome = true then .buffering
  else .idle

/-- One CBC_DEC on the first complete block of the ciphertext, 48_host_stream R110. The new block is held back (R111), and
the block held until now is released. R111 gives the earliest moment a block may be released, and leaves open how long
it is held once leftover bytes show that more follows: here until the next whole block is decrypted, so a stream that
ends in a partial block is malformed with that block unreleased (log entry 10). -/
def Decryptor.cipherStep (cfg : Configuration) (d : Decryptor) : Host.Outcome Decryptor Fault Refusal :=
  andThen (processBlock cfg .cbcDec (pack (d.carry.take 8)) d.core) fun r =>
    .next { d with core := r.2, carry := d.carry.drop 8, held := some (unpack r.1),
                   buffer := d.buffer ++ d.held.getD [] }

/-- The complete blocks of the ciphertext at hand, each one CBC_DEC, 48_host_stream R110. -/
def Decryptor.feed (cfg : Configuration) : Nat → Decryptor → Except StreamError Decryptor
  | 0, d => .ok d
  | fuel + 1, d =>
    if d.carry.length < 8 then .ok d
    else
      match d.cipherStep cfg with
      | .fault f => .error (.coreFault f)
      | .refused r => .error (.coreRefused r)
      | .next d' => Decryptor.feed cfg fuel d'

/-- The source is exhausted: the held block is final, and its padding is stripped (48_host_stream R111 to R113). -/
def Decryptor.exhausted (d : Decryptor) : Except StreamError Decryptor :=
  if d.done = true then .ok d
  else if d.carry.isEmpty = false then .error .malformedLength
  else
    match d.held with
    | none => .error .malformedLength
    | some h =>
      match stripPad h with
      | .error e => .error e
      | .ok bytes => .ok { d with held := none, buffer := d.buffer ++ bytes, done := true }

/-- Chunks are pulled until `n` bytes are released or the source is exhausted (log entry 10); a non-empty chunk
shorter than 8 bytes is fatal (48_host_stream R110), and an I/O error of the source is passed on (R114). R110 does not say
what an empty chunk means: here it is nothing yet, not the end of the source, and the next answer is pulled (log entry
10). -/
def Decryptor.pull (cfg : Configuration) (n : Nat) : Decryptor → List SourceReply → Reading Unit
  | d, [] =>
    if n ≤ d.buffer.length then .got () { d with source := [] }
    else match Decryptor.exhausted { d with source := [] } with
      | .error e => .aborted e
      | .ok d' => .got () d'
  | d, c :: cs =>
    if n ≤ d.buffer.length then .got () { d with source := c :: cs }
    else match c with
      | .fails e => .again (.io e) { d with source := cs }
      | .chunk bytes =>
        if bytes.isEmpty then Decryptor.pull cfg n d cs
        else if bytes.length < 8 then .aborted .malformedLength
        else
          match Decryptor.feed cfg (d.carry ++ bytes).length { d with carry := d.carry ++ bytes } with
          | .error e => .aborted e
          | .ok d' => Decryptor.pull cfg n d' cs

/-- `read(into) -> bytes_produced`, 48_host_stream R110: at most `n` bytes; the surplus stays buffered. -/
def Decryptor.read (cfg : Configuration) (d : Decryptor) (n : Nat) : Reading (List Byte) :=
  if d.context.saved.isSome = true then .again .suspended d
  else
    match Decryptor.pull cfg n d d.source with
    | .aborted e => .aborted e
    | .again e d' => .again e d'
    | .got _ d' => .got (d'.buffer.take n) { d' with buffer := d'.buffer.drop n }

/-- The reads of a caller, one after the other, each with its answer, up to a fatal error (48_host_stream R110, R114). -/
def Decryptor.readAll (cfg : Configuration) : Decryptor → List Nat → List (Except StreamError (List Byte))
  | _, [] => []
  | d, n :: ns =>
    match d.read cfg n with
    | .got v d' => .ok v :: Decryptor.readAll cfg d' ns
    | .again e d' => .error e :: Decryptor.readAll cfg d' ns
    | .aborted e => [.error e]

/-- Bytes cut into pieces of the given sizes, one after the other; a piece that meets the end of the bytes is shorter. -/
def cutBytes : List Byte → List Nat → List (List Byte)
  | _, [] => []
  | bs, n :: ns => bs.take n :: cutBytes (bs.drop n) ns

end Sys2Proof.Machine
end

