-- ==== Sys2Proof/Machine/Platform.lean ====
section
/-! DEFINITION. Several instances on one platform (10_state R32, 60_exceptions R132) and the window of each in the
host's address space (20_memory R39). Each instance has its own configuration (00_scope R11), whose `BASE_ADDR`
is the window's position; their number is that of the list (log entry 8). -/

namespace Sys2Proof.Machine

/-- One instance of the core with its configuration. -/
structure Instance where
  config : Configuration
  core   : State
  deriving DecidableEq, Repr

/-- 20_memory R39: address `a` with `BASE_ADDR <= a < BASE_ADDR + 64` reaches offset `a - BASE_ADDR`; other addresses
are not decoded. -/
def windowOffset (base addr : Nat) : Option Offset :=
  if base ≤ addr ∧ addr < base + Config.windowBytes then some (BitVec.ofNat 6 (addr - base)) else none

/-- A platform: its instances. -/
abbrev Platform := List Instance

/-- The windows of a platform: each base is a multiple of 64 (20_memory R39), no two bases are equal, and there is at
least one instance (00_scope R5). -/
def Platform.wellFormed (p : Platform) : Bool :=
  p.all (fun x => x.config.baseAddr % Config.windowBytes == 0) && decide ((p.map fun x => x.config.baseAddr).Nodup) && !p.isEmpty

/-- What an access at a host address does on a platform. -/
inductive Reach where
  /-- no window holds the address: no core decodes it -/
  | nowhere
  /-- the instance at this place decodes it, at this offset -/
  | at (place : Nat) (off : Offset)
  deriving DecidableEq, Repr

/-- The instance that decodes an address, counted from `place`. -/
def Platform.reachFrom (addr place : Nat) : List Instance → Reach
  | [] => .nowhere
  | x :: xs =>
    match windowOffset x.config.baseAddr addr with
    | some off => .at place off
    | none => Platform.reachFrom addr (place + 1) xs

/-- The instance that decodes an address. -/
def Platform.reach (p : Platform) (addr : Nat) : Reach := Platform.reachFrom addr 0 p

/-- One event at the instance in one place; every other instance is left alone (10_state R32). -/
def Platform.deliverAt : Nat → Event → Platform → Host.Outcome Platform Fault Refusal
  | _, _, [] => .next []
  | 0, e, x :: xs =>
    match deliver x.config e x.core with
    | .next c => .next ({ x with core := c } :: xs)
    | .fault f => .fault f
    | .refused r => .refused r
  | n + 1, e, x :: xs =>
    match Platform.deliverAt n e xs with
    | .next ys => .next (x :: ys)
    | .fault f => .fault f
    | .refused r => .refused r

/-- A host access at an address: the transaction reaches the instance whose window holds it, and no other. -/
def Platform.access (p : Platform) (write : Bool) (addr width : Nat) (data : Word) :
    Host.Outcome Platform Fault Refusal :=
  match p.reach addr with
  | .nowhere => .next p
  | .at place off => p.deliverAt place (.host ⟨write, off, width, data⟩)

end Sys2Proof.Machine
end

