-- ==== Sys2Proof/Safety.lean ====
section
/-! DEFINITION. What counts as a safe run: the invariant of the state record (10_state R33 and what 10_state R17, R24,
R25, R28 and 60_exceptions R117 say of its fields together), a state that is ready for a command, and the end of a run
(70_reset_and_hazards R147). -/

namespace Sys2Proof.Machine

/-- What an accepted command leaves true until its completion: the snapshot is of the live registers (10_state R28,
70_reset_and_hazards R140), the flags it was accepted under still stand (10_state R15, R17), ERR is NONE and DOUT_VALID
is 0 (10_state R24, R25). -/
def State.holdsPending (s : State) (p : Pending) : Prop :=
  s.busy = true ∧ p.key = s.key ∧ p.chain = s.chain ∧ p.din = s.din ∧ s.keyv = 0b1111#4 ∧
    (p.op.needsChain = true → s.chv = 0b11#2) ∧ s.err = errNone ∧ s.doutValid = false

/-- The invariant of the state record. -/
structure State.Inv (s : State) : Prop where
  /-- BUSY = 0 when PENDING is none, 10_state R33 -/
  idle_not_busy : s.pending = none → s.busy = false
  /-- the pending command agrees with the registers, 10_state R28 -/
  pending_agrees : ∀ p, s.pending = some p → s.holdsPending p
  /-- the reserved error codes are never written, 60_exceptions R117 -/
  err_code : s.err.toNat ≤ 3
  /-- CHAIN_NOT_LOADED was raised with the key loaded, and KEYV is cleared only by reset, 60_exceptions R122 -/
  err_chain : s.err = CommandError.chainNotLoaded.code → s.keyv = 0b1111#4

/-- A core that would accept any command: nothing is pending, and key and chain are loaded (70_reset_and_hazards R138). -/
structure State.Ready (s : State) : Prop where
  notBusy : s.busy = false
  keyAll : s.keyv = 0b1111#4
  chainAll : s.chv = 0b11#2

/-- An event that is a host transaction. -/
def Event.isHost : Event → Bool
  | .host _ => true
  | .engine => false
  | .reset => false

/-- The end of a run, 70_reset_and_hazards R147: no host transaction is left, BUSY is 0 and PENDING is none. -/
def State.ended (s : State) : Bool := !s.schedule.any Event.isHost && !s.busy && s.pending.isNone

/-- The result of a run that has ended, 70_reset_and_hazards R147. -/
def State.result (s : State) : Option RunResult := if s.ended = true then some s.observed else none

end Sys2Proof.Machine
end

