-- ==== Sys2Proof/Certificates/Slice0/Obligations.lean ====
section
/-! DEFINITION. The statements for the provers. Next states are written as record updates of the state before, so each
says its frame too: a field the update does not name is unchanged. The schedule and the reads are the
model's own fields (log entries 1 and 4). `cfg` is the configuration, a parameter of the step (00_scope R11). -/

open Sys2Proof Sys2Proof.Machine

/-! ### Encoding -/

/-- Decoding an encoded instruction gives it back, every operand at every value (30_encoding R50, R54). -/
def Obligations.DecodeOfEncodeIsTheInstruction : Prop :=
  ∀ i : Instr, decode (encode i) = .ok i

/-- What decodes to an instruction is its encoding, but for the data of a read, which is not looked at. -/
def Obligations.DecodedCodeIsTheEncoding : Prop :=
  (∀ c i, decode (.cmd c) = .ok i → encode i = .cmd c) ∧
  (∀ t i, decode (.bus t) = .ok i → encode i = .bus { t with data := if t.write = true then t.data else 0#32 })

/-- 30_encoding R50: a command word selects a command exactly when it is an OP in 0x0..0x4, zero-extended; which
command; and every word with another OP and no reserved bit is refused with ILLEGAL_CMD. -/
def Obligations.CommandWordsSelectFiveCommands : Prop :=
  (∀ c : Word, (∃ n, decodeCommand c = .ok n) ↔ ∃ op : BitVec 4, op.toNat ≤ 4 ∧ c = op.zeroExtend 32) ∧
  decode (.cmd 0x00000000#32) = .ok .nop ∧
  decode (.cmd 0x00000001#32) = .ok .encipher ∧
  decode (.cmd 0x00000002#32) = .ok .decipher ∧
  decode (.cmd 0x00000003#32) = .ok .cbcEnc ∧
  decode (.cmd 0x00000004#32) = .ok .cbcDec ∧
  (∀ (s : State) (op : BitVec 4), s.busy = false → 5 ≤ op.toNat →
    exec (.wrCmd (op.zeroExtend 32)) s = .next { s with err := 0x1#4, sticky := true })

/-- 30_encoding R51, R52 and 60_exceptions R120: a word with a reserved bit set, or with OP in 0x5..0xF, is refused with
ILLEGAL_CMD, and no other word is. -/
def Obligations.IllegalCommandWordsAreRefused : Prop :=
  ∀ (s : State) (c : Word), s.busy = false →
    ((c.extractLsb' 4 28 ≠ 0#28 ∨ 5 ≤ (c.extractLsb' 0 4).toNat) →
      exec (.wrCmd c) s = .next { s with err := 0x1#4, sticky := true }) ∧
    (¬ (c.extractLsb' 4 28 ≠ 0#28 ∨ 5 ≤ (c.extractLsb' 0 4).toNat) →
      ∃ t, exec (.wrCmd c) s = .next t ∧ t.err ≠ 0x1#4)

/-- 30_encoding R54: the fourteen rows, each by its match and mask over the descriptor, with the word index of R55;
and every descriptor with `off[1:0] = 0b00` decodes to some instruction, which the spec marks as derived from its
table. -/
def Obligations.BusRowsFollowTheTable : Prop :=
  ∀ (w : Bool) (off : Offset) (v : Word),
    let t : Transaction := ⟨w, off, 4, v⟩
    let d : BitVec 7 := BitVec.ofBool w ++ off
    (d &&& 0x73#7 = 0x00#7 → decodeBus t = .ok (.rdKey (off.extractLsb' 2 2))) ∧
    (d &&& 0x7B#7 = 0x10#7 → decodeBus t = .ok (.rdChain (off.extractLsb' 2 1))) ∧
    (d &&& 0x7B#7 = 0x18#7 → decodeBus t = .ok (.rdDin (off.extractLsb' 2 1))) ∧
    (d &&& 0x7B#7 = 0x20#7 → decodeBus t = .ok (.rdDout (off.extractLsb' 2 1))) ∧
    (d &&& 0x7F#7 = 0x28#7 → decodeBus t = .ok .rdCmd) ∧
    (d &&& 0x7F#7 = 0x2C#7 → decodeBus t = .ok .rdStatus) ∧
    (d &&& 0x73#7 = 0x30#7 → decodeBus t = .ok (.rdReserved (off.extractLsb' 2 2))) ∧
    (d &&& 0x73#7 = 0x40#7 → decodeBus t = .ok (.wrKey (off.extractLsb' 2 2) v)) ∧
    (d &&& 0x7B#7 = 0x50#7 → decodeBus t = .ok (.wrChain (off.extractLsb' 2 1) v)) ∧
    (d &&& 0x7B#7 = 0x58#7 → decodeBus t = .ok (.wrDin (off.extractLsb' 2 1) v)) ∧
    (d &&& 0x7B#7 = 0x60#7 → decodeBus t = .ok (.wrDout (off.extractLsb' 2 1) v)) ∧
    (d &&& 0x7F#7 = 0x68#7 → decodeBus t = .ok (.wrCmd v)) ∧
    (d &&& 0x7F#7 = 0x6C#7 → decodeBus t = .ok (.wrStatus v)) ∧
    (d &&& 0x73#7 = 0x70#7 → decodeBus t = .ok (.wrReserved (off.extractLsb' 2 2) v)) ∧
    (off.extractLsb' 0 2 = 0#2 ↔ ∃ i, decodeBus t = .ok i)

/-- A few words written out from the spec's encodings decode to what they stand for (30_encoding R50, R54). -/
def Obligations.SpecWordsDecode : Prop :=
  decodeTableWord 32 0x00000003 = some .cbcEnc ∧
  decodeTableWord 32 0x00000010 = none ∧
  decodeTableWord 8 0x0C = some (.rdKey 3#2) ∧
  decodeTableWord 8 0x24 = some (.rdDout 1#1) ∧
  decodeTableWord 8 0x2C = some .rdStatus ∧
  decodeTableWord 8 0x12 = none ∧
  decodeBus ⟨true, 0x08#6, 4, 3#32⟩ = .ok (.wrKey 2#2 3#32) ∧
  decodeBus ⟨true, 0x28#6, 4, 7#32⟩ = .ok (.wrCmd 7#32) ∧
  decodeBus ⟨true, 0x28#6, 2, 7#32⟩ = .error (.badWidth 2)

/-! ### A transaction and a step -/

/-- 30_encoding R53: width, then alignment, then the BUSY hazard, then the row that selects the descriptor. -/
def Obligations.TransactionChecksInOrder : Prop :=
  ∀ (s : State) (t : Transaction),
    (t.width ≠ 4 → hostTurn t s = .fault (.busError t.off)) ∧
    (t.width = 4 → t.off.extractLsb' 0 2 ≠ 0#2 → hostTurn t s = .fault (.busError t.off)) ∧
    (t.width = 4 → t.off.extractLsb' 0 2 = 0#2 → s.busy = true → t.descriptor ≠ 0x2C#7 →
      hostTurn t s = .fault (.hazard t.off t.write)) ∧
    (t.width = 4 → t.off.extractLsb' 0 2 = 0#2 → (s.busy = false ∨ t.descriptor = 0x2C#7) →
      ∃ i, decodeRow t.descriptor t.data = .ok i ∧ hostTurn t s = exec i s)

/-- 60_exceptions R119, and the order of R124 and 30_encoding R53: a transaction gets a bus error exactly for a wrong
width, a misaligned offset, or, past the hazard check, a write to DOUT or an access to a reserved offset; and it carries
the transaction's offset. That a bus error is a fault of the run, with no next state, is log entry 9. -/
def Obligations.BusErrorsAreExactlyThese : Prop :=
  ∀ (s : State) (t : Transaction) (off : Offset),
    hostTurn t s = .fault (.busError off) ↔
      off = t.off ∧
        (t.width ≠ 4 ∨ t.off.extractLsb' 0 2 ≠ 0#2 ∨
          (s.busy = false ∧ ((t.write = true ∧ (t.off = 0x20#6 ∨ t.off = 0x24#6)) ∨ 0x30 ≤ t.off.toNat)))

/-- When the transaction at the head of the schedule decodes to `i`, the step is `exec i` with that event taken off
the schedule, which is all a step adds; and a CMD write whose word decodes to a command runs as that command. -/
def Obligations.StepRunsTheDecodedInstruction : Prop :=
  (∀ (s : State) (t : Transaction) (rest : List Event) (i : Instr),
    s.schedule = .host t :: rest → decodeBus t = .ok i → step s = exec i { s with schedule := rest }) ∧
  (∀ (cfg : Configuration) (s : State) (t : Transaction) (rest : List Event) (i : Instr),
    s.schedule = .host t :: rest → decodeBus t = .ok i → stepWith cfg s = exec i { s with schedule := rest }) ∧
  (∀ (s : State) (c : Word) (i : Instr), decode (.cmd c) = .ok i → exec (.wrCmd c) s = exec i s)

/-- The other steps: an engine turn, a reset, and an empty schedule (log entries 1, 2 and 6), for every configuration;
the step behind the host's interface is that of the standard one, an XTEA instance (log entry 3). -/
def Obligations.StepOfTheOtherEvents : Prop := ∀ cfg : Configuration,
  (∀ (s : State) (rest : List Event), s.schedule = .engine :: rest →
    stepWith cfg s = .next (engineTurn cfg { s with schedule := rest })) ∧
  (∀ (s : State) (rest : List Event), s.schedule = .reset :: rest →
    stepWith cfg s = .next { State.reset with schedule := rest, reads := s.reads }) ∧
  (∀ s : State, s.schedule = [] → stepWith cfg s = .next (engineTurn cfg s)) ∧
  (∀ s : State, step s = stepWith Config.standard s ∧ Config.standard.variant = .xtea)

/-- A step stops only where 60_exceptions R116 says it can: at a host transaction, with a bus error or, while BUSY, a
hazard fault that names the transaction; the engine and reset never stop, and nothing is refused. -/
def Obligations.OnlyTransactionsStop : Prop :=
  (∀ (cfg : Configuration) (s : State) (f : Fault), stepWith cfg s = .fault f → ∃ t rest, s.schedule = .host t :: rest ∧
    (f = .busError t.off ∨ (f = .hazard t.off t.write ∧ s.busy = true))) ∧
  (∀ (cfg : Configuration) (s : State) (r : Refusal), stepWith cfg s ≠ .refused r)

/-! ### The commands -/

/-- 42_register_access R100: NOP clears ERR and changes nothing else; it needs no key and no chain. -/
def Obligations.NopClearsErrOnly : Prop :=
  decode (.cmd 0x00000000#32) = .ok .nop ∧
  ∀ s : State,
    (s.busy = true → exec .nop s = .fault (.hazard 0x28#6 true)) ∧
    (s.busy = false → exec .nop s = .next { s with err := 0x0#4 })

/-- 40_block_cipher R71: ENCIPHER, its word, its refusal, its acceptance and its completion. -/
def Obligations.EncipherCommand : Prop :=
  decode (.cmd 0x00000001#32) = .ok .encipher ∧
  ∀ (cfg : Configuration) (s : State),
    (s.busy = true → exec .encipher s = .fault (.hazard 0x28#6 true)) ∧
    (s.busy = false → s.keyv ≠ 0b1111#4 → exec .encipher s = .next { s with err := 0x2#4, sticky := true }) ∧
    (s.busy = false → s.keyv = 0b1111#4 →
      ∃ t, exec .encipher s = .next t ∧
        t = { s with pending := some ⟨.encipher, s.key, s.chain, s.din⟩, err := 0x0#4, busy := true,
                     doutValid := false } ∧
        deliver cfg .engine t = .next { s with dout := encipher cfg.variant s.key s.din, err := 0x0#4, doutValid := true,
                                               busy := false, pending := none })

/-- 40_block_cipher R72: DECIPHER. -/
def Obligations.DecipherCommand : Prop :=
  decode (.cmd 0x00000002#32) = .ok .decipher ∧
  ∀ (cfg : Configuration) (s : State),
    (s.busy = true → exec .decipher s = .fault (.hazard 0x28#6 true)) ∧
    (s.busy = false → s.keyv ≠ 0b1111#4 → exec .decipher s = .next { s with err := 0x2#4, sticky := true }) ∧
    (s.busy = false → s.keyv = 0b1111#4 →
      ∃ t, exec .decipher s = .next t ∧
        t = { s with pending := some ⟨.decipher, s.key, s.chain, s.din⟩, err := 0x0#4, busy := true,
                     doutValid := false } ∧
        deliver cfg .engine t = .next { s with dout := decipher cfg.variant s.key s.din, err := 0x0#4, doutValid := true,
                                               busy := false, pending := none })

/-- 41_cbc_chain R77, R79: CBC_ENC; the key is checked before the chain. -/
def Obligations.CbcEncCommand : Prop :=
  decode (.cmd 0x00000003#32) = .ok .cbcEnc ∧
  ∀ (cfg : Configuration) (s : State),
    let x := encipher cfg.variant s.key ⟨s.din.w0 ^^^ s.chain.w0, s.din.w1 ^^^ s.chain.w1⟩
    (s.busy = true → exec .cbcEnc s = .fault (.hazard 0x28#6 true)) ∧
    (s.busy = false → s.keyv ≠ 0b1111#4 → exec .cbcEnc s = .next { s with err := 0x2#4, sticky := true }) ∧
    (s.busy = false → s.keyv = 0b1111#4 → s.chv ≠ 0b11#2 →
      exec .cbcEnc s = .next { s with err := 0x3#4, sticky := true }) ∧
    (s.busy = false → s.keyv = 0b1111#4 → s.chv = 0b11#2 →
      ∃ t, exec .cbcEnc s = .next t ∧
        t = { s with pending := some ⟨.cbcEnc, s.key, s.chain, s.din⟩, err := 0x0#4, busy := true,
                     doutValid := false } ∧
        deliver cfg .engine t = .next { s with dout := x, chain := x, err := 0x0#4, doutValid := true, busy := false,
                                               pending := none })

/-- 41_cbc_chain R78, R80: CBC_DEC; CHAIN takes the ciphertext consumed, and DOUT uses the old CHAIN. -/
def Obligations.CbcDecCommand : Prop :=
  decode (.cmd 0x00000004#32) = .ok .cbcDec ∧
  ∀ (cfg : Configuration) (s : State),
    let d := decipher cfg.variant s.key s.din
    (s.busy = true → exec .cbcDec s = .fault (.hazard 0x28#6 true)) ∧
    (s.busy = false → s.keyv ≠ 0b1111#4 → exec .cbcDec s = .next { s with err := 0x2#4, sticky := true }) ∧
    (s.busy = false → s.keyv = 0b1111#4 → s.chv ≠ 0b11#2 →
      exec .cbcDec s = .next { s with err := 0x3#4, sticky := true }) ∧
    (s.busy = false → s.keyv = 0b1111#4 → s.chv = 0b11#2 →
      ∃ t, exec .cbcDec s = .next t ∧
        t = { s with pending := some ⟨.cbcDec, s.key, s.chain, s.din⟩, err := 0x0#4, busy := true,
                     doutValid := false } ∧
        deliver cfg .engine t = .next { s with dout := ⟨d.w0 ^^^ s.chain.w0, d.w1 ^^^ s.chain.w1⟩, chain := s.din,
                                               err := 0x0#4, doutValid := true, busy := false, pending := none })

/-- 42_register_access R95 and 60_exceptions R117, R123: WR CMD is its pseudocode, line by line: ILLEGAL_CMD, then
KEY_NOT_LOADED, then CHAIN_NOT_LOADED, then NOP, then acceptance; while BUSY it is a hazard fault. -/
def Obligations.WriteCmdFollowsItsPseudocode : Prop :=
  (∀ t : Transaction, t.width = 4 → t.descriptor = 0x68#7 → decodeBus t = .ok (.wrCmd t.data)) ∧
  ∀ (s : State) (c : Word),
    let op := (c.extractLsb' 0 4).toNat
    (s.busy = true → exec (.wrCmd c) s = .fault (.hazard 0x28#6 true)) ∧
    (s.busy = false → exec (.wrCmd c) s = .next (
      if c.extractLsb' 4 28 ≠ 0#28 ∨ 4 < op then { s with err := 0x1#4, sticky := true }
      else if (op = 1 ∨ op = 2 ∨ op = 3 ∨ op = 4) ∧ s.keyv ≠ 0b1111#4 then { s with err := 0x2#4, sticky := true }
      else if (op = 3 ∨ op = 4) ∧ s.chv ≠ 0b11#2 then { s with err := 0x3#4, sticky := true }
      else if op = 0 then { s with err := 0x0#4 }
      else { s with
        err := 0x0#4, busy := true, doutValid := false,
        pending := some ⟨if op = 1 then .encipher else if op = 2 then .decipher else if op = 3 then .cbcEnc else .cbcDec,
          s.key, s.chain, s.din⟩ }))

/-- 60_exceptions R118: a CMD write that leaves an error code has changed ERR and STICKY, and nothing else. -/
def Obligations.RefusalIsPrecise : Prop :=
  ∀ (s t : State) (c : Word), exec (.wrCmd c) s = .next t → t.busy = false → t.err ≠ 0x0#4 →
    t = { s with err := t.err, sticky := true } ∧ t.err.toNat ≤ 3

/-- 42_register_access R101: the completion step, by the pending operation, and that it is enabled exactly when
PENDING is not none; it never stops (60_exceptions R116). -/
def Obligations.CompletionStep : Prop := ∀ cfg : Configuration,
  (∀ s : State, s.pending = none → deliver cfg .engine s = .next s) ∧
  (∀ (s : State) (p : Pending), s.pending = some p →
    let done (r c : Block) : State :=
      { s with dout := r, chain := c, doutValid := true, busy := false, pending := none }
    (p.op = .encipher → deliver cfg .engine s = .next (done (encipher cfg.variant p.key p.din) s.chain)) ∧
    (p.op = .decipher → deliver cfg .engine s = .next (done (decipher cfg.variant p.key p.din) s.chain)) ∧
    (p.op = .cbcEnc → ∃ r, r = encipher cfg.variant p.key ⟨p.din.w0 ^^^ p.chain.w0, p.din.w1 ^^^ p.chain.w1⟩ ∧
      deliver cfg .engine s = .next (done r r)) ∧
    (p.op = .cbcDec → ∃ r, r = decipher cfg.variant p.key p.din ∧
      deliver cfg .engine s = .next (done ⟨r.w0 ^^^ p.chain.w0, r.w1 ^^^ p.chain.w1⟩ p.din)))

/-! ### The register reads and writes -/

/-- 42_register_access R88, R96: reads of KEY and of CMD return 0, with the encoding of each. -/
def Obligations.WriteOnlyRegistersReadZero : Prop :=
  (∀ (s : State) (i : BitVec 2), s.busy = false →
    exec (.rdKey i) s = .next { s with reads := s.reads ++ [⟨0b00#2 ++ i ++ 0b00#2, 0x00000000#32⟩] }) ∧
  (∀ s : State, s.busy = false →
    exec .rdCmd s = .next { s with reads := s.reads ++ [⟨0x28#6, 0x00000000#32⟩] }) ∧
  (∀ t : Transaction, t.width = 4 → t.descriptor &&& 0x73#7 = 0x00#7 →
    decodeBus t = .ok (.rdKey (t.off.extractLsb' 2 2))) ∧
  (∀ t : Transaction, t.width = 4 → t.descriptor = 0x28#7 → decodeBus t = .ok .rdCmd)

/-- 42_register_access R90, R92, R94: reads of CHAIN, DIN and DOUT return the addressed word, whatever DOUT_VALID says, and
change nothing; with the encoding of each. The value returned goes to the record of log entry 4. -/
def Obligations.DataRegistersReadBack : Prop :=
  (∀ t : Transaction, t.width = 4 →
    (t.descriptor &&& 0x7B#7 = 0x10#7 → decodeBus t = .ok (.rdChain (t.off.extractLsb' 2 1))) ∧
    (t.descriptor &&& 0x7B#7 = 0x18#7 → decodeBus t = .ok (.rdDin (t.off.extractLsb' 2 1))) ∧
    (t.descriptor &&& 0x7B#7 = 0x20#7 → decodeBus t = .ok (.rdDout (t.off.extractLsb' 2 1)))) ∧
  ∀ s : State, s.busy = false →
    exec (.rdChain 0#1) s = .next { s with reads := s.reads ++ [⟨0x10#6, s.chain.w0⟩] } ∧
    exec (.rdChain 1#1) s = .next { s with reads := s.reads ++ [⟨0x14#6, s.chain.w1⟩] } ∧
    exec (.rdDin 0#1) s = .next { s with reads := s.reads ++ [⟨0x18#6, s.din.w0⟩] } ∧
    exec (.rdDin 1#1) s = .next { s with reads := s.reads ++ [⟨0x1C#6, s.din.w1⟩] } ∧
    exec (.rdDout 0#1) s = .next { s with reads := s.reads ++ [⟨0x20#6, s.dout.w0⟩] } ∧
    exec (.rdDout 1#1) s = .next { s with reads := s.reads ++ [⟨0x24#6, s.dout.w1⟩] }

/-- 10_state R22 and 42_register_access R98: RD STATUS goes on in every state, BUSY or not, returns the word whose
fields are those of the table, bits 31:13 zero, and changes nothing; with its encoding. -/
def Obligations.StatusReadReturnsItsFields : Prop :=
  (∀ t : Transaction, t.width = 4 → t.descriptor = 0x2C#7 → decodeBus t = .ok .rdStatus) ∧
  ∀ s : State, ∃ w : Word,
    exec .rdStatus s = .next { s with reads := s.reads ++ [⟨0x2C#6, w⟩] } ∧
    w.getLsbD 0 = s.busy ∧ w.getLsbD 1 = s.doutValid ∧
    w.extractLsb' 2 4 = s.keyv ∧ w.extractLsb' 6 2 = s.chv ∧ w.extractLsb' 8 4 = s.err ∧
    w.getLsbD 12 = s.sticky ∧ w.extractLsb' 13 19 = 0#19

/-- 42_register_access R87: WR KEYi writes key word i and sets KEYV[i], and nothing else. -/
def Obligations.KeyWriteLoadsOneWord : Prop :=
  (∀ t : Transaction, t.width = 4 → t.descriptor &&& 0x73#7 = 0x40#7 →
    decodeBus t = .ok (.wrKey (t.off.extractLsb' 2 2) t.data)) ∧
  ∀ (s : State) (i : BitVec 2) (v : Word), s.busy = false →
    ∃ t, exec (.wrKey i v) s = .next t ∧
      t.key.word i = v ∧ (∀ j, j ≠ i → t.key.word j = s.key.word j) ∧
      t.keyv.getLsbD i.toNat = true ∧ (∀ n, n ≠ i.toNat → t.keyv.getLsbD n = s.keyv.getLsbD n) ∧
      t = { s with key := t.key, keyv := t.keyv }

/-- 42_register_access R89: WR CHAINi writes chain word i and sets CHV[i], and nothing else. -/
def Obligations.ChainWriteLoadsOneWord : Prop :=
  (∀ t : Transaction, t.width = 4 → t.descriptor &&& 0x7B#7 = 0x50#7 →
    decodeBus t = .ok (.wrChain (t.off.extractLsb' 2 1) t.data)) ∧
  ∀ (s : State) (i : BitVec 1) (v : Word), s.busy = false →
    ∃ t, exec (.wrChain i v) s = .next t ∧
      t.chain.word i = v ∧ (∀ j, j ≠ i → t.chain.word j = s.chain.word j) ∧
      t.chv.getLsbD i.toNat = true ∧ (∀ n, n ≠ i.toNat → t.chv.getLsbD n = s.chv.getLsbD n) ∧
      t = { s with chain := t.chain, chv := t.chv }

/-- 42_register_access R91: WR DINi writes word i of DIN, and nothing else; there is no written flag. -/
def Obligations.DinWriteLoadsOneWord : Prop :=
  (∀ t : Transaction, t.width = 4 → t.descriptor &&& 0x7B#7 = 0x58#7 →
    decodeBus t = .ok (.wrDin (t.off.extractLsb' 2 1) t.data)) ∧
  ∀ (s : State) (v : Word), s.busy = false →
    exec (.wrDin 0#1 v) s = .next { s with din := ⟨v, s.din.w1⟩ } ∧
    exec (.wrDin 1#1 v) s = .next { s with din := ⟨s.din.w0, v⟩ }

/-- 42_register_access R97: WR STATUS clears STICKY when bit 12 of the data is 1; every other bit is ignored. -/
def Obligations.StatusWriteClearsSticky : Prop :=
  (∀ t : Transaction, t.width = 4 → t.descriptor = 0x6C#7 → decodeBus t = .ok (.wrStatus t.data)) ∧
  ∀ (s : State) (v : Word), s.busy = false →
    exec (.wrStatus v) s = .next { s with sticky := s.sticky && !v.getLsbD 12 }

/-- 42_register_access R93, R99: WR DOUTi, RD reserved and WR reserved stop with a bus error at every index and for
every data word; no state changes, for there is no next state. -/
def Obligations.RejectedAccessesGetABusError : Prop :=
  (∀ t : Transaction, t.width = 4 →
    (t.descriptor &&& 0x7B#7 = 0x60#7 → decodeBus t = .ok (.wrDout (t.off.extractLsb' 2 1) t.data)) ∧
    (t.descriptor &&& 0x73#7 = 0x30#7 → decodeBus t = .ok (.rdReserved (t.off.extractLsb' 2 2))) ∧
    (t.descriptor &&& 0x73#7 = 0x70#7 → decodeBus t = .ok (.wrReserved (t.off.extractLsb' 2 2) t.data))) ∧
  ∀ s : State, s.busy = false →
    (∀ (i : BitVec 1) (v : Word), exec (.wrDout i v) s = .fault (.busError (0b100#3 ++ i ++ 0b00#2))) ∧
    (∀ i : BitVec 2, exec (.rdReserved i) s = .fault (.busError (0b11#2 ++ i ++ 0b00#2))) ∧
    (∀ (i : BitVec 2) (v : Word), exec (.wrReserved i v) s = .fault (.busError (0b11#2 ++ i ++ 0b00#2)))

/-- 70_reset_and_hazards R140, R141: while BUSY every instruction but RD STATUS is a hazard fault that names the
access's offset and direction, and RD STATUS goes on. -/
def Obligations.BusyAdmitsOnlyStatusReads : Prop :=
  ∀ s : State, s.busy = true →
    (∀ i : Instr, i ≠ .rdStatus →
      exec i s = .fault (.hazard (encode i).transaction.off (encode i).transaction.write)) ∧
    ∃ t, exec .rdStatus s = .next t

/-! ### Reset -/

/-- 70_reset_and_hazards R136: every piece of state after reset, and STATUS as a word. -/
def Obligations.ResetValues : Prop :=
  State.reset.key = ⟨0#32, 0#32, 0#32, 0#32⟩ ∧ State.reset.keyv = 0b0000#4 ∧
  State.reset.chain = ⟨0#32, 0#32⟩ ∧ State.reset.chv = 0b00#2 ∧
  State.reset.din = ⟨0#32, 0#32⟩ ∧ State.reset.dout = ⟨0#32, 0#32⟩ ∧
  State.reset.busy = false ∧ State.reset.doutValid = false ∧ State.reset.err = 0x0#4 ∧ State.reset.sticky = false ∧
  State.reset.pending = none ∧ statusWord State.reset = 0x00000000#32

/-- 70_reset_and_hazards R137: a reset in any state, BUSY or not, puts every register and PENDING at the values of R136;
a pending command is gone, and the engine's next turn changes nothing. Nothing is said of the model's own fields
(schedule, reads). -/
def Obligations.ResetCancelsAPendingCommand : Prop :=
  ∀ (cfg : Configuration) (s : State), ∃ t, deliver cfg .reset s = .next t ∧
    { t with schedule := State.reset.schedule, reads := State.reset.reads } = State.reset ∧
    deliver cfg .engine t = .next t

/-! ### Invariants and whole-machine rules -/

/-- The invariant of the state record holds after reset. -/
def Obligations.InvariantHoldsAtReset : Prop := State.reset.Inv

/-- Every step keeps the invariant: BUSY exactly when a command is pending, the snapshot equal to the live registers,
the flags it was accepted under still set, no reserved error code (10_state R28, R33, 60_exceptions R117). It holds of the
step behind the host's interface and of the step of every configuration. -/
def Obligations.EveryStepKeepsTheInvariant : Prop :=
  (∀ s t : State, s.Inv → Sys2Proof.Machine.step s = .next t → t.Inv) ∧
  (∀ (cfg : Configuration) (s t : State), s.Inv → stepWith cfg s = .next t → t.Inv)

/-- 10_state R33: BUSY = 1 exactly when PENDING is not none, in every state that meets the invariant. -/
def Obligations.BusyExactlyWhenPending : Prop :=
  ∀ s : State, s.Inv → (s.busy = true ↔ s.pending ≠ none)

/-- 10_state R15, R17: only a reset clears a written flag. -/
def Obligations.WrittenFlagsFallOnlyAtReset : Prop :=
  ∀ (cfg : Configuration) (s t : State), stepWith cfg s = .next t → (∀ rest, s.schedule ≠ .reset :: rest) →
    (∀ n, s.keyv.getLsbD n = true → t.keyv.getLsbD n = true) ∧
    (∀ n, s.chv.getLsbD n = true → t.chv.getLsbD n = true)

/-- 41_cbc_chain R81: what a step that changes CHAIN was, and what a refused command leaves alone. -/
def Obligations.ChainChangesOnlyThere : Prop :=
  (∀ (cfg : Configuration) (s t : State), stepWith cfg s = .next t → t.chain ≠ s.chain →
    (∃ rest, s.schedule = .reset :: rest) ∨
    (∃ tr rest i v, s.schedule = .host tr :: rest ∧ decodeBus tr = .ok (.wrChain i v)) ∨
    (∃ p, s.pending = some p ∧ (p.op = .cbcEnc ∨ p.op = .cbcDec) ∧
      (s.schedule = [] ∨ ∃ rest, s.schedule = .engine :: rest))) ∧
  (∀ s t : State, (exec .cbcEnc s = .next t ∨ exec .cbcDec s = .next t) → t.err ≠ 0x0#4 →
    t.chain = s.chain ∧ t.dout = s.dout ∧ t.doutValid = s.doutValid)

/-- 10_state R14, R19, R20: KEY changes only by a write of KEY or a reset, DIN only by a write of DIN or a reset, DOUT
only at a completion or a reset; no command writes KEY or DIN (40_block_cipher R73). -/
def Obligations.DataRegistersChangeOnlyThere : Prop :=
  ∀ (cfg : Configuration) (s t : State), stepWith cfg s = .next t →
    (t.key ≠ s.key → (∃ rest, s.schedule = .reset :: rest) ∨
      ∃ tr rest i v, s.schedule = .host tr :: rest ∧ decodeBus tr = .ok (.wrKey i v)) ∧
    (t.din ≠ s.din → (∃ rest, s.schedule = .reset :: rest) ∨
      ∃ tr rest i v, s.schedule = .host tr :: rest ∧ decodeBus tr = .ok (.wrDin i v)) ∧
    (t.dout ≠ s.dout → (∃ rest, s.schedule = .reset :: rest) ∨
      (s.pending ≠ none ∧ (s.schedule = [] ∨ ∃ rest, s.schedule = .engine :: rest)))

/-- 10_state R25, R26: ERR changes only by a CMD write or a reset, STICKY only by a refused CMD write, a write of
STATUS or a reset. -/
def Obligations.ErrorFieldsChangeOnlyThere : Prop :=
  ∀ (cfg : Configuration) (s t : State), stepWith cfg s = .next t →
    (t.err ≠ s.err → (∃ rest, s.schedule = .reset :: rest) ∨
      ∃ tr rest c, s.schedule = .host tr :: rest ∧ decodeBus tr = .ok (.wrCmd c)) ∧
    (t.sticky ≠ s.sticky → (∃ rest, s.schedule = .reset :: rest) ∨
      (∃ tr rest c, s.schedule = .host tr :: rest ∧ decodeBus tr = .ok (.wrCmd c) ∧ t.err ≠ 0x0#4 ∧ t.sticky = true) ∨
      (∃ tr rest v, s.schedule = .host tr :: rest ∧ decodeBus tr = .ok (.wrStatus v) ∧ v.getLsbD 12 = true ∧
        t.sticky = false))

/-- 40_block_cipher R70 and 00_scope R11: the configuration acts at a completion only, and by its variant only. A step
that completes no command is the same for every configuration, so no host action selects the variant; and no step
depends on `BASE_ADDR` or `CMD_LATENCY`. -/
def Obligations.ConfigurationActsOnlyAtCompletion : Prop :=
  ∀ (c d : Configuration) (s : State),
    ((s.pending = none ∨ (∃ t rest, s.schedule = .host t :: rest) ∨ ∃ rest, s.schedule = .reset :: rest) →
      stepWith c s = stepWith d s) ∧
    (c.variant = d.variant → stepWith c s = stepWith d s)

/-- 42_register_access R88: no read shows the key. Two states that differ only in KEY give the host the same read
values, whatever the instruction, and the same stop. -/
def Obligations.NoInstructionShowsTheKey : Prop :=
  ∀ (s : State) (k : Key) (i : Instr),
    (∀ t, exec i s = .next t → ∃ u, exec i { s with key := k } = .next u ∧ u.reads = t.reads ∧
      statusWord u = statusWord t) ∧
    (∀ f, exec i s = .fault f → exec i { s with key := k } = .fault f)

/-- 42_register_access R101 and 70_reset_and_hazards R142, R146: however many STATUS reads a host issues before the
engine's turn, each of them returns the status word with BUSY, and the command completes at that turn: DOUT, CHAIN and
DOUT_VALID are those of its completion. That the engine moves when the schedule is empty is log entry 2. -/
def Obligations.PollingEndsWithTheResult : Prop :=
  ∀ (cfg : Configuration) (n : Nat) (s : State) (p : Pending), s.busy = true → s.pending = some p →
    s.schedule = List.replicate n (.host ⟨false, 0x2C#6, 4, 0#32⟩) →
    ∃ t, Host.Core.run (coreWith cfg) (n + 1) s = .next t ∧
      t = { engineTurn cfg s with
              schedule := [], reads := s.reads ++ List.replicate n ⟨0x2C#6, statusWord s⟩ } ∧
      t.busy = false ∧ t.pending = none ∧ t.doutValid = true ∧
      t.dout = (completePending cfg p s).dout ∧ t.chain = (completePending cfg p s).chain ∧
      (statusWord s).getLsbD 0 = true

/-! ### The cipher -/

/-- 40_block_cipher R64: decipher and encipher are inverse, for every key, every block and both variants. -/
def Obligations.DecipherInvertsEncipher : Prop :=
  ∀ (rv : RoundVariant) (k : Key) (b : Block),
    decipher rv k (encipher rv k b) = b ∧ encipher rv k (decipher rv k b) = b

/-- 40_block_cipher R65 to R70 and R74: the running sum after n cycles, whatever the key and the block; after 32 cycles
it is DEC_SUM0 = 0xC6EF3720 going forward and 0 going backward. And the words that the ciphers compute: encipher and
decipher of each variant are the end of 32 cycles from the block, each of which updates both words by the formulas of
R66 to R69 with the sums of R74. R74 is derived in the spec, and the formulas are those of log entry 7. -/
def Obligations.SumRunsForwardAndBackward : Prop :=
  (∀ (rv : RoundVariant) (k : Key) (b : Block) (n : Nat),
    (cycles (encCycle rv k) n (Working.load b 0#32)).sum = 0x9E3779B9#32 * BitVec.ofNat 32 n ∧
    (cycles (decCycle rv k) n (Working.load b 0xC6EF3720#32)).sum =
      0xC6EF3720#32 - 0x9E3779B9#32 * BitVec.ofNat 32 n ∧
    (cycles (encCycle rv k) 32 (Working.load b 0#32)).sum = decSum0 ∧ decSum0 = 0xC6EF3720#32 ∧
    (cycles (decCycle rv k) 32 (Working.load b decSum0)).sum = 0#32) ∧
  ∀ (k : Key) (b : Block),
    let s (n : Nat) : Word := 0x9E3779B9#32 * BitVec.ofNat 32 n
    let f (w : Word) : Word := ((w <<< 4) ^^^ (w >>> 5)) + w
    let g (w sum ka kb : Word) : Word := ((w <<< 4) + ka) ^^^ (w + sum) ^^^ ((w >>> 5) + kb)
    let low (sum : Word) : Word := k.word (sum.extractLsb' 0 2)
    let high (sum : Word) : Word := k.word (sum.extractLsb' 11 2)
    (∃ v0 v1 : Nat → Word, v0 0 = b.w0 ∧ v1 0 = b.w1 ∧ encipher .xtea k b = ⟨v0 32, v1 32⟩ ∧ ∀ n < 32,
      v0 (n + 1) = v0 n + (f (v1 n) ^^^ (s n + low (s n))) ∧
      v1 (n + 1) = v1 n + (f (v0 (n + 1)) ^^^ (s (n + 1) + high (s (n + 1))))) ∧
    (∃ v0 v1 : Nat → Word, v0 0 = b.w0 ∧ v1 0 = b.w1 ∧ decipher .xtea k b = ⟨v0 32, v1 32⟩ ∧ ∀ n < 32,
      v1 (n + 1) = v1 n - (f (v0 n) ^^^ (s (32 - n) + high (s (32 - n)))) ∧
      v0 (n + 1) = v0 n - (f (v1 (n + 1)) ^^^ (s (31 - n) + low (s (31 - n))))) ∧
    (∃ v0 v1 : Nat → Word, v0 0 = b.w0 ∧ v1 0 = b.w1 ∧ encipher .tea k b = ⟨v0 32, v1 32⟩ ∧ ∀ n < 32,
      v0 (n + 1) = v0 n + g (v1 n) (s (n + 1)) k.k0 k.k1 ∧
      v1 (n + 1) = v1 n + g (v0 (n + 1)) (s (n + 1)) k.k2 k.k3) ∧
    (∃ v0 v1 : Nat → Word, v0 0 = b.w0 ∧ v1 0 = b.w1 ∧ decipher .tea k b = ⟨v0 32, v1 32⟩ ∧ ∀ n < 32,
      v1 (n + 1) = v1 n - g (v0 n) (s (32 - n)) k.k2 k.k3 ∧
      v0 (n + 1) = v0 n - g (v1 (n + 1)) (s (32 - n)) k.k0 k.k1)

/-- 70_reset_and_hazards R138: four KEY writes and two CHAIN writes make an idle core ready, with that key and IV. -/
def Obligations.LoadingMakesTheCoreReady : Prop :=
  ∀ (cfg : Configuration) (s : State) (k : Key) (iv : Block), s.busy = false →
    ∃ t, openStream cfg k iv s = .next t ∧ t.Ready ∧
      t = { s with key := k, keyv := 0b1111#4, chain := iv, chv := 0b11#2 }

/-- 41_cbc_chain R83, R84: the CBC round trip on the core. CBC_ENC commands on a ready core, one per block, give the
host the ciphertext blocks of the step functions, and leave CHAIN at the last of them; CBC_DEC commands on those
blocks, from the same key and chain under the same configuration, give the plaintext blocks back and leave the same
CHAIN. The hosts poll any number of times before each completion (70_reset_and_hazards R145; log entry 16). -/
def Obligations.CbcRoundTripOnTheCore : Prop :=
  ∀ (cfg : Configuration) (d : Driven) (ps : List Block), d.core.Ready →
    ∃ cs d1, processBlocks cfg .cbcEnc ps d = .next (cs, d1) ∧
      cs = encryptBlocks cfg.variant d.core.key d.core.chain ps ∧ cs.length = ps.length ∧
      d1.core.chain = cs.getLastD d.core.chain ∧
      ∀ d2 : Driven, d2.core.Ready → d2.core.key = d.core.key → d2.core.chain = d.core.chain →
        ∃ d3, processBlocks cfg .cbcDec cs d2 = .next (ps, d3) ∧ d3.core.chain = d1.core.chain

/-! ### The host's side and the platform -/

/-- 20_memory R36: byte j of a block's byte form is bits 8*(j mod 4)+7 : 8*(j mod 4) of word j div 4, and pack is the
inverse of unpack. -/
def Obligations.BytesAreLittleEndian : Prop :=
  (∀ (b : Block) (j : Nat), j < 8 →
    (unpack b)[j]? = some ((if j / 4 = 0 then b.w0 else b.w1).extractLsb' (8 * (j % 4)) 8)) ∧
  (∀ b0 b1 b2 b3 b4 b5 b6 b7 : Byte,
    pack [b0, b1, b2, b3, b4, b5, b6, b7] = ⟨b3 ++ b2 ++ b1 ++ b0, b7 ++ b6 ++ b5 ++ b4⟩ ∧
    unpack (pack [b0, b1, b2, b3, b4, b5, b6, b7]) = [b0, b1, b2, b3, b4, b5, b6, b7]) ∧
  (∀ b : Block, pack (unpack b) = b)

/-- 48_host_stream R104, R105: the length of the padding and of the ciphertext. -/
def Obligations.CiphertextLength : Prop :=
  ∀ (rv : RoundVariant) (k : Key) (iv : Block) (p : List Byte),
    1 ≤ padLength p.length ∧ padLength p.length ≤ 8 ∧ (padded p).length % 8 = 0 ∧
    (ciphertextOf rv k iv p).length = p.length + padLength p.length

/-- 48_host_stream R104, R106, R110 to R113: decrypting the ciphertext of a plaintext gives the plaintext back. -/
def Obligations.StreamRoundTrip : Prop :=
  ∀ (rv : RoundVariant) (k : Key) (iv : Block) (p : List Byte),
    plaintextOf rv k iv (ciphertextOf rv k iv p) = .ok p

/-- 48_host_stream R106, R107, R109: an encryptor on a ready core, whose sink takes every byte, gives the ciphertext of
the whole plaintext, however the plaintext is cut into writes and however often the host polls (log entry 16); each
write answers with the length of its chunk, close succeeds, and the sink is flushed once. -/
def Obligations.EncryptorIgnoresChunking : Prop :=
  ∀ (cfg : Configuration) (d : Driven) (k : Key) (chunks : List (List Byte)), d.core.Ready →
    let r := Encryptor.writeAll cfg ⟨d, ⟨k, none⟩, [], [], false, false⟩ ⟨[], [], 0, []⟩ chunks
    let c := r.1.close cfg r.2.1
    r.2.2 = chunks.map (fun b => .ok b.length) ∧ c.result = .ok () ∧
      c.sink.taken = ciphertextOf cfg.variant d.core.key d.core.chain chunks.flatten ∧ c.sink.flushes = 1

/-- 48_host_stream R110 to R113: a decryptor on a ready core gives the plaintext of the whole ciphertext, or its error,
however the source cuts the ciphertext into chunks; a non-empty chunk shorter than 8 bytes, wherever it comes, is a
malformed stream, and an empty one adds nothing and does not end it (log entry 10). One read of more bytes than the
source holds gives it all. Reads of any sizes, one after the other, give its bytes in order, each read as many as it
asks for until they end: what a read leaves is kept for the next. Of a malformed stream they give the decrypted bytes
before its last block (before the chunk that is too short), until a read asks for more, which is told the error. How
many chunks one read pulls, and when a held block is released, is log entry 10, and the host polls any number of times
before each completion (log entry 16). -/
def Obligations.DecryptorIgnoresChunking : Prop :=
  ∀ (cfg : Configuration) (d : Driven) (k : Key) (chunks : List (List Byte)), d.core.Ready →
    let reader : Decryptor := ⟨d, ⟨k, none⟩, [], none, [], chunks.map .chunk, false⟩
    let short (b : List Byte) : Bool := !b.isEmpty && decide (b.length < 8)
    let whole : Except StreamError (List Byte) :=
      if chunks.any short = true then .error .malformedLength
      else plaintextOf cfg.variant d.core.key d.core.chain chunks.flatten
    let decrypted := (decryptBlocks cfg.variant d.core.key d.core.chain
      (blocksOf (chunks.takeWhile fun b => !short b).flatten)).flatMap unpack
    (∀ n, chunks.flatten.length < n → (reader.read cfg n).told = whole) ∧
    ∀ ns : List Nat,
      (∀ p, whole = .ok p → reader.readAll cfg ns = (cutBytes p ns).map .ok) ∧
      (∀ x, whole = .error x → ∃ m, m ≤ ns.length ∧
        reader.readAll cfg ns = (cutBytes decrypted (ns.take m)).map .ok ++ (if m = ns.length then [] else [.error x]) ∧
        (ns.take m).sum ≤ decrypted.length - 8 ∧
        (m < ns.length → decrypted.length - 8 < (ns.take (m + 1)).sum))

/-- 41_cbc_chain R85: a stream saves its chain with `getchain`; another stream with its own key and IV runs on the same
core; the first stream loads its key and its saved chain again, and goes on as if nothing had come in between. Each of
the two encrypts or decrypts, whichever the other does. The hosts poll any number of times before each completion (log
entry 16). -/
def Obligations.ContextSwitchKeepsTheStream : Prop :=
  ∀ (cfg : Configuration) (d : Driven) (k : Key) (v : Block) (qs ps : List Block) (there here : Bool), d.core.Ready →
    let op (x : Bool) : CommandName := if x = true then .cbcDec else .cbcEnc
    let out (x : Bool) (k : Key) (v : Block) (bs : List Block) : List Block :=
      if x = true then decryptBlocks cfg.variant k v bs else encryptBlocks cfg.variant k v bs
    ∃ s0 s1 d2 s3 d4,
      deliverAll cfg (eventsOf 0 (assemble [.getchain])) d.core = .next s0 ∧
      s0.reads = d.core.reads ++ [⟨0x10#6, d.core.chain.w0⟩, ⟨0x14#6, d.core.chain.w1⟩] ∧
      openStream cfg k v s0 = .next s1 ∧
      processBlocks cfg (op there) qs ⟨s1, d.polls⟩ = .next (out there k v qs, d2) ∧
      openStream cfg d.core.key d.core.chain d2.core = .next s3 ∧
      processBlocks cfg (op here) ps ⟨s3, d2.polls⟩ = .next (out here d.core.key d.core.chain ps, d4)

/-- 30_encoding R61: a poll is over exactly when BUSY is 0; otherwise the host polls again. The core is unchanged but
for the record of the read. -/
def Obligations.WaitEndsWhenNotBusy : Prop :=
  ∀ (cfg : Configuration) (y : System) (rest : List Action), y.todo = .poll :: rest →
    y.turn cfg .host = .next { y with
      core := { y.core with reads := y.core.reads ++ [⟨0x2C#6, statusWord y.core⟩] },
      todo := if y.core.busy = true then .poll :: rest else rest }

/-- 10_state R32, 60_exceptions R132: an event at one instance changes that instance as `deliver` says, and no other. -/
def Obligations.InstancesShareNothing : Prop :=
  ∀ (p q : Platform) (n : Nat) (e : Event), Platform.deliverAt n e p = .next q →
    q.length = p.length ∧ (∀ m, m ≠ n → q[m]? = p[m]?) ∧
    (∀ x, p[n]? = some x → ∃ c, deliver x.config e x.core = .next c ∧ q[n]? = some { x with core := c })

/-- 20_memory R39: the window's decoding, and that two windows of a platform never both decode an address. -/
def Obligations.WindowDecoding : Prop :=
  (∀ base addr : Nat, (base ≤ addr ∧ addr < base + 64) →
    ∃ off, windowOffset base addr = some off ∧ off.toNat = addr - base) ∧
  (∀ base addr : Nat, ¬ (base ≤ addr ∧ addr < base + 64) → windowOffset base addr = none) ∧
  (∀ (p : Platform) (m n addr : Nat) (x y : Instance), p.wellFormed = true → m ≠ n →
    p[m]? = some x → p[n]? = some y → windowOffset x.config.baseAddr addr ≠ none →
    windowOffset y.config.baseAddr addr = none)

/-- 48_host_stream R102 and 41_cbc_chain R85: a stream that runs keeps its key and saves its chaining value when it gives
the core up; resumed on any idle core, whatever key and chain that core holds, it has its key and its chaining value in
the core again and its buffers as they were. It says so of the encryptor and of the decryptor. -/
def Obligations.SuspendedStreamResumes : Prop :=
  ∀ (cfg : Configuration) (new : Driven), new.core.busy = false →
    (∀ e : Encryptor, e.core.core.Ready → e.context = ⟨e.core.core.key, none⟩ →
      ∃ e1 e2, e.suspend cfg = .next e1 ∧ e1.resume cfg new = .next e2 ∧
        e1 = { e with core := e1.core, context := ⟨e.core.core.key, some e.core.core.chain⟩ } ∧
        e2 = { e with core := e2.core } ∧ e2.core.core.Ready ∧
        e2.core.core.key = e.core.core.key ∧ e2.core.core.chain = e.core.core.chain) ∧
    (∀ r : Decryptor, r.core.core.Ready → r.context = ⟨r.core.core.key, none⟩ →
      ∃ r1 r2, r.suspend cfg = .next r1 ∧ r1.resume cfg new = .next r2 ∧
        r1 = { r with core := r1.core, context := ⟨r.core.core.key, some r.core.core.chain⟩ } ∧
        r2 = { r with core := r2.core } ∧ r2.core.core.Ready ∧
        r2.core.core.key = r.core.core.key ∧ r2.core.core.chain = r.core.core.chain)

/-- 48_host_stream R114: every I/O error of the sink or the source reaches the caller unchanged, wherever in the call it
comes. A write, a flush or a close tells its caller exactly the I/O errors that the sink gave it, in its offers and its
flush: at most one, and none is swallowed; a flush and a close lose no byte of ciphertext by it (for a write,
WriteDeliversEachBlockOnce says so). A read tells the source's error, and the next read goes on as if the source had not
failed; a read that answers, or aborts by what it has pulled, has met no error of the source. That a sink that fails
takes no byte of that offer, and that an error is told alone, is log entry 10. -/
def Obligations.IoErrorsPropagateUnchanged : Prop :=
  ∀ cfg : Configuration,
    (∀ (e : Encryptor) (k : Sink) (input : List Byte), ∃ used,
      let r := e.write cfg k input
      k.replies = used ++ r.sink.replies ∧ k.flushReplies = r.sink.flushReplies ∧
      used.filterMap SinkReply.ioError = (ioErrorTold r.result).toList) ∧
    (∀ (e : Encryptor) (k : Sink), ∃ used flushed,
      let r := e.flush k
      k.replies = used ++ r.sink.replies ∧ k.flushReplies = flushed ++ r.sink.flushReplies ∧
      used.filterMap SinkReply.ioError ++ flushed.filterMap id = (ioErrorTold r.result).toList ∧
      r.sink.taken ++ r.enc.unsent = k.taken ++ e.unsent ∧ r.enc.plain = e.plain ∧ r.enc.core = e.core) ∧
    (∀ (e : Encryptor) (k : Sink), ∃ used flushed,
      let r := e.close cfg k
      k.replies = used ++ r.sink.replies ∧ k.flushReplies = flushed ++ r.sink.flushReplies ∧
      used.filterMap SinkReply.ioError ++ flushed.filterMap id = (ioErrorTold r.result).toList ∧
      (e.core.core.Ready →
        (r.sink.taken ++ r.enc.unsent = k.taken ++ e.unsent ∧ r.enc.plain = e.plain ∧ r.enc.core = e.core) ∨
        ∃ c, processBlock cfg .cbcEnc (pack (padded e.plain)) e.core = .next (c, r.enc.core) ∧
          r.sink.taken ++ r.enc.unsent = k.taken ++ e.unsent ++ unpack c)) ∧
    (∀ (d : Decryptor) (n : Nat) (v : List Byte) (d' : Decryptor), d.read cfg n = .got v d' →
      ∃ used, d.source = used ++ d'.source ∧ used.filterMap SourceReply.ioError = []) ∧
    (∀ (d : Decryptor) (n : Nat) (x : StreamError) (d' : Decryptor), d.context.saved = none →
      d.read cfg n = .again x d' →
      ∃ init y, x = .io y ∧ d.source = init ++ .fails y :: d'.source ∧ init.filterMap SourceReply.ioError = [] ∧
        d'.read cfg n = Decryptor.read cfg { d with source := init ++ d'.source } n) ∧
    (∀ (d : Decryptor) (n : Nat) (x : StreamError), d.read cfg n = .aborted x →
      ∃ used rest, d.source = used ++ rest ∧ used.filterMap SourceReply.ioError = [] ∧ (∀ y, x ≠ .io y) ∧
        (rest ≠ [] → ∀ more, Decryptor.read cfg { d with source := used ++ more } n = .aborted x))

/-- 48_host_stream R107, R114: whatever the sink does, and whether the write answers or ends in an error of the sink, it
has run one CBC_ENC for each whole block of the buffered plaintext and the `m` bytes it took, the bytes in the sink and
still pending are those before and the ciphertext of these blocks, in order, each once, and the plaintext bytes of no
whole block are in the buffer: delivery is retried, the cipher never. An answer is `m`; that an error carries no count,
and that a failed offer stays pending whole, is log entry 10. -/
def Obligations.WriteDeliversEachBlockOnce : Prop :=
  ∀ (cfg : Configuration) (e : Encryptor) (k : Sink) (input : List Byte),
    e.core.core.Ready → e.plain.length < 8 → e.closed = false → e.context.saved = none →
    let r := e.write cfg k input
    ∃ m cs, m ≤ input.length ∧ (∀ n, r.result = .ok n → n = m) ∧
      processBlocks cfg .cbcEnc (blocksOf (e.plain ++ input.take m)) e.core = .next (cs, r.enc.core) ∧
      r.sink.taken ++ r.enc.unsent = k.taken ++ e.unsent ++ cs.flatMap unpack ∧
      r.enc.plain = (e.plain ++ input.take m).drop (8 * cs.length)

/-- 70_reset_and_hazards R147: a host program's run has a result exactly when no transaction of the host is left (a
transaction it issues, or a poll; an assertion is none, 30_encoding R62) and BUSY is 0 with PENDING none, and it is the
read values and CHAIN, DIN, DOUT and STATUS, the same whatever KEY holds; a run that recorded a fault has none; and once
a run has ended no step changes its result, but for a reset. That CHAIN and DOUT count though they were never written is
log entry 18. -/
def Obligations.EndedRunHasItsResult : Prop :=
  (∀ (y : System) (r : RunResult), y.result = some r ↔
    (∀ t, .issue t ∉ y.todo) ∧ .poll ∉ y.todo ∧ y.core.busy = false ∧ y.core.pending = none ∧
      r = ⟨y.core.reads, y.core.chain, y.core.din, y.core.dout, statusWord y.core⟩) ∧
  (∀ (y : System) (k : Key), ({ y with core := { y.core with key := k } } : System).result = y.result) ∧
  (∀ f : Fault, resultOf (.fault f) = none) ∧
  (∀ (cfg : Configuration) (s t : State), s.ended = true → (∀ e ∈ s.schedule, e ≠ .reset) →
    stepWith cfg s = .next t → t.ended = true ∧ t.result = s.result ∧ s.result = some s.observed)

/-- 48_host_stream R102: the encryptor and the decryptor go through the states of the rule's machine. An encryptor with
nothing on its way to the sink is idle or buffering; input that completes a block makes the block ready; its cipher step
starts to drain it; the sink takes it all, or leaves a pending write, during which a write takes no input; and close is
the end. A decryptor with a whole block at hand has a block ready, which its cipher step takes; without one it is idle
or buffering when no released byte is left, and draining otherwise. A read that the released bytes can answer takes them
in order and keeps the rest, and leads back to idle or buffering when it takes them all. The rule gives the states; the
model's choices, of the encryptor and of the decryptor, are in log entry 10: which moment has which name, so that an
encryptor is draining before its ciphertext is offered and has a pending write once the sink has left some of it or
failed; that a close that fails is the end too; and that every operation on a closed encryptor is an error of its own.
-/
def Obligations.StreamsFollowTheStateMachine : Prop :=
  ∀ cfg : Configuration,
    (∀ (e : Encryptor) (input : List Byte), e.core.core.Ready → e.closed = false → e.unsent = [] → e.plain.length < 8 →
      e.phase = (if e.plain = [] then .idle else .buffering) ∧
      (e.plain.length + input.length < 8 → e.plain ++ input ≠ [] → (e.fill input).phase = .buffering) ∧
      (8 ≤ e.plain.length + input.length → (e.fill input).phase = .blockReady ∧
        ∃ e', (e.fill input).cipherStep cfg = .next e' ∧ e'.phase = .draining ∧
          ∀ k : Sink, (e'.send k).enc.phase = (if (e'.send k).result = .ok true then .idle else .pendingWrite))) ∧
    (∀ (e : Encryptor) (k : Sink) (input : List Byte), e.phase = .pendingWrite → (e.send k).result ≠ .ok true →
      (e.write cfg k input).enc.plain = e.plain ∧ (e.write cfg k input).enc.core = e.core ∧
      ∀ n, (e.write cfg k input).result = .ok n → n = 0) ∧
    (∀ (e : Encryptor) (k : Sink), e.context.saved = none → (e.close cfg k).enc.phase = .closed) ∧
    (∀ (e : Encryptor) (k : Sink) (input : List Byte), e.phase = .closed →
      e.write cfg k input = ⟨e, k, .error .closed⟩ ∧ e.flush k = ⟨e, k, .error .closed⟩ ∧
      e.close cfg k = ⟨e, k, .error .closed⟩) ∧
    (∀ d : Decryptor, d.core.core.Ready → 8 ≤ d.carry.length → d.phase = .blockReady ∧
      ∃ d', d.cipherStep cfg = .next d' ∧ d'.carry = d.carry.drop 8 ∧ d'.held ≠ none ∧
        d'.buffer = d.buffer ++ d.held.getD []) ∧
    (∀ d : Decryptor, d.carry.length < 8 → d.phase =
      if d.buffer ≠ [] then .draining else if d.carry = [] ∧ d.held = none then .idle else .buffering) ∧
    (∀ (d : Decryptor) (n : Nat), d.context.saved = none → n ≤ d.buffer.length →
      d.read cfg n = .got (d.buffer.take n) { d with buffer := d.buffer.drop n } ∧
      (d.carry.length < 8 → n < d.buffer.length → ({ d with buffer := d.buffer.drop n } : Decryptor).phase = .draining) ∧
      (d.carry.length < 8 → n = d.buffer.length → ({ d with buffer := d.buffer.drop n } : Decryptor).phase =
        if d.carry = [] ∧ d.held = none then .idle else .buffering))

/-- 48_host_stream R107, R108, R109, R114: what an encryptor answers when it is not with an I/O error. A write on a ready
core answers the bytes it took, and takes fewer than it was offered only if the sink has left ciphertext. A flush whose
pending bytes are delivered is misaligned if a partial block is buffered, which flushes nothing and leaves that block to
later calls, and otherwise passes the flush on; one whose pending bytes are not all taken is an underrun (log entry 10). A
close that succeeds has enciphered the padded buffer once, delivered every byte and flushed the sink once; a close on a
ready core whose bytes are not all taken is a short write. A call that does not succeed flushes nothing. -/
def Obligations.EncryptorAnswersFollowTheSink : Prop :=
  ∀ (cfg : Configuration) (e : Encryptor) (k : Sink), e.closed = false →
    let f := e.flush k
    let c := e.close cfg k
    (∀ input : List Byte, e.core.core.Ready → e.plain.length < 8 → e.context.saved = none →
      let w := e.write cfg k input
      w.sink.flushes = k.flushes ∧ (∀ x, w.result = .error x → ∃ y, x = .io y) ∧
      ∀ n, w.result = .ok n → n < input.length → w.enc.unsent ≠ []) ∧
    (f.result = .ok () → f.sink.flushes = k.flushes + 1) ∧
    (f.result ≠ .ok () → f.sink.flushes = k.flushes) ∧
    (f.enc.unsent = [] → e.plain ≠ [] → f.result = .error .misalignedFlush ∧
      f.sink.flushReplies = k.flushReplies ∧ f.enc = { e with unsent := [], blocked := false }) ∧
    (ioErrorTold f.result = none → f.result =
      if f.enc.unsent ≠ [] then .error .underrun else if e.plain ≠ [] then .error .misalignedFlush else .ok ()) ∧
    (e.context.saved = none →
      (c.result = .ok () → c.enc.unsent = [] ∧ c.sink.flushes = k.flushes + 1 ∧
        ∃ b, processBlock cfg .cbcEnc (pack (padded e.plain)) e.core = .next (b, c.enc.core) ∧
          c.sink.taken = k.taken ++ e.unsent ++ unpack b) ∧
      (c.result ≠ .ok () → c.sink.flushes = k.flushes) ∧
      (e.core.core.Ready → ioErrorTold c.result = none → c.result =
        if c.enc.unsent ≠ [] then .error .shortWrite else .ok ()))
end

