-- ==== Sys2Proof/Laws/Decode.lean ====
section
/-! SUPPORT. What the decoder can answer, said once: the cases of a command word, the row of an aligned descriptor, and
that a descriptor is its direction and offset. -/

namespace Sys2Proof

theorem wordIndex2_cases (i : BitVec 2) : i = 0#2 ∨ i = 1#2 ∨ i = 2#2 ∨ i = 3#2 := by
  revert i
  decide

theorem wordIndex1_cases (i : BitVec 1) : i = 0#1 ∨ i = 1#1 := by
  revert i
  decide

/-- A descriptor determines the direction and the offset. -/
theorem Transaction.descriptor_inj {t u : Transaction} (h : t.descriptor = u.descriptor) :
    t.write = u.write ∧ t.off = u.off := by
  have all : ∀ (a : Bool) (x : BitVec 6),
      (BitVec.ofBool a ++ x).getLsbD 6 = a ∧ (BitVec.ofBool a ++ x).extractLsb' 0 6 = x := by decide
  have hw := congrArg (fun d : BitVec 7 => d.getLsbD 6) h
  have ho := congrArg (fun d : BitVec 7 => d.extractLsb' 0 6) h
  exact ⟨(all _ _).1.symm.trans (hw.trans (all _ _).1), (all _ _).2.symm.trans (ho.trans (all _ _).2)⟩

/-- The low bits of a descriptor are those of the offset. -/
theorem Transaction.descriptor_low (t : Transaction) :
    t.descriptor.extractLsb' 0 2 = t.off.extractLsb' 0 2 := by
  have all : ∀ (a : Bool) (x : BitVec 6), (BitVec.ofBool a ++ x).extractLsb' 0 2 = x.extractLsb' 0 2 := by decide
  exact all t.write t.off

/-- A transaction of width 4 with an aligned offset is decoded by its descriptor alone, and its data. -/
theorem decodeBus_aligned {t : Transaction} (hw : t.width = 4) (ha : t.off.extractLsb' 0 2 = 0#2) :
    decodeBus t = decodeRow t.descriptor t.data := by
  simp [decodeBus, Transaction.widthOk, Transaction.aligned, hw, ha]

/-- What decodes has width 4 and an aligned offset. -/
theorem decodeBus_ok {t : Transaction} {i : Instr} (h : decodeBus t = .ok i) :
    t.width = 4 ∧ t.off.extractLsb' 0 2 = 0#2 ∧ decodeRow t.descriptor t.data = .ok i := by
  unfold decodeBus at h
  split at h
  · cases h
  · split at h
    · cases h
    · simp_all [Transaction.widthOk, Transaction.aligned]

/-- Every aligned descriptor is selected by a row, whose instruction is encoded with that descriptor; RD STATUS is the
row of 0x2C and of no other. -/
theorem decodeRow_aligned (d : BitVec 7) (v : Word) (h : d.extractLsb' 0 2 = 0#2) :
    ∃ i, decodeRow d v = .ok i ∧ (encode i).transaction.descriptor = d ∧ (i = .rdStatus ↔ d = 0x2C#7) := by
  have all : ∀ n : Fin 128, (BitVec.ofNat 7 n.1).extractLsb' 0 2 = 0#2 → ∃ i,
      decodeRow (BitVec.ofNat 7 n.1) v = .ok i ∧
        (encode i).transaction.descriptor = BitVec.ofNat 7 n.1 ∧ (i = .rdStatus ↔ BitVec.ofNat 7 n.1 = 0x2C#7) := by
    intro n
    unfold decodeRow
    fin_cases n <;>
      simp +decide [encode, Code.transaction, busRead32, busWrite32, Transaction.descriptor, keyOff, chainOff, dinOff,
        doutOff, reservedOff, cmdOff, statusOff, wordIndex2, wordIndex1]
  simpa using all ⟨d.toNat, d.isLt⟩ (by simpa using h)

/-- A 32-bit write is decoded by the row of its offset. -/
theorem decodeBus_wrKey (i : BitVec 2) (v : Word) : decodeBus (busWrite32 (keyOff i) v) = .ok (.wrKey i v) := by
  rcases wordIndex2_cases i with rfl | rfl | rfl | rfl <;>
    simp +decide [decodeBus, decodeRow, busWrite32, Transaction.descriptor, Transaction.widthOk, Transaction.aligned]

theorem decodeBus_wrChain (i : BitVec 1) (v : Word) : decodeBus (busWrite32 (chainOff i) v) = .ok (.wrChain i v) := by
  rcases wordIndex1_cases i with rfl | rfl <;>
    simp +decide [decodeBus, decodeRow, busWrite32, Transaction.descriptor, Transaction.widthOk, Transaction.aligned]

theorem decodeBus_wrDin (i : BitVec 1) (v : Word) : decodeBus (busWrite32 (dinOff i) v) = .ok (.wrDin i v) := by
  rcases wordIndex1_cases i with rfl | rfl <;>
    simp +decide [decodeBus, decodeRow, busWrite32, Transaction.descriptor, Transaction.widthOk, Transaction.aligned]

theorem decodeBus_wrCmd (c : Word) : decodeBus (busWrite32 cmdOff c) = .ok (.wrCmd c) := by
  simp +decide [decodeBus, decodeRow, busWrite32, Transaction.descriptor, Transaction.widthOk, Transaction.aligned]

theorem decodeBus_rdDout (i : BitVec 1) : decodeBus (busRead32 (doutOff i)) = .ok (.rdDout i) := by
  rcases wordIndex1_cases i with rfl | rfl <;> rfl

theorem decodeBus_rdStatus : decodeBus (busRead32 statusOff) = .ok .rdStatus := rfl

theorem decodeCommand_word (n : CommandName) : decodeCommand n.word = .ok n := by
  cases n <;> rfl

/-- The seven cases of a command word: a reserved bit, one of the five commands, or a reserved OP. -/
theorem decodeCommand_cases (c : Word) :
    (c.extractLsb' 4 28 ≠ 0#28 ∧ decodeCommand c = .error (.reservedBits c)) ∨
    (c.extractLsb' 4 28 = 0#28 ∧
      (((c.extractLsb' 0 4).toNat = 0 ∧ decodeCommand c = .ok .nop) ∨
       ((c.extractLsb' 0 4).toNat = 1 ∧ decodeCommand c = .ok .encipher) ∨
       ((c.extractLsb' 0 4).toNat = 2 ∧ decodeCommand c = .ok .decipher) ∨
       ((c.extractLsb' 0 4).toNat = 3 ∧ decodeCommand c = .ok .cbcEnc) ∨
       ((c.extractLsb' 0 4).toNat = 4 ∧ decodeCommand c = .ok .cbcDec) ∨
       (5 ≤ (c.extractLsb' 0 4).toNat ∧ decodeCommand c = .error (.reservedOp (c.extractLsb' 0 4))))) := by
  unfold decodeCommand
  by_cases h : c.extractLsb' 4 28 = 0#28
  · simp only [h]
    generalize c.extractLsb' 0 4 = x
    rcases Nat.lt_or_ge x.toNat 5 with h5 | h5
    · have : x.toNat = 0 ∨ x.toNat = 1 ∨ x.toNat = 2 ∨ x.toNat = 3 ∨ x.toNat = 4 := by omega
      rcases this with e | e | e | e | e <;> simp [e]
    · obtain ⟨n, hn⟩ := Nat.exists_eq_add_of_le' h5
      simp [hn]
  · simp [h]

end Sys2Proof
end

