-- ==== Sys2Proof/Laws/State.lean ====
section
/-! SUPPORT. One lemma per field per update of the state (Machine/Ops.lean): what the update writes, and that it leaves
every other field alone. Later proofs cite these and unfold no record update. -/

namespace Sys2Proof.Machine

@[simp] theorem State.setKeyWord_key (s : State) (i : BitVec 2) (v : Word) : (s.setKeyWord i v).key = s.key.setWord i v := rfl
@[simp] theorem State.setKeyWord_keyv (s : State) (i : BitVec 2) (v : Word) : (s.setKeyWord i v).keyv = markKeyWord s.keyv i := rfl
@[simp] theorem State.setKeyWord_chain (s : State) (i : BitVec 2) (v : Word) : (s.setKeyWord i v).chain = s.chain := rfl
@[simp] theorem State.setKeyWord_chv (s : State) (i : BitVec 2) (v : Word) : (s.setKeyWord i v).chv = s.chv := rfl
@[simp] theorem State.setKeyWord_din (s : State) (i : BitVec 2) (v : Word) : (s.setKeyWord i v).din = s.din := rfl
@[simp] theorem State.setKeyWord_dout (s : State) (i : BitVec 2) (v : Word) : (s.setKeyWord i v).dout = s.dout := rfl
@[simp] theorem State.setKeyWord_doutValid (s : State) (i : BitVec 2) (v : Word) : (s.setKeyWord i v).doutValid = s.doutValid := rfl
@[simp] theorem State.setKeyWord_busy (s : State) (i : BitVec 2) (v : Word) : (s.setKeyWord i v).busy = s.busy := rfl
@[simp] theorem State.setKeyWord_err (s : State) (i : BitVec 2) (v : Word) : (s.setKeyWord i v).err = s.err := rfl
@[simp] theorem State.setKeyWord_sticky (s : State) (i : BitVec 2) (v : Word) : (s.setKeyWord i v).sticky = s.sticky := rfl
@[simp] theorem State.setKeyWord_pending (s : State) (i : BitVec 2) (v : Word) : (s.setKeyWord i v).pending = s.pending := rfl
@[simp] theorem State.setKeyWord_schedule (s : State) (i : BitVec 2) (v : Word) : (s.setKeyWord i v).schedule = s.schedule := rfl
@[simp] theorem State.setKeyWord_reads (s : State) (i : BitVec 2) (v : Word) : (s.setKeyWord i v).reads = s.reads := rfl

@[simp] theorem State.setChainWord_key (s : State) (i : BitVec 1) (v : Word) : (s.setChainWord i v).key = s.key := rfl
@[simp] theorem State.setChainWord_keyv (s : State) (i : BitVec 1) (v : Word) : (s.setChainWord i v).keyv = s.keyv := rfl
@[simp] theorem State.setChainWord_chain (s : State) (i : BitVec 1) (v : Word) : (s.setChainWord i v).chain = s.chain.setWord i v := rfl
@[simp] theorem State.setChainWord_chv (s : State) (i : BitVec 1) (v : Word) : (s.setChainWord i v).chv = markChainWord s.chv i := rfl
@[simp] theorem State.setChainWord_din (s : State) (i : BitVec 1) (v : Word) : (s.setChainWord i v).din = s.din := rfl
@[simp] theorem State.setChainWord_dout (s : State) (i : BitVec 1) (v : Word) : (s.setChainWord i v).dout = s.dout := rfl
@[simp] theorem State.setChainWord_doutValid (s : State) (i : BitVec 1) (v : Word) : (s.setChainWord i v).doutValid = s.doutValid := rfl
@[simp] theorem State.setChainWord_busy (s : State) (i : BitVec 1) (v : Word) : (s.setChainWord i v).busy = s.busy := rfl
@[simp] theorem State.setChainWord_err (s : State) (i : BitVec 1) (v : Word) : (s.setChainWord i v).err = s.err := rfl
@[simp] theorem State.setChainWord_sticky (s : State) (i : BitVec 1) (v : Word) : (s.setChainWord i v).sticky = s.sticky := rfl
@[simp] theorem State.setChainWord_pending (s : State) (i : BitVec 1) (v : Word) : (s.setChainWord i v).pending = s.pending := rfl
@[simp] theorem State.setChainWord_schedule (s : State) (i : BitVec 1) (v : Word) : (s.setChainWord i v).schedule = s.schedule := rfl
@[simp] theorem State.setChainWord_reads (s : State) (i : BitVec 1) (v : Word) : (s.setChainWord i v).reads = s.reads := rfl

@[simp] theorem State.setDinWord_key (s : State) (i : BitVec 1) (v : Word) : (s.setDinWord i v).key = s.key := rfl
@[simp] theorem State.setDinWord_keyv (s : State) (i : BitVec 1) (v : Word) : (s.setDinWord i v).keyv = s.keyv := rfl
@[simp] theorem State.setDinWord_chain (s : State) (i : BitVec 1) (v : Word) : (s.setDinWord i v).chain = s.chain := rfl
@[simp] theorem State.setDinWord_chv (s : State) (i : BitVec 1) (v : Word) : (s.setDinWord i v).chv = s.chv := rfl
@[simp] theorem State.setDinWord_din (s : State) (i : BitVec 1) (v : Word) : (s.setDinWord i v).din = s.din.setWord i v := rfl
@[simp] theorem State.setDinWord_dout (s : State) (i : BitVec 1) (v : Word) : (s.setDinWord i v).dout = s.dout := rfl
@[simp] theorem State.setDinWord_doutValid (s : State) (i : BitVec 1) (v : Word) : (s.setDinWord i v).doutValid = s.doutValid := rfl
@[simp] theorem State.setDinWord_busy (s : State) (i : BitVec 1) (v : Word) : (s.setDinWord i v).busy = s.busy := rfl
@[simp] theorem State.setDinWord_err (s : State) (i : BitVec 1) (v : Word) : (s.setDinWord i v).err = s.err := rfl
@[simp] theorem State.setDinWord_sticky (s : State) (i : BitVec 1) (v : Word) : (s.setDinWord i v).sticky = s.sticky := rfl
@[simp] theorem State.setDinWord_pending (s : State) (i : BitVec 1) (v : Word) : (s.setDinWord i v).pending = s.pending := rfl
@[simp] theorem State.setDinWord_schedule (s : State) (i : BitVec 1) (v : Word) : (s.setDinWord i v).schedule = s.schedule := rfl
@[simp] theorem State.setDinWord_reads (s : State) (i : BitVec 1) (v : Word) : (s.setDinWord i v).reads = s.reads := rfl

@[simp] theorem State.clearSticky_key (s : State) : s.clearSticky.key = s.key := rfl
@[simp] theorem State.clearSticky_keyv (s : State) : s.clearSticky.keyv = s.keyv := rfl
@[simp] theorem State.clearSticky_chain (s : State) : s.clearSticky.chain = s.chain := rfl
@[simp] theorem State.clearSticky_chv (s : State) : s.clearSticky.chv = s.chv := rfl
@[simp] theorem State.clearSticky_din (s : State) : s.clearSticky.din = s.din := rfl
@[simp] theorem State.clearSticky_dout (s : State) : s.clearSticky.dout = s.dout := rfl
@[simp] theorem State.clearSticky_doutValid (s : State) : s.clearSticky.doutValid = s.doutValid := rfl
@[simp] theorem State.clearSticky_busy (s : State) : s.clearSticky.busy = s.busy := rfl
@[simp] theorem State.clearSticky_err (s : State) : s.clearSticky.err = s.err := rfl
@[simp] theorem State.clearSticky_sticky (s : State) : s.clearSticky.sticky = false := rfl
@[simp] theorem State.clearSticky_pending (s : State) : s.clearSticky.pending = s.pending := rfl
@[simp] theorem State.clearSticky_schedule (s : State) : s.clearSticky.schedule = s.schedule := rfl
@[simp] theorem State.clearSticky_reads (s : State) : s.clearSticky.reads = s.reads := rfl

@[simp] theorem State.clearErr_key (s : State) : s.clearErr.key = s.key := rfl
@[simp] theorem State.clearErr_keyv (s : State) : s.clearErr.keyv = s.keyv := rfl
@[simp] theorem State.clearErr_chain (s : State) : s.clearErr.chain = s.chain := rfl
@[simp] theorem State.clearErr_chv (s : State) : s.clearErr.chv = s.chv := rfl
@[simp] theorem State.clearErr_din (s : State) : s.clearErr.din = s.din := rfl
@[simp] theorem State.clearErr_dout (s : State) : s.clearErr.dout = s.dout := rfl
@[simp] theorem State.clearErr_doutValid (s : State) : s.clearErr.doutValid = s.doutValid := rfl
@[simp] theorem State.clearErr_busy (s : State) : s.clearErr.busy = s.busy := rfl
@[simp] theorem State.clearErr_err (s : State) : s.clearErr.err = errNone := rfl
@[simp] theorem State.clearErr_sticky (s : State) : s.clearErr.sticky = s.sticky := rfl
@[simp] theorem State.clearErr_pending (s : State) : s.clearErr.pending = s.pending := rfl
@[simp] theorem State.clearErr_schedule (s : State) : s.clearErr.schedule = s.schedule := rfl
@[simp] theorem State.clearErr_reads (s : State) : s.clearErr.reads = s.reads := rfl

@[simp] theorem State.refuseCommand_key (s : State) (e : CommandError) : (s.refuseCommand e).key = s.key := rfl
@[simp] theorem State.refuseCommand_keyv (s : State) (e : CommandError) : (s.refuseCommand e).keyv = s.keyv := rfl
@[simp] theorem State.refuseCommand_chain (s : State) (e : CommandError) : (s.refuseCommand e).chain = s.chain := rfl
@[simp] theorem State.refuseCommand_chv (s : State) (e : CommandError) : (s.refuseCommand e).chv = s.chv := rfl
@[simp] theorem State.refuseCommand_din (s : State) (e : CommandError) : (s.refuseCommand e).din = s.din := rfl
@[simp] theorem State.refuseCommand_dout (s : State) (e : CommandError) : (s.refuseCommand e).dout = s.dout := rfl
@[simp] theorem State.refuseCommand_doutValid (s : State) (e : CommandError) : (s.refuseCommand e).doutValid = s.doutValid := rfl
@[simp] theorem State.refuseCommand_busy (s : State) (e : CommandError) : (s.refuseCommand e).busy = s.busy := rfl
@[simp] theorem State.refuseCommand_err (s : State) (e : CommandError) : (s.refuseCommand e).err = e.code := rfl
@[simp] theorem State.refuseCommand_sticky (s : State) (e : CommandError) : (s.refuseCommand e).sticky = true := rfl
@[simp] theorem State.refuseCommand_pending (s : State) (e : CommandError) : (s.refuseCommand e).pending = s.pending := rfl
@[simp] theorem State.refuseCommand_schedule (s : State) (e : CommandError) : (s.refuseCommand e).schedule = s.schedule := rfl
@[simp] theorem State.refuseCommand_reads (s : State) (e : CommandError) : (s.refuseCommand e).reads = s.reads := rfl

@[simp] theorem State.accept_key (s : State) (op : Op) : (s.accept op).key = s.key := rfl
@[simp] theorem State.accept_keyv (s : State) (op : Op) : (s.accept op).keyv = s.keyv := rfl
@[simp] theorem State.accept_chain (s : State) (op : Op) : (s.accept op).chain = s.chain := rfl
@[simp] theorem State.accept_chv (s : State) (op : Op) : (s.accept op).chv = s.chv := rfl
@[simp] theorem State.accept_din (s : State) (op : Op) : (s.accept op).din = s.din := rfl
@[simp] theorem State.accept_dout (s : State) (op : Op) : (s.accept op).dout = s.dout := rfl
@[simp] theorem State.accept_doutValid (s : State) (op : Op) : (s.accept op).doutValid = false := rfl
@[simp] theorem State.accept_busy (s : State) (op : Op) : (s.accept op).busy = true := rfl
@[simp] theorem State.accept_err (s : State) (op : Op) : (s.accept op).err = errNone := rfl
@[simp] theorem State.accept_sticky (s : State) (op : Op) : (s.accept op).sticky = s.sticky := rfl
@[simp] theorem State.accept_pending (s : State) (op : Op) : (s.accept op).pending = some ⟨op, s.key, s.chain, s.din⟩ := rfl
@[simp] theorem State.accept_schedule (s : State) (op : Op) : (s.accept op).schedule = s.schedule := rfl
@[simp] theorem State.accept_reads (s : State) (op : Op) : (s.accept op).reads = s.reads := rfl

@[simp] theorem State.finish_key (s : State) (r c : Block) : (s.finish r c).key = s.key := rfl
@[simp] theorem State.finish_keyv (s : State) (r c : Block) : (s.finish r c).keyv = s.keyv := rfl
@[simp] theorem State.finish_chain (s : State) (r c : Block) : (s.finish r c).chain = c := rfl
@[simp] theorem State.finish_chv (s : State) (r c : Block) : (s.finish r c).chv = s.chv := rfl
@[simp] theorem State.finish_din (s : State) (r c : Block) : (s.finish r c).din = s.din := rfl
@[simp] theorem State.finish_dout (s : State) (r c : Block) : (s.finish r c).dout = r := rfl
@[simp] theorem State.finish_doutValid (s : State) (r c : Block) : (s.finish r c).doutValid = true := rfl
@[simp] theorem State.finish_busy (s : State) (r c : Block) : (s.finish r c).busy = false := rfl
@[simp] theorem State.finish_err (s : State) (r c : Block) : (s.finish r c).err = s.err := rfl
@[simp] theorem State.finish_sticky (s : State) (r c : Block) : (s.finish r c).sticky = s.sticky := rfl
@[simp] theorem State.finish_pending (s : State) (r c : Block) : (s.finish r c).pending = none := rfl
@[simp] theorem State.finish_schedule (s : State) (r c : Block) : (s.finish r c).schedule = s.schedule := rfl
@[simp] theorem State.finish_reads (s : State) (r c : Block) : (s.finish r c).reads = s.reads := rfl

@[simp] theorem State.recordRead_key (s : State) (off : Offset) (v : Word) : (s.recordRead off v).key = s.key := rfl
@[simp] theorem State.recordRead_keyv (s : State) (off : Offset) (v : Word) : (s.recordRead off v).keyv = s.keyv := rfl
@[simp] theorem State.recordRead_chain (s : State) (off : Offset) (v : Word) : (s.recordRead off v).chain = s.chain := rfl
@[simp] theorem State.recordRead_chv (s : State) (off : Offset) (v : Word) : (s.recordRead off v).chv = s.chv := rfl
@[simp] theorem State.recordRead_din (s : State) (off : Offset) (v : Word) : (s.recordRead off v).din = s.din := rfl
@[simp] theorem State.recordRead_dout (s : State) (off : Offset) (v : Word) : (s.recordRead off v).dout = s.dout := rfl
@[simp] theorem State.recordRead_doutValid (s : State) (off : Offset) (v : Word) : (s.recordRead off v).doutValid = s.doutValid := rfl
@[simp] theorem State.recordRead_busy (s : State) (off : Offset) (v : Word) : (s.recordRead off v).busy = s.busy := rfl
@[simp] theorem State.recordRead_err (s : State) (off : Offset) (v : Word) : (s.recordRead off v).err = s.err := rfl
@[simp] theorem State.recordRead_sticky (s : State) (off : Offset) (v : Word) : (s.recordRead off v).sticky = s.sticky := rfl
@[simp] theorem State.recordRead_pending (s : State) (off : Offset) (v : Word) : (s.recordRead off v).pending = s.pending := rfl
@[simp] theorem State.recordRead_schedule (s : State) (off : Offset) (v : Word) : (s.recordRead off v).schedule = s.schedule := rfl
@[simp] theorem State.recordRead_reads (s : State) (off : Offset) (v : Word) : (s.recordRead off v).reads = s.reads ++ [⟨off, v⟩] := rfl

@[simp] theorem State.withSchedule_key (s : State) (l : List Event) : (s.withSchedule l).key = s.key := rfl
@[simp] theorem State.withSchedule_keyv (s : State) (l : List Event) : (s.withSchedule l).keyv = s.keyv := rfl
@[simp] theorem State.withSchedule_chain (s : State) (l : List Event) : (s.withSchedule l).chain = s.chain := rfl
@[simp] theorem State.withSchedule_chv (s : State) (l : List Event) : (s.withSchedule l).chv = s.chv := rfl
@[simp] theorem State.withSchedule_din (s : State) (l : List Event) : (s.withSchedule l).din = s.din := rfl
@[simp] theorem State.withSchedule_dout (s : State) (l : List Event) : (s.withSchedule l).dout = s.dout := rfl
@[simp] theorem State.withSchedule_doutValid (s : State) (l : List Event) : (s.withSchedule l).doutValid = s.doutValid := rfl
@[simp] theorem State.withSchedule_busy (s : State) (l : List Event) : (s.withSchedule l).busy = s.busy := rfl
@[simp] theorem State.withSchedule_err (s : State) (l : List Event) : (s.withSchedule l).err = s.err := rfl
@[simp] theorem State.withSchedule_sticky (s : State) (l : List Event) : (s.withSchedule l).sticky = s.sticky := rfl
@[simp] theorem State.withSchedule_pending (s : State) (l : List Event) : (s.withSchedule l).pending = s.pending := rfl
@[simp] theorem State.withSchedule_schedule (s : State) (l : List Event) : (s.withSchedule l).schedule = l := rfl
@[simp] theorem State.withSchedule_reads (s : State) (l : List Event) : (s.withSchedule l).reads = s.reads := rfl

@[simp] theorem State.resetCore_key (s : State) : s.resetCore.key = ⟨0#32, 0#32, 0#32, 0#32⟩ := rfl
@[simp] theorem State.resetCore_keyv (s : State) : s.resetCore.keyv = 0b0000#4 := rfl
@[simp] theorem State.resetCore_chain (s : State) : s.resetCore.chain = ⟨0#32, 0#32⟩ := rfl
@[simp] theorem State.resetCore_chv (s : State) : s.resetCore.chv = 0b00#2 := rfl
@[simp] theorem State.resetCore_din (s : State) : s.resetCore.din = ⟨0#32, 0#32⟩ := rfl
@[simp] theorem State.resetCore_dout (s : State) : s.resetCore.dout = ⟨0#32, 0#32⟩ := rfl
@[simp] theorem State.resetCore_doutValid (s : State) : s.resetCore.doutValid = false := rfl
@[simp] theorem State.resetCore_busy (s : State) : s.resetCore.busy = false := rfl
@[simp] theorem State.resetCore_err (s : State) : s.resetCore.err = 0x0#4 := rfl
@[simp] theorem State.resetCore_sticky (s : State) : s.resetCore.sticky = false := rfl
@[simp] theorem State.resetCore_pending (s : State) : s.resetCore.pending = none := rfl
@[simp] theorem State.resetCore_schedule (s : State) : s.resetCore.schedule = s.schedule := rfl
@[simp] theorem State.resetCore_reads (s : State) : s.resetCore.reads = s.reads := rfl

end Sys2Proof.Machine
end

