-- ==== Sys2Proof/Laws/Ops.lean ====
section
/-! SUPPORT. For each shared operation, one lemma that says everything it can do, and the inversion lemmas of `exec`
and `step`: what a next state can be. -/

namespace Sys2Proof.Machine

/-! ### The guard and the two access shapes -/

theorem guardIdle_idle {s : State} (h : s.busy = false) (off : Offset) (w : Bool) (k : Answer) :
    guardIdle off w s k = k := by simp [guardIdle, h]

theorem guardIdle_busy {s : State} (h : s.busy = true) (off : Offset) (w : Bool) (k : Answer) :
    guardIdle off w s k = .fault (.hazard off w) := by simp [guardIdle, h]

/-- An access under the guard goes on exactly when BUSY is 0 and the access itself goes on. -/
theorem guardIdle_eq_next {s t : State} {off : Offset} {w : Bool} {k : Answer} :
    guardIdle off w s k = .next t ↔ s.busy = false ∧ k = .next t := by
  unfold guardIdle
  split <;> simp_all

theorem readRegister_eq_next {s t : State} {off : Offset} {v : Word} :
    readRegister off v s = .next t ↔ s.busy = false ∧ s.recordRead off v = t := by
  simp [readRegister, guardIdle_eq_next]

theorem writeRegister_eq_next {s s' t : State} {off : Offset} :
    writeRegister off s' s = .next t ↔ s.busy = false ∧ s' = t := by
  simp [writeRegister, guardIdle_eq_next]

theorem readRegister_idle {s : State} (h : s.busy = false) (off : Offset) (v : Word) :
    readRegister off v s = .next (s.recordRead off v) := guardIdle_idle h ..

theorem writeRegister_idle {s : State} (h : s.busy = false) (off : Offset) (s' : State) :
    writeRegister off s' s = .next s' := guardIdle_idle h ..

/-! ### The command decoder -/

/-- The three outcomes of the checks of 60_exceptions R121 to R123. -/
theorem commandRefusal_cases (op : Op) (s : State) :
    (s.keyv ≠ 0b1111#4 ∧ commandRefusal op s = some .keyNotLoaded) ∨
    (s.keyv = 0b1111#4 ∧ op.needsChain = true ∧ s.chv ≠ 0b11#2 ∧ commandRefusal op s = some .chainNotLoaded) ∨
    (s.keyv = 0b1111#4 ∧ (op.needsChain = true → s.chv = 0b11#2) ∧ commandRefusal op s = none) := by
  by_cases hk : s.keyv = 0b1111#4 <;> by_cases hn : op.needsChain = true <;> by_cases hc : s.chv = 0b11#2 <;>
    simp [commandRefusal, keyLoaded, chainLoaded, hk, hn, hc]

/-- A cipher command at the decoder is refused for its key, refused for its chain, or accepted. -/
theorem presentCommand_cases (op : Op) (s : State) :
    (s.keyv ≠ 0b1111#4 ∧ presentCommand op s = s.refuseCommand .keyNotLoaded) ∨
    (s.keyv = 0b1111#4 ∧ op.needsChain = true ∧ s.chv ≠ 0b11#2 ∧
      presentCommand op s = s.refuseCommand .chainNotLoaded) ∨
    (s.keyv = 0b1111#4 ∧ (op.needsChain = true → s.chv = 0b11#2) ∧ presentCommand op s = s.accept op) := by
  rcases commandRefusal_cases op s with ⟨h, e⟩ | ⟨h, hn, hc, e⟩ | ⟨h, hn, e⟩
  · exact .inl ⟨h, by simp [presentCommand, e]⟩
  · exact .inr (.inl ⟨h, hn, hc, by simp [presentCommand, e]⟩)
  · exact .inr (.inr ⟨h, hn, by simp [presentCommand, e]⟩)

/-! ### The engine -/

/-- A completion finishes the command; it writes CHAIN only for a command that reads it. -/
theorem completePending_cases (cfg : Configuration) (p : Pending) (s : State) :
    ∃ r c, completePending cfg p s = s.finish r c ∧ (p.op.needsChain = false → c = s.chain) := by
  rcases p with ⟨op, k, ch, d⟩
  cases op <;> exact ⟨_, _, rfl, by simp [Op.needsChain]⟩

/-- A turn of the engine finishes the pending command, or changes nothing. -/
theorem engineTurn_cases (cfg : Configuration) (s : State) :
    (s.pending = none ∧ engineTurn cfg s = s) ∨
    ∃ p r c, s.pending = some p ∧ engineTurn cfg s = s.finish r c ∧ (p.op.needsChain = false → c = s.chain) := by
  cases h : s.pending with
  | none => exact .inl ⟨rfl, by simp [engineTurn, h]⟩
  | some p =>
    obtain ⟨r, c, e, hc⟩ := completePending_cases cfg p s
    exact .inr ⟨p, r, c, rfl, by simp [engineTurn, h, e], hc⟩

/-! ### The states an instruction or a step can give -/

/-- What a next state of an instruction can be. -/
inductive Effect (s : State) : Instr → State → Prop where
  | read (i off v) : Effect s i (s.recordRead off v)
  | noError : s.busy = false → Effect s .nop s.clearErr
  | noErrorByWrite (c) : s.busy = false → Effect s (.wrCmd c) s.clearErr
  | refuse (i e) : s.busy = false → (e = .chainNotLoaded → s.keyv = 0b1111#4) →
      Effect s i (s.refuseCommand e)
  | accept (i op) : s.busy = false → s.keyv = 0b1111#4 → (op.needsChain = true → s.chv = 0b11#2) →
      Effect s i (s.accept op)
  | key (i v) : s.busy = false → Effect s (.wrKey i v) (s.setKeyWord i v)
  | chain (i v) : s.busy = false → Effect s (.wrChain i v) (s.setChainWord i v)
  | din (i v) : s.busy = false → Effect s (.wrDin i v) (s.setDinWord i v)
  | sticky (v) : s.busy = false → Effect s (.wrStatus v) s.clearSticky
  | status (v) : s.busy = false → Effect s (.wrStatus v) s

theorem Effect.ofPresent {s t : State} {off : Offset} (i : Instr) (op : Op)
    (h : writeRegister off (presentCommand op s) s = .next t) : Effect s i t := by
  obtain ⟨hb, rfl⟩ := writeRegister_eq_next.1 h
  rcases presentCommand_cases op s with ⟨_, e⟩ | ⟨hk, _, _, e⟩ | ⟨hk, hc, e⟩ <;> rw [e]
  · exact .refuse _ _ hb (by simp)
  · exact .refuse _ _ hb fun _ => hk
  · exact .accept _ _ hb hk hc

/-- The inversion lemma of `exec`: a next state is one of the effects. -/
theorem exec_effect {i : Instr} {s t : State} (h : exec i s = .next t) : Effect s i t := by
  cases i with
  | nop =>
    obtain ⟨hb, rfl⟩ := writeRegister_eq_next.1 h
    exact .noError hb
  | encipher => exact .ofPresent _ _ h
  | decipher => exact .ofPresent _ _ h
  | cbcEnc => exact .ofPresent _ _ h
  | cbcDec => exact .ofPresent _ _ h
  | rdKey | rdChain | rdDin | rdDout | rdCmd =>
    obtain ⟨_, rfl⟩ := readRegister_eq_next.1 h
    exact .read ..
  | rdStatus =>
    cases h
    exact .read ..
  | rdReserved | wrDout | wrReserved =>
    exact absurd (guardIdle_eq_next.1 h).2 (by simp [raiseBusError])
  | wrKey | wrChain | wrDin =>
    obtain ⟨hb, rfl⟩ := writeRegister_eq_next.1 h
    constructor
    exact hb
  | wrCmd c =>
    replace h : execWrCmd c s = .next t := h
    unfold execWrCmd at h
    split at h
    · obtain ⟨hb, rfl⟩ := writeRegister_eq_next.1 h
      exact .noErrorByWrite _ hb
    · exact .ofPresent _ _ h
    · exact .ofPresent _ _ h
    · exact .ofPresent _ _ h
    · exact .ofPresent _ _ h
    · obtain ⟨hb, rfl⟩ := writeRegister_eq_next.1 h
      exact .refuse _ _ hb (by simp)
  | wrStatus v =>
    obtain ⟨hb, e⟩ := writeRegister_eq_next.1 h
    by_cases hv : clearsSticky v = true
    · rw [if_pos hv] at e
      exact e ▸ .sticky v hb
    · rw [if_neg hv] at e
      exact e ▸ .status v hb

/-- A transaction that goes on is one that decodes, and then the instruction goes on. -/
theorem hostTurn_eq_next {t : Transaction} {s u : State} :
    hostTurn t s = .next u ↔ ∃ i, decodeBus t = .ok i ∧ exec i s = .next u := by
  unfold hostTurn
  split <;> simp_all [raiseBusError]

/-- The inversion lemma of the step of a configuration: what a next state can be, by the event at the head of the
schedule. -/
theorem stepWith_cases {cfg : Configuration} {s u : State} (h : stepWith cfg s = .next u) :
    (s.schedule = [] ∧ u = engineTurn cfg s) ∨
    (∃ rest, s.schedule = .engine :: rest ∧ u = engineTurn cfg (s.withSchedule rest)) ∨
    (∃ rest, s.schedule = .reset :: rest ∧ u = (s.withSchedule rest).resetCore) ∨
    ∃ t rest i, s.schedule = .host t :: rest ∧ decodeBus t = .ok i ∧ Effect (s.withSchedule rest) i u := by
  unfold stepWith at h
  split at h
  next hs =>
    cases h
    exact .inl ⟨hs, rfl⟩
  next e rest hs =>
    cases e with
    | host t =>
      obtain ⟨i, hd, hx⟩ := hostTurn_eq_next.1 h
      exact .inr (.inr (.inr ⟨t, rest, i, hs, hd, exec_effect hx⟩))
    | engine =>
      cases h
      exact .inr (.inl ⟨rest, hs, rfl⟩)
    | reset =>
      cases h
      exact .inr (.inr (.inl ⟨rest, hs, rfl⟩))

/-- The same of the machine behind the host's interface. -/
theorem step_cases {s u : State} (h : step s = .next u) :
    (s.schedule = [] ∧ u = engineTurn Config.standard s) ∨
    (∃ rest, s.schedule = .engine :: rest ∧ u = engineTurn Config.standard (s.withSchedule rest)) ∨
    (∃ rest, s.schedule = .reset :: rest ∧ u = (s.withSchedule rest).resetCore) ∨
    ∃ t rest i, s.schedule = .host t :: rest ∧ decodeBus t = .ok i ∧ Effect (s.withSchedule rest) i u :=
  stepWith_cases h

end Sys2Proof.Machine
end

