-- ==== Sys2Proof/Laws/Host.lean ====
section
/-! SUPPORT. The host's side over the core: what each transaction of a host program does on an idle core, and what one
CBC block of a stream does, with any number of polls, so that proofs about programs and streams unfold no step. -/

namespace Sys2Proof.Machine

variable {cfg : Configuration}

@[simp] theorem andThen_next {σ τ φ ρ : Type} (s : σ) (k : σ → Host.Outcome τ φ ρ) :
    andThen (.next s) k = k s := rfl

@[simp] theorem deliverAll_nil (s : State) : deliverAll cfg [] s = .next s := rfl

@[simp] theorem deliverAll_cons (e : Event) (es : List Event) (s : State) :
    deliverAll cfg (e :: es) s = andThen (deliver cfg e s) (deliverAll cfg es) := rfl

theorem deliver_host {t : Transaction} {i : Instr} (h : decodeBus t = .ok i) (s : State) :
    deliver cfg (.host t) s = exec i s := by simp [deliver, hostTurn, h]

theorem deliver_wrKey {s : State} (h : s.busy = false) (i : BitVec 2) (v : Word) :
    deliver cfg (.host (busWrite32 (keyOff i) v)) s = .next (s.setKeyWord i v) :=
  (deliver_host (decodeBus_wrKey i v) s).trans (writeRegister_idle h ..)

theorem deliver_wrChain {s : State} (h : s.busy = false) (i : BitVec 1) (v : Word) :
    deliver cfg (.host (busWrite32 (chainOff i) v)) s = .next (s.setChainWord i v) :=
  (deliver_host (decodeBus_wrChain i v) s).trans (writeRegister_idle h ..)

theorem deliver_wrDin {s : State} (h : s.busy = false) (i : BitVec 1) (v : Word) :
    deliver cfg (.host (busWrite32 (dinOff i) v)) s = .next (s.setDinWord i v) :=
  (deliver_host (decodeBus_wrDin i v) s).trans (writeRegister_idle h ..)

theorem deliver_rdDout {s : State} (h : s.busy = false) (i : BitVec 1) :
    deliver cfg (.host (busRead32 (doutOff i))) s = .next (s.recordRead (doutOff i) (s.dout.word i)) :=
  (deliver_host (decodeBus_rdDout i) s).trans (readRegister_idle h ..)

theorem deliver_rdStatus (s : State) :
    deliver cfg (.host (busRead32 statusOff)) s = .next (s.recordRead statusOff (statusWord s)) := rfl

theorem deliver_engine (s : State) : deliver cfg .engine s = .next (engineTurn cfg s) := rfl

/-- A CBC command presented to a ready core is accepted. -/
theorem presentCommand_ready {s : State} (h : s.Ready) (op : Op) : presentCommand op s = s.accept op := by
  rcases presentCommand_cases op s with ⟨a, _⟩ | ⟨_, _, a, _⟩ | ⟨_, _, e⟩
  · exact absurd h.keyAll a
  · exact absurd h.chainAll a
  · exact e

theorem deliver_cbcEnc {s : State} (h : s.Ready) :
    deliver cfg (.host (busWrite32 cmdOff CommandName.cbcEnc.word)) s = .next (s.accept .cbcEnc) := by
  rw [deliver_host (decodeBus_wrCmd _)]
  simp only [exec, execWrCmd, decodeCommand_word, execCbcEnc, writeRegister_idle h.notBusy, presentCommand_ready h]

theorem deliver_cbcDec {s : State} (h : s.Ready) :
    deliver cfg (.host (busWrite32 cmdOff CommandName.cbcDec.word)) s = .next (s.accept .cbcDec) := by
  rw [deliver_host (decodeBus_wrCmd _)]
  simp only [exec, execWrCmd, decodeCommand_word, execCbcDec, writeRegister_idle h.notBusy, presentCommand_ready h]

/-- The value of the last read of an offset, after one more read. -/
theorem lastRead_append (off : Offset) (rs : List ReadRecord) (r : ReadRecord) :
    lastRead off (rs ++ [r]) = if r.off = off then some r.value else lastRead off rs := by
  unfold lastRead
  rw [List.filter_append]
  by_cases h : r.off = off <;> simp [h]

/-- A STATUS read of a host does nothing but record the status word. -/
theorem deliverAll_polls (n : Nat) (es : List Event) (s : State) :
    deliverAll cfg (List.replicate n (.host (busRead32 statusOff)) ++ es) s =
      deliverAll cfg es { s with reads := s.reads ++ List.replicate n ⟨statusOff, statusWord s⟩ } := by
  induction n generalizing s with
  | zero => simp
  | succ n ih =>
    rw [List.replicate_succ, List.cons_append, deliverAll_cons, deliver_rdStatus, andThen_next, ih]
    simp [State.recordRead, statusWord, List.replicate_succ]

/-- The last reads of a host that has just read STATUS, DOUT0 and DOUT1. -/
theorem readBlock_recordRead (s : State) (a b c : Word) :
    readBlock (((s.recordRead statusOff a).recordRead (doutOff 0#1) b).recordRead (doutOff 1#1) c) = ⟨b, c⟩ := by
  have h10 : doutOff 1#1 ≠ doutOff 0#1 := by decide
  simp only [readBlock, readPair, State.recordRead_reads, lastRead_append, h10, if_false, if_true, Option.getD_some]

/-- The last reads of a host that has just read CHAIN0 and CHAIN1. -/
theorem readChain_recordRead (s : State) (b c : Word) :
    readChain ((s.recordRead (chainOff 0#1) b).recordRead (chainOff 1#1) c) = ⟨b, c⟩ := by
  have h10 : chainOff 1#1 ≠ chainOff 0#1 := by decide
  simp only [readChain, readPair, State.recordRead_reads, lastRead_append, h10, if_false, if_true, Option.getD_some]

/-- What one block of a stream leaves of a driven core whose command answered and left the chain `c`: the same key and
flags, the new chain, and one wait less to come. -/
structure BlockDone (d e : Driven) (c : Block) : Prop where
  ready : e.core.Ready
  key : e.core.key = d.core.key
  chain : e.core.chain = c
  polls : e.polls = d.polls.tail

/-- `ldblk b ; run n ; getout` on a ready core that accepts the command: whatever the host polls, the engine's turn comes,
and the host reads the block it leaves in DOUT. -/
theorem processBlock_accepted {n : CommandName} {op : Op} {d : Driven} {b r c : Block} (h : d.core.Ready)
    (ha : ∀ s : State, s.Ready → deliver cfg (.host (busWrite32 cmdOff n.word)) s = .next (s.accept op))
    (he : ∀ s : State, s.pending = some ⟨op, d.core.key, d.core.chain, b⟩ → engineTurn cfg s = s.finish r c) :
    ∃ e, processBlock cfg n b d = .next (r, e) ∧ BlockDone d e c := by
  obtain ⟨hb, hk, hc⟩ := h
  have hr : ((d.core.setDinWord 0#1 b.w0).setDinWord 1#1 b.w1).Ready := ⟨hb, hk, hc⟩
  suffices hs : ∃ t : State, processBlock cfg n b d = .next (r, ⟨t, d.polls.tail⟩) ∧
      t.Ready ∧ t.key = d.core.key ∧ t.chain = c by
    obtain ⟨t, h, hr, hk, hc⟩ := hs
    exact ⟨⟨t, _⟩, h, hr, hk, hc, rfl⟩
  refine ⟨?t, ?run, ?ready, ?key, ?chain⟩
  case run =>
    simp only [processBlock, assemble, List.flatMap_cons, List.flatMap_nil, Stmt.expand, issueWrite, issueRead,
      RegName.off, List.cons_append, List.nil_append, eventsOf, deliverAll_cons]
    rw [deliver_wrDin hb, andThen_next, deliverAll_cons, deliver_wrDin (by exact hb), andThen_next, deliverAll_cons,
      ha _ hr, andThen_next, deliverAll_polls, deliverAll_cons, deliver_engine, he _ (by exact rfl),
      andThen_next, deliverAll_cons, deliver_rdStatus, andThen_next, deliverAll_cons, deliver_rdDout rfl, andThen_next,
      deliverAll_cons, deliver_rdDout rfl, andThen_next, deliverAll_nil, andThen_next]
    exact congrArg (fun q => Host.Outcome.next (q, _)) (readBlock_recordRead _ _ _ _)
  all_goals first | exact ⟨rfl, hk, hc⟩ | rfl

/-- One CBC_ENC block on a ready core: the host reads the ciphertext of the step function, and CHAIN is that block. -/
theorem processBlock_cbcEnc {d : Driven} (h : d.core.Ready) (b : Block) :
    ∃ e, processBlock cfg .cbcEnc b d = .next ((encryptStep cfg.variant d.core.key b d.core.chain).1, e) ∧
      BlockDone d e (encryptStep cfg.variant d.core.key b d.core.chain).2 :=
  processBlock_accepted h (fun _ hs => deliver_cbcEnc hs) fun _ hp => by simp [engineTurn, hp, completePending]

/-- One CBC_DEC block on a ready core: the host reads the plaintext of the step function, and CHAIN is the ciphertext
block consumed. -/
theorem processBlock_cbcDec {d : Driven} (h : d.core.Ready) (b : Block) :
    ∃ e, processBlock cfg .cbcDec b d = .next ((decryptStep cfg.variant d.core.key b d.core.chain).1, e) ∧
      BlockDone d e (decryptStep cfg.variant d.core.key b d.core.chain).2 :=
  processBlock_accepted h (fun _ hs => deliver_cbcDec hs) fun _ hp => by simp [engineTurn, hp, completePending]

end Sys2Proof.Machine
end

