-- ==== Sys2Proof/Laws/PerInstr.lean ====
section
/-! SUPPORT. A statement made instruction by instruction: the encoding of an instruction is selected by exactly one
row of the opcode table, its own. The table is written out here again, from spec/opcode_table.json, apart from the decoder. -/

namespace Sys2Proof.Laws.RowBits

/-- A row of spec/opcode_table.json: its format, its match and its mask. -/
inductive Row where
  | cmd (mnemonic : String) (mtch mask : Word)
  | bus (mnemonic : String) (mtch mask : BitVec 7)
  deriving DecidableEq, Repr

/-- The 19 rows, in the table's order. -/
def table : List Row :=
  [.cmd "NOP" 0x00000000#32 0xFFFFFFFF#32, .cmd "ENCIPHER" 0x00000001#32 0xFFFFFFFF#32,
   .cmd "DECIPHER" 0x00000002#32 0xFFFFFFFF#32, .cmd "CBC_ENC" 0x00000003#32 0xFFFFFFFF#32,
   .cmd "CBC_DEC" 0x00000004#32 0xFFFFFFFF#32] ++
  [.bus "RD_KEYi" 0x00#7 0x73#7, .bus "RD_CHAINi" 0x10#7 0x7B#7, .bus "RD_DINi" 0x18#7 0x7B#7,
   .bus "RD_DOUTi" 0x20#7 0x7B#7, .bus "RD_CMD" 0x28#7 0x7F#7, .bus "RD_STATUS" 0x2C#7 0x7F#7,
   .bus "RD_reserved" 0x30#7 0x73#7] ++
  [.bus "WR_KEYi" 0x40#7 0x73#7, .bus "WR_CHAINi" 0x50#7 0x7B#7, .bus "WR_DINi" 0x58#7 0x7B#7,
   .bus "WR_DOUTi" 0x60#7 0x7B#7, .bus "WR_CMD" 0x68#7 0x7F#7, .bus "WR_STATUS" 0x6C#7 0x7F#7,
   .bus "WR_reserved" 0x70#7 0x73#7]

/-- Whether a row selects an encoded instruction: the formats agree, and the bits under the mask are the match. -/
def Row.selects : Row → Code → Bool
  | .cmd _ m k, .cmd c => c &&& k == m
  | .bus _ m k, .bus t => t.descriptor &&& k == m
  | _, _ => false

/-- The mnemonic of a row. -/
def Row.mnemonic : Row → String
  | .cmd n _ _ => n
  | .bus n _ _ => n

/-- The mnemonic of an instruction, as the table spells it. -/
def mnemonicOf : Instr → String
  | .nop => "NOP"
  | .encipher => "ENCIPHER"
  | .decipher => "DECIPHER"
  | .cbcEnc => "CBC_ENC"
  | .cbcDec => "CBC_DEC"
  | .rdKey _ => "RD_KEYi"
  | .rdChain _ => "RD_CHAINi"
  | .rdDin _ => "RD_DINi"
  | .rdDout _ => "RD_DOUTi"
  | .rdCmd => "RD_CMD"
  | .rdStatus => "RD_STATUS"
  | .rdReserved _ => "RD_reserved"
  | .wrKey _ _ => "WR_KEYi"
  | .wrChain _ _ => "WR_CHAINi"
  | .wrDin _ _ => "WR_DINi"
  | .wrDout _ _ => "WR_DOUTi"
  | .wrCmd _ => "WR_CMD"
  | .wrStatus _ => "WR_STATUS"
  | .wrReserved _ _ => "WR_reserved"

/-- The rows that select a code, by mnemonic. -/
def selectedBy (code : Code) : List String := (table.filter fun r => r.selects code).map Row.mnemonic

/-- Exactly one row of the opcode table selects the encoding of `i`, and it is the row of `i`. -/
def Statement (i : Instr) : Prop := selectedBy (encode i) = [mnemonicOf i]

/-- The rows that select a transaction do not look at its data or its width. -/
theorem selectedBy_bus (t u : Transaction) (h : t.descriptor = u.descriptor) :
    selectedBy (.bus t) = selectedBy (.bus u) := by
  simp only [selectedBy]
  congr 1
  apply List.filter_congr
  intro r _
  cases r <;> simp [Row.selects, h]

theorem nop : Statement .nop := by
  unfold Statement
  decide
theorem encipher : Statement .encipher := by
  unfold Statement
  decide
theorem decipher : Statement .decipher := by
  unfold Statement
  decide
theorem cbcEnc : Statement .cbcEnc := by
  unfold Statement
  decide
theorem cbcDec : Statement .cbcDec := by
  unfold Statement
  decide

theorem rdKey (i : BitVec 2) : Statement (.rdKey i) :=
  (by decide : ∀ j : BitVec 2, selectedBy (.bus (busRead32 (keyOff j))) = ["RD_KEYi"]) i
theorem rdChain (i : BitVec 1) : Statement (.rdChain i) :=
  (by decide : ∀ j : BitVec 1, selectedBy (.bus (busRead32 (chainOff j))) = ["RD_CHAINi"]) i
theorem rdDin (i : BitVec 1) : Statement (.rdDin i) :=
  (by decide : ∀ j : BitVec 1, selectedBy (.bus (busRead32 (dinOff j))) = ["RD_DINi"]) i
theorem rdDout (i : BitVec 1) : Statement (.rdDout i) :=
  (by decide : ∀ j : BitVec 1, selectedBy (.bus (busRead32 (doutOff j))) = ["RD_DOUTi"]) i
theorem rdCmd : Statement .rdCmd := by
  unfold Statement
  decide
theorem rdStatus : Statement .rdStatus := by
  unfold Statement
  decide
theorem rdReserved (i : BitVec 2) : Statement (.rdReserved i) :=
  (by decide : ∀ j : BitVec 2, selectedBy (.bus (busRead32 (reservedOff j))) = ["RD_reserved"]) i

theorem wrKey (i : BitVec 2) (v : Word) : Statement (.wrKey i v) :=
  (selectedBy_bus _ (busWrite32 (keyOff i) 0) rfl).trans
    ((by decide : ∀ j : BitVec 2, selectedBy (.bus (busWrite32 (keyOff j) 0)) = ["WR_KEYi"]) i)
theorem wrChain (i : BitVec 1) (v : Word) : Statement (.wrChain i v) :=
  (selectedBy_bus _ (busWrite32 (chainOff i) 0) rfl).trans
    ((by decide : ∀ j : BitVec 1, selectedBy (.bus (busWrite32 (chainOff j) 0)) = ["WR_CHAINi"]) i)
theorem wrDin (i : BitVec 1) (v : Word) : Statement (.wrDin i v) :=
  (selectedBy_bus _ (busWrite32 (dinOff i) 0) rfl).trans
    ((by decide : ∀ j : BitVec 1, selectedBy (.bus (busWrite32 (dinOff j) 0)) = ["WR_DINi"]) i)
theorem wrDout (i : BitVec 1) (v : Word) : Statement (.wrDout i v) :=
  (selectedBy_bus _ (busWrite32 (doutOff i) 0) rfl).trans
    ((by decide : ∀ j : BitVec 1, selectedBy (.bus (busWrite32 (doutOff j) 0)) = ["WR_DOUTi"]) i)
theorem wrCmd (c : Word) : Statement (.wrCmd c) :=
  (selectedBy_bus (busWrite32 cmdOff c) (busWrite32 cmdOff 0) rfl).trans
    (by decide : selectedBy (.bus (busWrite32 cmdOff 0)) = ["WR_CMD"])
theorem wrStatus (v : Word) : Statement (.wrStatus v) :=
  (selectedBy_bus (busWrite32 statusOff v) (busWrite32 statusOff 0) rfl).trans
    (by decide : selectedBy (.bus (busWrite32 statusOff 0)) = ["WR_STATUS"])
theorem wrReserved (i : BitVec 2) (v : Word) : Statement (.wrReserved i v) :=
  (selectedBy_bus _ (busWrite32 (reservedOff i) 0) rfl).trans
    ((by decide : ∀ j : BitVec 2, selectedBy (.bus (busWrite32 (reservedOff j) 0)) = ["WR_reserved"]) i)

end Sys2Proof.Laws.RowBits
end

