-- ==== Sys2Proof/Tests/Slice0.lean ====
section
/-! SUPPORT. The model's own tests. Expected values are written out from the spec: the encodings of 30_encoding R50 and
R54, the vectors of 95_test_vectors, the examples of the register rules. -/

namespace Sys2Proof.Tests

open Sys2Proof.Machine

/-! ### Well-formedness: one ill-formed term for each check -/

theorem test_wf_width : Transaction.widthOk ⟨false, 0x10#6, 2, 0⟩ = false := by decide
theorem test_wf_aligned : Transaction.aligned ⟨false, 0x12#6, 4, 0⟩ = false := by decide
theorem test_wf_transaction : Transaction.wellFormed ⟨false, 0x12#6, 2, 0⟩ = false ∧
    Transaction.wellFormed ⟨true, 0x28#6, 4, 3⟩ = true := by decide
theorem test_wf_reserved : CommandWord.reservedClear 0x00000010#32 = false := by decide
theorem test_wf_op : CommandWord.opDefined 0x00000005#32 = false := by decide
theorem test_wf_command : CommandWord.wellFormed 0x80000001#32 = false ∧
    CommandWord.wellFormed 0x00000004#32 = true := by decide

/-! ### Decoding: every constructor from a word written out from 30_encoding R50 or R54 -/

theorem test_decode_nop : decode (.cmd 0b00000000000000000000000000000000#32) = .ok .nop := by decide
theorem test_decode_encipher : decode (.cmd 0b00000000000000000000000000000001#32) = .ok .encipher := by decide
theorem test_decode_decipher : decode (.cmd 0b00000000000000000000000000000010#32) = .ok .decipher := by decide
theorem test_decode_cbcEnc : decode (.cmd 0b00000000000000000000000000000011#32) = .ok .cbcEnc := by decide
theorem test_decode_cbcDec : decode (.cmd 0b00000000000000000000000000000100#32) = .ok .cbcDec := by decide
theorem test_decode_illegal : decode (.cmd 0x00000005#32) = .error (.reservedOp 5#4) ∧
    decode (.cmd 0x00000013#32) = .error (.reservedBits 0x00000013#32) := by decide
theorem test_decode_rdKey : decodeTableWord 8 0b0001100 = some (.rdKey 3#2) := by decide
theorem test_decode_rdChain : decodeTableWord 8 0b0010100 = some (.rdChain 1#1) := by decide
theorem test_decode_rdDin : decodeTableWord 8 0b0011000 = some (.rdDin 0#1) := by decide
theorem test_decode_rdDout : decodeTableWord 8 0b0100100 = some (.rdDout 1#1) := by decide
theorem test_decode_rdCmd : decodeTableWord 8 0b0101000 = some .rdCmd := by decide
theorem test_decode_rdStatus : decodeTableWord 8 0b0101100 = some .rdStatus := by decide
theorem test_decode_rdReserved : decodeTableWord 8 0b0111000 = some (.rdReserved 2#2) := by decide
theorem test_decode_wrKey : decodeBus ⟨true, 0b001000#6, 4, 3⟩ = .ok (.wrKey 2#2 3) := by decide
theorem test_decode_wrChain : decodeBus ⟨true, 0b010000#6, 4, 5⟩ = .ok (.wrChain 0#1 5) := by decide
theorem test_decode_wrDin : decodeBus ⟨true, 0b011100#6, 4, 7⟩ = .ok (.wrDin 1#1 7) := by decide
theorem test_decode_wrDout : decodeBus ⟨true, 0b100000#6, 4, 0⟩ = .ok (.wrDout 0#1 0) := by decide
theorem test_decode_wrCmd : decodeBus ⟨true, 0b101000#6, 4, 0x13⟩ = .ok (.wrCmd 0x13) := by decide
theorem test_decode_wrStatus : decodeBus ⟨true, 0b101100#6, 4, 0x1000⟩ = .ok (.wrStatus 0x1000) := by decide
theorem test_decode_wrReserved : decodeBus ⟨true, 0b111100#6, 4, 0⟩ = .ok (.wrReserved 3#2 0) := by decide
theorem test_decode_bus_errors : decodeBus ⟨false, 0x10#6, 2, 0⟩ = .error (.badWidth 2) ∧
    decodeBus ⟨true, 0x11#6, 4, 0⟩ = .error (.misaligned 0x11#6) ∧ decodeTableWord 8 0x80 = none := by decide

/-! ### The cipher: the vectors of 95_test_vectors §2 -/

/-- An XTEA and a TEA instance. -/
def xteaCore : Configuration := ⟨.xtea, 0x40, 7⟩
def teaCore : Configuration := ⟨.tea, 0x80, 7⟩

/-- The source's key [1, 2, 3, 4]. -/
def key1234 : Key := ⟨1, 2, 3, 4⟩

/-- 40_block_cipher R76, cycle 1. -/
theorem test_first_cycle : xteaEncCycle key1234 ⟨5, 6, 0⟩ = ⟨0x6C, 0x9E377E98, 0x9E3779B9⟩ := by decide
/-- 95 §2.2, TEA, cycle 0. -/
theorem test_first_tea_cycle : teaEncCycle key1234 ⟨5, 6, 0⟩ = ⟨0x9E3779E1, 0xDBE8D660, 0x9E3779B9⟩ := by decide
/-- 40_block_cipher R75, row 6: the second index of sum 0x5384540F is 2, and the first of sum 0xB54CDA56 is 2. -/
theorem test_key_index : xteaKeyHigh key1234 0x5384540F = 3 ∧ xteaKeyLow key1234 0xB54CDA56 = 3 := by decide
/-- 95 E7, and E9's decipher columns. -/
theorem test_vectors : encipher .xtea key1234 ⟨5, 6⟩ = ⟨0x337D65AE, 0x6DD3922F⟩ ∧
    encipher .tea key1234 ⟨5, 6⟩ = ⟨0xB0C3A340, 0xDDE7601B⟩ ∧
    decipher .xtea ⟨0xDEADBEEF, 0x01234567, 0x89ABCDEF, 0xFEDCBA98⟩ ⟨0x01234567, 0x89ABCDEF⟩ =
    ⟨0x38789110, 0xF1FCAF79⟩ ∧
    decipher .tea ⟨0xDEADBEEF, 0x01234567, 0x89ABCDEF, 0xFEDCBA98⟩ ⟨0x01234567, 0x89ABCDEF⟩ =
    ⟨0xA24F979E, 0xFC595C4B⟩ := by decide +kernel
/-- 95 B1 and B6. -/
theorem test_cbc : encryptStep .xtea key1234 ⟨0x03020100, 0x07060504⟩ ⟨5, 6⟩ =
    (⟨0xB233AE7F, 0x258F2B43⟩, ⟨0xB233AE7F, 0x258F2B43⟩) ∧
    decryptStep .tea key1234 ⟨0x9B3885B6, 0xBCE76658⟩ ⟨5, 6⟩ =
    (⟨0x03020100, 0x07060504⟩, ⟨0x9B3885B6, 0xBCE76658⟩) := by decide +kernel

/-! ### One step of each instruction: 95_test_vectors §6 -/

/-- What STATUS reads after an answer. -/
def statusAfter : Answer → Option Word
  | .next t => some (statusWord t)
  | _ => none

/-- The value of the last read after an answer. -/
def valueRead : Answer → Option Word
  | .next t => t.reads.getLast?.map ReadRecord.value
  | _ => none

/-- How an answer stops. -/
def stopOf : Answer → Option Fault
  | .fault f => some f
  | _ => none

/-- The key loaded, nothing else: KEYV = 0b1111. -/
def keyOnly : State := { State.reset with key := key1234, keyv := 0b1111#4 }

/-- 95 §6.1, S1: after `ldkey 1,2,3,4 ; ldiv 5,6 ; ldblk ... ; run CBC_ENC`. -/
def stateS1 : State :=
  { keyOnly with chain := ⟨0xB233AE7F, 0x258F2B43⟩, chv := 0b11#2, din := ⟨0x03020100, 0x07060504⟩,
                 dout := ⟨0xB233AE7F, 0x258F2B43⟩, doutValid := true }

/-- S1 with ENCIPHER accepted. -/
def busyS1 : State :=
  { stateS1 with busy := true, doutValid := false, pending := some ⟨.encipher, key1234, stateS1.chain, stateS1.din⟩ }

theorem test_status_S1 : valueRead (exec .rdStatus stateS1) = some 0x000000FE := by decide
theorem test_status_busy : valueRead (exec .rdStatus busyS1) = some 0x000000FD := by decide
theorem test_rdKey : valueRead (exec (.rdKey 0) stateS1) = some 0 := by decide
theorem test_rdChain : valueRead (exec (.rdChain 1) stateS1) = some 0x258F2B43 := by decide
theorem test_rdDin : valueRead (exec (.rdDin 0) stateS1) = some 0x03020100 := by decide
theorem test_rdDout : valueRead (exec (.rdDout 1) stateS1) = some 0x258F2B43 := by decide
theorem test_rdCmd : valueRead (exec .rdCmd stateS1) = some 0 := by decide
theorem test_wrKey : statusAfter (exec (.wrKey 1 0xAABBCCDD) State.reset) = some 0x00000008 := by decide
theorem test_wrKey_word : (keyOnly.setKeyWord 2 9).key = ⟨1, 2, 9, 4⟩ := by decide
theorem test_wrChain : statusAfter (exec (.wrChain 0 0x11111111) State.reset) = some 0x00000040 := by decide
theorem test_wrChain_word : (stateS1.setChainWord 0 0x11111111).chain = ⟨0x11111111, 0x258F2B43⟩ := by decide
theorem test_wrDin : statusAfter (exec (.wrDin 1 0x22222222) State.reset) = some 0 := by decide
theorem test_wrDout : stopOf (exec (.wrDout 1 0) stateS1) = some (.busError 0x24) := by decide
theorem test_rdReserved : stopOf (exec (.rdReserved 3) stateS1) = some (.busError 0x3C) := by decide
theorem test_wrReserved : stopOf (exec (.wrReserved 2 0) State.reset) = some (.busError 0x38) := by decide
theorem test_wrStatus_ignored : statusAfter (exec (.wrStatus 0xFFFFEFFF) stateS1) = some 0x000000FE := by decide
theorem test_wrStatus_clears :
    statusAfter (exec (.wrStatus 0x1000) { keyOnly with sticky := true }) = some 0x0000003C := by decide
theorem test_wrCmd_reserved_bit : statusAfter (exec (.wrCmd 0x00000010) stateS1) = some 0x000011FE := by decide
theorem test_wrCmd_reserved_op : statusAfter (exec (.wrCmd 0x0000000F) State.reset) = some 0x00001100 := by decide
theorem test_nop : statusAfter (exec .nop { keyOnly with err := 3, sticky := true }) = some 0x0000103C := by decide
theorem test_encipher_no_key : statusAfter (exec .encipher State.reset) = some 0x00001200 := by decide
theorem test_encipher : statusAfter (exec .encipher keyOnly) = some 0x0000003D := by decide
theorem test_decipher_no_key2 :
    statusAfter (exec .decipher { State.reset with keyv := 0b1011#4 }) = some 0x0000122C := by decide
theorem test_cbcDec_no_chain : statusAfter (exec .cbcDec keyOnly) = some 0x0000133C := by decide
theorem test_cbcEnc_half_chain : statusAfter (exec .cbcEnc { keyOnly with chv := 0b01#2 }) = some 0x0000137C := by decide
theorem test_cbcEnc : statusAfter (exec .cbcEnc stateS1) = some 0x000000FD := by decide
theorem test_hazard : stopOf (exec (.rdDout 0) busyS1) = some (.hazard 0x20 false) ∧
    stopOf (exec (.rdReserved 0) busyS1) = some (.hazard 0x30 false) ∧
    stopOf (hostTurn ⟨true, 0x12#6, 4, 0⟩ busyS1) = some (.busError 0x12) := by decide
/-- 95 §6.3: reset while BUSY. -/
theorem test_reset_while_busy : statusAfter (deliver xteaCore .reset busyS1) = some 0 ∧
    (busyS1.resetCore).pending = none := by decide
/-- 40_block_cipher R71's example, from acceptance to the engine's turn; and 95 E7, the same command on a TEA instance. -/
theorem test_completion : (engineTurn xteaCore ({ keyOnly with din := ⟨5, 6⟩ }.accept .encipher)).dout =
    ⟨0x337D65AE, 0x6DD3922F⟩ ∧ (engineTurn teaCore ({ keyOnly with din := ⟨5, 6⟩ }.accept .encipher)).dout =
    ⟨0xB0C3A340, 0xDDE7601B⟩ := by decide +kernel
theorem test_step_idle : statusAfter (step State.reset) = some 0 := by decide
theorem test_fetch_word : statusAfter (step (State.reset.withFetchWord 32 1)) = some 0x00001200 ∧
    valueRead (step (State.reset.withFetchWord 8 0x2C)) = some 0 := by decide

/-! ### The host's side: 95_test_vectors §5 and §7 -/

theorem test_pack : pack [0x68, 0x65, 0x6C, 0x6C, 0x6F, 3, 3, 3] = ⟨0x6C6C6568, 0x0303036F⟩ := by decide
theorem test_unpack : unpack ⟨0xB233AE7F, 0x258F2B43⟩ = [0x7F, 0xAE, 0x33, 0xB2, 0x43, 0x2B, 0x8F, 0x25] := by decide
theorem test_padded : padded [0, 1, 2, 3, 4, 5, 6] = [0, 1, 2, 3, 4, 5, 6, 1] ∧ padLength 8 = 8 := by decide
/-- 95 S2, XTEA. -/
theorem test_stream_S2 : ciphertextOf .xtea key1234 ⟨5, 6⟩ [0x68, 0x65, 0x6C, 0x6C, 0x6F] =
    [0xF3, 0x30, 0x45, 0x1B, 0x9B, 0x8C, 0xBF, 0x70] := by decide +kernel
theorem test_strip : stripPad [0x41, 0x42, 0x43, 0x44, 0x45, 0x46, 0x00, 0x02] =
    .ok [0x41, 0x42, 0x43, 0x44, 0x45, 0x46] ∧ stripPad [0, 0, 0, 0, 0, 0, 0, 9] = .error .malformedPad := by decide
theorem test_expand_run : assemble [.run .cbcEnc] = [.issue ⟨true, 0x28, 4, 3⟩, .poll] := by decide
theorem test_names : RegName.parse "DOUT1" = some .dout1 ∧ commandNamed "CBC" = none := by decide
/-- 30_encoding R62 and log entry 17: an assertion of a register that has not been read fails, and the host goes on. -/
theorem test_assert_unread : System.turn xteaCore .host ⟨stateS1, [.check .dout0 0, .poll], []⟩ =
    .next ⟨stateS1, [.poll], [false]⟩ := rfl
/-- 70_reset_and_hazards R147: a run with a command pending, or a poll to come, has no result; one with an assertion to
come is over. -/
theorem test_result : System.result ⟨busyS1, [], []⟩ = none ∧ System.result ⟨stateS1, [.poll], []⟩ = none ∧
    System.result ⟨stateS1, [.check .din0 0], []⟩ = some ⟨[], stateS1.chain, stateS1.din, stateS1.dout, 0x000000FE⟩ := by decide
/-- 48_host_stream R107, R114: a sink that takes 3 of 8 bytes leaves 5 pending; one that fails leaves them all. -/
theorem test_short_send :
    (Encryptor.send ⟨⟨stateS1, []⟩, ⟨key1234, none⟩, [], [1, 2, 3, 4, 5, 6, 7, 8], false, false⟩ ⟨[], [.takes 3], 0, []⟩).enc.unsent =
      [4, 5, 6, 7, 8] ∧
    (Encryptor.send ⟨⟨stateS1, []⟩, ⟨key1234, none⟩, [], [1, 2], false, false⟩ ⟨[], [.fails ⟨5⟩], 0, []⟩).enc.unsent = [1, 2] := by
  decide
/-- 48_host_stream R102: the phases of an encryptor. -/
theorem test_phases :
    Encryptor.phase ⟨⟨stateS1, []⟩, ⟨key1234, none⟩, [1], [], false, false⟩ = .buffering ∧
    Encryptor.phase ⟨⟨stateS1, []⟩, ⟨key1234, none⟩, [1], [2], true, false⟩ = .pendingWrite := by decide
theorem test_window : windowOffset 0x40 0x68 = some 0x28#6 ∧ windowOffset 0x40 0x80 = none := by decide

/-! ### Witnesses: a state and operands that meet the hypotheses of each statement that has some -/

/-- The statements whose only hypothesis is BUSY = 0, among them NopClearsErrOnly, the register reads and writes and
LoadingMakesTheCoreReady; and the clause of a loaded key without a chain. -/
theorem witness_not_busy : keyOnly.busy = false ∧ keyOnly.keyv = 0b1111#4 ∧ keyOnly.chv ≠ 0b11#2 := by decide
/-- The KEY_NOT_LOADED clauses of EncipherCommand, DecipherCommand, CbcEncCommand, CbcDecCommand. -/
theorem witness_no_key : State.reset.busy = false ∧ State.reset.keyv ≠ 0b1111#4 := by decide
/-- The hazard clauses of the commands. -/
theorem witness_busy : busyS1.busy = true ∧ busyS1.pending = some ⟨.encipher, key1234, stateS1.chain, stateS1.din⟩ := by
  decide
/-- CbcRoundTripOnTheCore, EncryptorIgnoresChunking, ContextSwitchKeepsTheStream. -/
theorem witness_ready : stateS1.Ready := ⟨by decide, by decide, by decide⟩
/-- The acceptance clauses of CbcEncCommand and CbcDecCommand. -/
theorem witness_cbc_ready : stateS1.busy = false ∧ stateS1.keyv = 0b1111#4 ∧ stateS1.chv = 0b11#2 := by decide

/-- IllegalCommandWordsAreRefused, CommandWordsSelectFiveCommands. -/
theorem witness_illegal_word : State.reset.busy = false ∧ (0x10#32).extractLsb' 4 28 ≠ 0#28 ∧
    5 ≤ ((0xF#32).extractLsb' 0 4).toNat ∧ 5 ≤ (0xF#4).toNat ∧
    ¬ ((0x4#32).extractLsb' 4 28 ≠ 0#28 ∨ 5 ≤ ((0x4#32).extractLsb' 0 4).toNat) := by decide

/-- DecodedCodeIsTheEncoding. -/
theorem witness_decodes : decode (.cmd 4#32) = .ok .cbcDec ∧
    decode (.bus ⟨true, 0x3C#6, 4, 1#32⟩) = .ok (.wrReserved 3 1) := by decide

/-- BusRowsFollowTheTable: the last descriptor of each row. -/
theorem witness_rows :
    0x0C#7 &&& 0x73#7 = 0x00#7 ∧ 0x14#7 &&& 0x7B#7 = 0x10#7 ∧ 0x1C#7 &&& 0x7B#7 = 0x18#7 ∧
    0x24#7 &&& 0x7B#7 = 0x20#7 ∧ 0x28#7 &&& 0x7F#7 = 0x28#7 ∧ 0x2C#7 &&& 0x7F#7 = 0x2C#7 ∧
    0x3C#7 &&& 0x73#7 = 0x30#7 ∧ 0x4C#7 &&& 0x73#7 = 0x40#7 ∧ 0x54#7 &&& 0x7B#7 = 0x50#7 ∧
    0x5C#7 &&& 0x7B#7 = 0x58#7 ∧ 0x64#7 &&& 0x7B#7 = 0x60#7 ∧ 0x68#7 &&& 0x7F#7 = 0x68#7 ∧
    0x6C#7 &&& 0x7F#7 = 0x6C#7 ∧ 0x7C#7 &&& 0x73#7 = 0x70#7 := by decide

/-- The encoding clauses of the register statements: a transaction of each row, at its last offset. -/
theorem witness_row_transactions :
    (⟨false, 0x0C#6, 4, 0⟩ : Transaction).descriptor &&& 0x73#7 = 0x00#7 ∧
    (⟨false, 0x14#6, 4, 0⟩ : Transaction).descriptor &&& 0x7B#7 = 0x10#7 ∧
    (⟨false, 0x1C#6, 4, 0⟩ : Transaction).descriptor &&& 0x7B#7 = 0x18#7 ∧
    (⟨false, 0x24#6, 4, 0⟩ : Transaction).descriptor &&& 0x7B#7 = 0x20#7 ∧
    (⟨false, 0x28#6, 4, 0⟩ : Transaction).descriptor = 0x28#7 ∧
    (⟨false, 0x2C#6, 4, 0⟩ : Transaction).descriptor = 0x2C#7 ∧
    (⟨true, 0x28#6, 4, 0⟩ : Transaction).descriptor = 0x68#7 ∧
    (⟨true, 0x0C#6, 4, 0⟩ : Transaction).descriptor &&& 0x73#7 = 0x40#7 ∧
    (⟨true, 0x14#6, 4, 0⟩ : Transaction).descriptor &&& 0x7B#7 = 0x50#7 ∧
    (⟨true, 0x1C#6, 4, 0⟩ : Transaction).descriptor &&& 0x7B#7 = 0x58#7 ∧
    (⟨true, 0x24#6, 4, 0⟩ : Transaction).descriptor &&& 0x7B#7 = 0x60#7 ∧
    (⟨true, 0x2C#6, 4, 0⟩ : Transaction).descriptor = 0x6C#7 ∧
    (⟨false, 0x3C#6, 4, 0⟩ : Transaction).descriptor &&& 0x73#7 = 0x30#7 ∧
    (⟨true, 0x3C#6, 4, 0⟩ : Transaction).descriptor &&& 0x73#7 = 0x70#7 := by decide

/-- TransactionChecksInOrder: each clause, where the checks meet. -/
theorem witness_checks :
    (⟨true, 0x12#6, 3, 0⟩ : Transaction).width ≠ 4 ∧
    (0x3F#6).extractLsb' 0 2 ≠ 0#2 ∧
    (busyS1.busy = true ∧ (⟨true, 0x2C#6, 4, 0⟩ : Transaction).descriptor ≠ 0x2C#7) ∧
    (busyS1.busy = true ∧ (⟨false, 0x2C#6, 4, 0⟩ : Transaction).descriptor = 0x2C#7) := by decide

/-- BusErrorsAreExactlyThese: each disjunct at its boundary. -/
theorem witness_bus_errors :
    stopOf (hostTurn ⟨false, 0x00#6, 5, 0⟩ State.reset) = some (.busError 0x00) ∧
    stopOf (hostTurn ⟨false, 0x01#6, 4, 0⟩ State.reset) = some (.busError 0x01) ∧
    stopOf (hostTurn ⟨true, 0x20#6, 4, 0⟩ State.reset) = some (.busError 0x20) ∧
    stopOf (hostTurn ⟨false, 0x30#6, 4, 0⟩ State.reset) = some (.busError 0x30) ∧
    stopOf (hostTurn ⟨true, 0x2C#6, 4, 0⟩ State.reset) = none := by decide

/-- StepRunsTheDecodedInstruction. -/
theorem witness_scheduled :
    (State.reset.withSchedule [.host ⟨true, 0x08#6, 4, 3⟩]).schedule = [.host ⟨true, 0x08#6, 4, 3⟩] ∧
    decodeBus ⟨true, 0x08#6, 4, 3⟩ = .ok (.wrKey 2 3) ∧ decode (.cmd 3#32) = .ok .cbcEnc := by decide

/-- StepOfTheOtherEvents. -/
theorem witness_other_events : (State.reset.withSchedule [.engine]).schedule = [.engine] ∧
    (State.reset.withSchedule [.reset]).schedule = [.reset] ∧ State.reset.schedule = [] := by decide

/-- OnlyTransactionsStop: a step that stops, either way. -/
theorem witness_stops :
    stopOf (step (State.reset.withSchedule [.host ⟨true, 0x20#6, 4, 0⟩])) = some (.busError 0x20) ∧
    stopOf (step (busyS1.withSchedule [.host ⟨true, 0x18#6, 4, 0⟩])) = some (.hazard 0x18 true) := by decide

/-- RefusalIsPrecise. -/
theorem witness_refused : exec (.wrCmd 7#32) State.reset = .next (State.reset.refuseCommand .illegalCmd) ∧
    (State.reset.refuseCommand .illegalCmd).busy = false ∧ (State.reset.refuseCommand .illegalCmd).err ≠ 0x0#4 :=
  ⟨rfl, by decide, by decide⟩

/-- CompletionStep: a pending command of each operation, and none. -/
theorem witness_pending : State.reset.pending = none ∧ (stateS1.accept .encipher).pending ≠ none ∧
    (stateS1.accept .decipher).pending ≠ none ∧ (stateS1.accept .cbcEnc).pending ≠ none ∧
    (stateS1.accept .cbcDec).pending ≠ none := by decide

/-- KeyWriteLoadsOneWord, ChainWriteLoadsOneWord: another index than the written one. -/
theorem witness_other_index : (3#2 ≠ 2#2) ∧ (0#1 ≠ 1#1) ∧ (3 ≠ (2#2).toNat) := by decide

/-- BusyAdmitsOnlyStatusReads. -/
theorem witness_other_than_status : busyS1.busy = true ∧ Instr.rdCmd ≠ .rdStatus := by decide

/-- BusyExactlyWhenPending: a state that meets the invariant with a command pending. -/
theorem witness_inv_busy : busyS1.Inv where
  idle_not_busy := by decide
  pending_agrees := by
    intro p h
    have hp : (⟨.encipher, key1234, stateS1.chain, stateS1.din⟩ : Pending) = p := Option.some.inj h
    subst hp
    exact ⟨rfl, rfl, rfl, rfl, rfl, by decide, rfl, rfl⟩
  err_code := by decide
  err_chain := by decide

/-- EveryStepKeepsTheInvariant: the pending command completes. -/
theorem witness_inv_step : busyS1.Inv ∧ step busyS1 = .next (engineTurn Config.standard busyS1) := ⟨witness_inv_busy, rfl⟩

/-- WrittenFlagsFallOnlyAtReset and the statements about any step that goes on. -/
theorem witness_step_goes_on :
    step (keyOnly.withSchedule [.host ⟨true, 0x10#6, 4, 5⟩]) =
      .next ((keyOnly.withSchedule []).setChainWord 0 5) ∧
    (∀ rest, (keyOnly.withSchedule [.host ⟨true, 0x10#6, 4, 5⟩]).schedule ≠ .reset :: rest) ∧
    ((keyOnly.withSchedule []).setChainWord 0 5).chain ≠ keyOnly.chain :=
  ⟨rfl, by simp, by decide⟩

/-- ChainChangesOnlyThere: a refused CBC command. -/
theorem witness_refused_cbc : exec .cbcEnc State.reset = .next (State.reset.refuseCommand .keyNotLoaded) ∧
    (State.reset.refuseCommand .keyNotLoaded).err ≠ 0x0#4 := ⟨rfl, by decide⟩

/-- DataRegistersChangeOnlyThere: KEY and DIN by a write, DOUT by a completion. -/
theorem witness_data_changes :
    step (State.reset.withSchedule [.host ⟨true, 0x00#6, 4, 5⟩]) = .next ((State.reset.withSchedule []).setKeyWord 0 5) ∧
    ((State.reset.withSchedule []).setKeyWord 0 5).key ≠ State.reset.key ∧
    step (State.reset.withSchedule [.host ⟨true, 0x18#6, 4, 5⟩]) = .next ((State.reset.withSchedule []).setDinWord 0 5) ∧
    ((State.reset.withSchedule []).setDinWord 0 5).din ≠ State.reset.din ∧
    step busyS1 = .next (engineTurn Config.standard busyS1) ∧ (engineTurn Config.standard busyS1).dout ≠ busyS1.dout :=
  ⟨rfl, by decide, rfl, by decide, rfl, by decide +kernel⟩

/-- ErrorFieldsChangeOnlyThere: ERR and STICKY by a refusal, STICKY by a write of STATUS. -/
theorem witness_error_changes :
    step (State.reset.withSchedule [.host ⟨true, 0x28#6, 4, 5⟩]) =
      .next ((State.reset.withSchedule []).refuseCommand .illegalCmd) ∧
    step ({ State.reset with sticky := true }.withSchedule [.host ⟨true, 0x2C#6, 4, 0x1000⟩]) =
      .next ({ State.reset with sticky := true }.withSchedule []).clearSticky := ⟨rfl, rfl⟩

/-- ConfigurationActsOnlyAtCompletion: nothing pending, a transaction, a reset, and two configurations of one variant. -/
theorem witness_no_completion : stateS1.pending = none ∧
    (busyS1.withSchedule [.host ⟨false, 0x2C#6, 4, 0⟩]).schedule = .host ⟨false, 0x2C#6, 4, 0⟩ :: [] ∧
    (busyS1.withSchedule [.reset]).schedule = .reset :: [] ∧
    xteaCore.variant = (⟨.xtea, 0x80, 9⟩ : Configuration).variant := by decide

/-- NoInstructionShowsTheKey: a read that goes on, and an instruction that stops. -/
theorem witness_key_reads : exec (.rdKey 0) stateS1 = .next (stateS1.recordRead 0x00 0) ∧
    exec (.rdReserved 0) stateS1 = .fault (.busError 0x30) := ⟨rfl, rfl⟩

/-- PollingEndsWithTheResult, with two polls before the engine's turn. -/
theorem witness_polling :
    (busyS1.withSchedule (List.replicate 2 (.host ⟨false, 0x2C#6, 4, 0#32⟩))).schedule =
      List.replicate 2 (.host ⟨false, 0x2C#6, 4, 0#32⟩) ∧
    (busyS1.withSchedule (List.replicate 2 (.host ⟨false, 0x2C#6, 4, 0#32⟩))).busy = true ∧
    (busyS1.withSchedule (List.replicate 2 (.host ⟨false, 0x2C#6, 4, 0#32⟩))).pending =
      some ⟨.encipher, key1234, stateS1.chain, stateS1.din⟩ := by decide

/-- CbcRoundTripOnTheCore: a second ready state with the same key and chain. -/
theorem witness_second_core : stateS1.Ready ∧ ({ stateS1 with din := ⟨0, 0⟩ } : State).Ready ∧
    ({ stateS1 with din := ⟨0, 0⟩ } : State).chain = stateS1.chain :=
  ⟨witness_ready, ⟨by decide, by decide, by decide⟩, rfl⟩

/-- DecryptorIgnoresChunking: an empty chunk, and one longer than a block; a chunk that is too short, whose
stream has no plaintext; and 95 S2, whose stream has one. -/
theorem witness_chunks : stateS1.Ready ∧
    ([[], [1, 2, 3, 4, 5, 6, 7, 8, 9]] : List (List Byte)).flatten.length < 10 ∧
    ([[], [1, 2, 3]] : List (List Byte)).any (fun b => !b.isEmpty && decide (b.length < 8)) = true ∧
    plaintextOf .xtea key1234 stateS1.chain [1, 2, 3] = .error .malformedLength ∧
    plaintextOf .xtea key1234 ⟨5, 6⟩ [0xF3, 0x30, 0x45, 0x1B, 0x9B, 0x8C, 0xBF, 0x70] = .ok [0x68, 0x65, 0x6C, 0x6C, 0x6F] := by
  refine ⟨witness_ready, by decide, by decide, rfl, ?_⟩
  have h : (decryptBlocks .xtea key1234 ⟨5, 6⟩ (blocksOf [0xF3, 0x30, 0x45, 0x1B, 0x9B, 0x8C, 0xBF, 0x70])).flatMap unpack =
      [0x68, 0x65, 0x6C, 0x6C, 0x6F, 3, 3, 3] := by decide +kernel
  unfold plaintextOf
  rw [h]
  rfl

/-- An encryptor and a decryptor that run on S1. -/
def encS1 : Encryptor := ⟨⟨stateS1, [2]⟩, ⟨key1234, none⟩, [1], [2, 3], false, false⟩
def decS1 (source : List SourceReply) : Decryptor := ⟨⟨stateS1, [2]⟩, ⟨key1234, none⟩, [], none, [], source, false⟩

/-- SuspendedStreamResumes, on a core just reset. -/
theorem witness_streams : State.reset.busy = false ∧ encS1.core.core.Ready ∧
    encS1.context = ⟨encS1.core.core.key, none⟩ ∧ (decS1 []).core.core.Ready ∧
    (decS1 []).context = ⟨(decS1 []).core.core.key, none⟩ :=
  ⟨rfl, witness_ready, rfl, witness_ready, rfl⟩

/-- IoErrorsPropagateUnchanged: the offer of a block just enciphered fails in a write and in a close, the flush fails in a
close and after pending bytes were sent, and the source fails after a chunk. -/
theorem witness_io_errors :
    ioErrorTold (encS1.write xteaCore ⟨[], [.takes 2, .fails ⟨5⟩], 0, []⟩ [1, 2, 3, 4, 5, 6, 7]).result = some ⟨5⟩ ∧
    ioErrorTold (encS1.close xteaCore ⟨[], [.takes 2, .fails ⟨5⟩], 0, []⟩).result = some ⟨5⟩ ∧
    ioErrorTold (encS1.close xteaCore ⟨[], [], 0, [some ⟨6⟩]⟩).result = some ⟨6⟩ ∧
    ioErrorTold (Encryptor.flush { encS1 with plain := [] } ⟨[], [.takes 2], 0, [some ⟨6⟩]⟩).result = some ⟨6⟩ :=
  ⟨rfl, rfl, rfl, rfl⟩
theorem witness_source_errors : (decS1 [.chunk [], .fails ⟨5⟩]).context.saved = none ∧
    Decryptor.read xteaCore (decS1 [.chunk [], .fails ⟨5⟩, .chunk [1]]) 1 = .again (.io ⟨5⟩) (decS1 [.chunk [1]]) ∧
    Decryptor.read xteaCore (decS1 [.fails ⟨5⟩]) 0 = .got [] (decS1 [.fails ⟨5⟩]) ∧
    Decryptor.read xteaCore (decS1 [.chunk [1], .fails ⟨5⟩]) 1 = .aborted .malformedLength := ⟨rfl, rfl, rfl, rfl⟩

/-- WriteDeliversEachBlockOnce: a write that the buffer takes whole, and one that gets no further than the pending
bytes. -/
theorem witness_write : encS1.core.core.Ready ∧ encS1.plain.length < 8 ∧ encS1.closed = false ∧
    encS1.context.saved = none ∧
    (encS1.write xteaCore ⟨[], [], 0, []⟩ [9]).result = .ok 1 ∧
    (encS1.write xteaCore ⟨[], [.takes 1], 0, []⟩ [9]).result = .ok 0 :=
  ⟨witness_ready, by decide, rfl, rfl, rfl, rfl⟩

/-- StreamsFollowTheStateMachine: an encryptor at each side of a whole block, one with a pending write, one that is
closed; a decryptor with a whole block, and one with released bytes. -/
theorem witness_phases :
    (7 + ([9] : List Byte).length = 8 ∧ 6 + ([9] : List Byte).length < 8) ∧
    { encS1 with unsent := [] }.plain.length < 8 ∧
    { encS1 with blocked := true }.phase = .pendingWrite ∧
    (Encryptor.send { encS1 with blocked := true } ⟨[], [.takes 1], 0, []⟩).result ≠ .ok true ∧
    { encS1 with closed := true }.phase = .closed ∧
    8 ≤ { decS1 [] with carry := [1, 2, 3, 4, 5, 6, 7, 8] }.carry.length ∧
    (({ decS1 [] with buffer := [1, 2] } : Decryptor).carry.length < 8 ∧
      1 < ({ decS1 [] with buffer := [1, 2] } : Decryptor).buffer.length) := by decide

/-- StreamsFollowTheStateMachine: reads at the boundary, that leave a byte and that leave none. -/
theorem witness_drained : ({ decS1 [] with buffer := [1, 2] } : Decryptor).context.saved = none ∧
    2 ≤ ({ decS1 [] with buffer := [1, 2] } : Decryptor).buffer.length ∧
    Decryptor.readAll xteaCore { decS1 [] with buffer := [1, 2, 3] } [2, 1] = [.ok [1, 2], .ok [3]] ∧
    Decryptor.readAll xteaCore (decS1 []) [0, 1] = [.ok [], .error .malformedLength] := ⟨rfl, by decide, rfl, rfl⟩

/-- EncryptorAnswersFollowTheSink: an underrun, a misaligned flush and one passed on; a close that succeeds and two that
end in a short write. -/
theorem witness_answers : encS1.closed = false ∧ encS1.context.saved = none ∧ encS1.plain ≠ [] ∧
    (encS1.flush ⟨[], [.takes 1], 0, []⟩).result = .error .underrun ∧
    ((encS1.flush ⟨[], [], 0, []⟩).enc.unsent = [] ∧
      (encS1.flush ⟨[], [], 0, []⟩).result = .error .misalignedFlush) ∧
    (Encryptor.flush { encS1 with plain := [] } ⟨[], [], 0, []⟩).result = .ok () ∧
    (encS1.close xteaCore ⟨[], [], 0, []⟩).result = .ok () ∧
    (encS1.close xteaCore ⟨[], [.takes 1], 0, []⟩).result = .error .shortWrite ∧
    (encS1.close xteaCore ⟨[], [.takes 2, .takes 7], 0, []⟩).result = .error .shortWrite :=
  ⟨rfl, rfl, by decide, rfl, ⟨rfl, rfl⟩, rfl, rfl, rfl, rfl⟩

/-- EndedRunHasItsResult: a run that has ended with an engine turn still to come. -/
theorem witness_ended : (stateS1.withSchedule [.engine]).ended = true ∧
    (∀ e ∈ (stateS1.withSchedule [.engine]).schedule, e ≠ .reset) ∧
    stepWith teaCore (stateS1.withSchedule [.engine]) = .next (stateS1.withSchedule []) := ⟨by decide, by decide, rfl⟩

/-- WaitEndsWhenNotBusy, on an idle and on a busy core. -/
theorem witness_poll : (System.mk stateS1 [.poll] []).todo = .poll :: [] ∧
    (System.mk busyS1 [.poll] []).todo = .poll :: [] := by decide

/-- InstancesShareNothing: an XTEA and a TEA instance side by side. -/
theorem witness_instances :
    Platform.deliverAt 1 .reset [⟨xteaCore, stateS1⟩, ⟨teaCore, stateS1⟩] =
      .next [⟨xteaCore, stateS1⟩, ⟨teaCore, stateS1.resetCore⟩] := rfl

/-- WindowDecoding: two windows side by side, at the last address of the first. -/
theorem witness_windows :
    Platform.wellFormed [⟨xteaCore, State.reset⟩, ⟨teaCore, State.reset⟩] = true ∧
    windowOffset xteaCore.baseAddr 0x7F ≠ none ∧ windowOffset teaCore.baseAddr 0x7F = none := by decide

/-- BytesAreLittleEndian: the last byte. -/
theorem witness_last_byte : 7 < 8 ∧ (unpack ⟨0xB233AE7F, 0x258F2B43⟩)[7]? = some 0x25 := by decide

end Sys2Proof.Tests
end

section
/-! The statements of 10_state about the state record: the invariant that every step keeps, what can change which
field, and that the instances of a platform share nothing. -/

namespace Sys2Proof

/-! ### The instructions that present a command -/

/-- The instructions that present a command: the CMD format itself, and the write that carries it (30_encoding R48). -/
def Instr.presentsCommand : Instr → Bool
  | .nop | .encipher | .decipher | .cbcEnc | .cbcDec | .wrCmd _ => true
  | _ => false

theorem descriptor_busWrite32_cmdOff (c : Word) : (busWrite32 cmdOff c).descriptor = 0x68#7 := by
  change BitVec.ofBool true ++ cmdOff = 0x68#7
  decide

/-- Whatever presents a command is carried by a write at CMD. -/
theorem descriptor_of_presentsCommand {i : Instr} (hi : i.presentsCommand = true) :
    (encode i).transaction.descriptor = 0x68#7 := by
  cases i with
  | nop | encipher | decipher | cbcEnc | cbcDec | wrCmd => exact descriptor_busWrite32_cmdOff _
  | _ => cases hi

/-- A transaction presents a command as WR CMD only, for that is the row of its descriptor (30_encoding R54). -/
theorem eq_wrCmd_of_decodeBus {tr : Transaction} {i : Instr} (h : decodeBus tr = .ok i)
    (hi : i.presentsCommand = true) : ∃ c, i = .wrCmd c := by
  obtain ⟨-, ha, hr⟩ := decodeBus_ok h
  obtain ⟨j, hj, hdesc, -⟩ := decodeRow_aligned tr.descriptor tr.data (tr.descriptor_low.trans ha)
  obtain rfl : i = j := Except.ok.inj (hr.symm.trans hj)
  have hd : tr.descriptor = 0x68#7 := hdesc.symm.trans (descriptor_of_presentsCommand hi)
  have hrow : decodeRow 0x68#7 tr.data = .ok (.wrCmd tr.data) := rfl
  exact ⟨tr.data, Except.ok.inj (hr.symm.trans (hd ▸ hrow))⟩

end Sys2Proof

namespace Sys2Proof.Machine

/-! ### The invariant on an idle core -/

/-- Under the invariant, BUSY = 0 leaves nothing pending. -/
theorem State.Inv.pending_eq_none {s : State} (h : s.Inv) (hb : s.busy = false) : s.pending = none := by
  cases hp : s.pending with
  | none => rfl
  | some p =>
    obtain ⟨busy, -⟩ := h.pending_agrees p hp
    exact absurd (hb.symm.trans busy) (by decide)

theorem State.Inv.busy_iff_pending {s : State} (h : s.Inv) : s.busy = true ↔ s.pending ≠ none := by
  constructor
  · intro hb hp
    exact absurd ((h.idle_not_busy hp).symm.trans hb) (by decide)
  · intro hp
    obtain ⟨p, hp⟩ := Option.ne_none_iff_exists'.1 hp
    exact (h.pending_agrees p hp).1

/-- On an idle core with nothing pending the invariant speaks of ERR and KEYV alone. -/
theorem State.Inv.of_idle {s : State} (hp : s.pending = none) (hb : s.busy = false) (hc : s.err.toNat ≤ 3)
    (hk : s.err = CommandError.chainNotLoaded.code → s.keyv = 0b1111#4) : s.Inv where
  idle_not_busy _ := hb
  pending_agrees p h := absurd (hp.symm.trans h) (by simp)
  err_code := hc
  err_chain := hk

/-- Settles O33: the two halves of the invariant that speak of BUSY. -/
theorem busyExactlyWhenPending : Obligations.BusyExactlyWhenPending :=
  fun _ h => h.busy_iff_pending

/-! ### The written flags -/

theorem getLsbD_markKeyWord_of_getLsbD {f : BitVec 4} {n : Nat} (h : f.getLsbD n = true) (i : BitVec 2) :
    (markKeyWord f i).getLsbD n = true := by
  simp [markKeyWord, h]

theorem getLsbD_markChainWord_of_getLsbD {f : BitVec 2} {n : Nat} (h : f.getLsbD n = true) (i : BitVec 1) :
    (markChainWord f i).getLsbD n = true := by
  simp [markChainWord, h]

/-- With every key word written, one more write changes no flag. -/
@[simp] theorem markKeyWord_full (i : BitVec 2) : markKeyWord 0b1111#4 i = 0b1111#4 := by
  revert i
  decide

theorem CommandError.code_toNat_le (e : CommandError) : e.code.toNat ≤ 3 := by
  cases e <;> decide

theorem CommandError.code_ne_zero (e : CommandError) : e.code ≠ 0x0#4 := by
  cases e <;> decide

theorem CommandError.eq_chainNotLoaded_of_code_eq {e : CommandError}
    (h : e.code = CommandError.chainNotLoaded.code) : e = .chainNotLoaded := by
  cases e with
  | illegalCmd | keyNotLoaded => exact absurd h (by decide)
  | chainNotLoaded => rfl

/-! ### What the engine leaves alone -/

/-- A turn of the engine writes CHAIN, DOUT, DOUT_VALID, BUSY and PENDING at most (42_register_access R101). -/
theorem engineTurn_frame (cfg : Configuration) (s : State) :
    engineTurn cfg s = { s with
      chain := (engineTurn cfg s).chain, dout := (engineTurn cfg s).dout, doutValid := (engineTurn cfg s).doutValid,
      busy := (engineTurn cfg s).busy, pending := (engineTurn cfg s).pending } := by
  rcases engineTurn_cases cfg s with ⟨-, e⟩ | ⟨p, r, c, -, e, -⟩ <;> simp [e, State.finish]

section
variable (cfg : Configuration) (s : State)

@[simp] theorem engineTurn_key : (engineTurn cfg s).key = s.key := by rw [engineTurn_frame]
@[simp] theorem engineTurn_keyv : (engineTurn cfg s).keyv = s.keyv := by rw [engineTurn_frame]
@[simp] theorem engineTurn_chv : (engineTurn cfg s).chv = s.chv := by rw [engineTurn_frame]
@[simp] theorem engineTurn_din : (engineTurn cfg s).din = s.din := by rw [engineTurn_frame]
@[simp] theorem engineTurn_err : (engineTurn cfg s).err = s.err := by rw [engineTurn_frame]
@[simp] theorem engineTurn_sticky : (engineTurn cfg s).sticky = s.sticky := by rw [engineTurn_frame]

end

/-- A turn of the engine writes DOUT only at a completion. -/
theorem pending_ne_none_of_engineTurn_dout_ne {cfg : Configuration} {s : State}
    (h : (engineTurn cfg s).dout ≠ s.dout) : s.pending ≠ none := by
  rcases engineTurn_cases cfg s with ⟨-, e⟩ | ⟨p, r, c, hp, -⟩
  · exact absurd (congrArg State.dout e) h
  · simp [hp]

/-! ### The invariant is kept -/

/-- The invariant does not speak of the schedule. -/
theorem State.Inv.withSchedule {s : State} (h : s.Inv) (l : List Event) : (s.withSchedule l).Inv :=
  ⟨h.idle_not_busy, h.pending_agrees, h.err_code, h.err_chain⟩

/-- The invariant does not speak of the host's record. -/
theorem State.Inv.recordRead {s : State} (h : s.Inv) (off : Offset) (v : Word) : (s.recordRead off v).Inv :=
  ⟨h.idle_not_busy, h.pending_agrees, h.err_code, h.err_chain⟩

theorem State.inv_resetCore (s : State) : s.resetCore.Inv :=
  .of_idle rfl rfl (by simp) (by simp [CommandError.code])

/-- A completion leaves an idle core with ERR and KEYV as they were. -/
theorem State.Inv.engineTurn {s : State} (h : s.Inv) (cfg : Configuration) : (engineTurn cfg s).Inv := by
  rcases engineTurn_cases cfg s with ⟨-, e⟩ | ⟨p, r, c, -, e, -⟩ <;> rw [e]
  · exact h
  · exact .of_idle rfl rfl h.err_code h.err_chain

/-- An accepted command agrees with the registers it was taken from (10_state R28). -/
theorem State.inv_accept {s : State} {op : Op} (hk : s.keyv = 0b1111#4)
    (hc : op.needsChain = true → s.chv = 0b11#2) : (s.accept op).Inv where
  idle_not_busy hp := absurd hp (by simp)
  pending_agrees p hp := by
    obtain rfl : _ = p := Option.some.inj hp
    exact ⟨rfl, rfl, rfl, rfl, hk, hc, rfl, rfl⟩
  err_code := by simp [errNone]
  err_chain _ := hk

/-- Every effect of an instruction keeps the invariant: all but a read and an acceptance leave an idle core. -/
theorem Effect.inv {s t : State} {i : Instr} (e : Effect s i t) (h : s.Inv) : t.Inv := by
  cases e with
  | read => exact h.recordRead _ _
  | noError hb | noErrorByWrite _ hb =>
    exact .of_idle (h.pending_eq_none hb) hb (by simp [errNone]) (by simp [errNone, CommandError.code])
  | refuse _ c hb hk =>
    exact .of_idle (h.pending_eq_none hb) hb c.code_toNat_le
      fun hc => hk (CommandError.eq_chainNotLoaded_of_code_eq hc)
  | accept _ _ _ hk hc => exact State.inv_accept hk hc
  | key _ _ hb =>
    exact .of_idle (h.pending_eq_none hb) hb h.err_code fun he => by simp [h.err_chain he]
  | chain _ _ hb | din _ _ hb | sticky _ hb =>
    exact .of_idle (h.pending_eq_none hb) hb h.err_code h.err_chain
  | status => exact h

/-- The step of every configuration keeps the invariant. -/
theorem State.Inv.stepWith {cfg : Configuration} {s t : State} (h : s.Inv)
    (hs : stepWith cfg s = .next t) : t.Inv := by
  rcases stepWith_cases hs with ⟨-, rfl⟩ | ⟨rest, -, rfl⟩ | ⟨rest, -, rfl⟩ | ⟨tr, rest, i, -, -, e⟩
  · exact h.engineTurn cfg
  · exact (h.withSchedule rest).engineTurn cfg
  · exact State.inv_resetCore _
  · exact e.inv (h.withSchedule rest)

/-- Settles O32: the step behind the host's interface is that of the standard configuration. -/
theorem everyStepKeepsTheInvariant : Obligations.EveryStepKeepsTheInvariant :=
  ⟨fun _ _ h hs => h.stepWith hs, fun _ _ _ h hs => h.stepWith hs⟩

/-! ### What an effect can change -/

theorem Effect.keyv_mono {s t : State} {i : Instr} (e : Effect s i t) {n : Nat} (h : s.keyv.getLsbD n = true) :
    t.keyv.getLsbD n = true := by
  cases e with
  | key => exact getLsbD_markKeyWord_of_getLsbD h _
  | _ => exact h

theorem Effect.chv_mono {s t : State} {i : Instr} (e : Effect s i t) {n : Nat} (h : s.chv.getLsbD n = true) :
    t.chv.getLsbD n = true := by
  cases e with
  | chain => exact getLsbD_markChainWord_of_getLsbD h _
  | _ => exact h

theorem Effect.key_eq_or_wrKey {s t : State} {i : Instr} (e : Effect s i t) :
    t.key = s.key ∨ ∃ j v, i = .wrKey j v := by
  cases e with
  | key j v => exact .inr ⟨j, v, rfl⟩
  | _ => exact .inl rfl

theorem Effect.din_eq_or_wrDin {s t : State} {i : Instr} (e : Effect s i t) :
    t.din = s.din ∨ ∃ j v, i = .wrDin j v := by
  cases e with
  | din j v => exact .inr ⟨j, v, rfl⟩
  | _ => exact .inl rfl

/-- No instruction writes DOUT. -/
theorem Effect.dout_eq {s t : State} {i : Instr} (e : Effect s i t) : t.dout = s.dout := by
  cases e <;> rfl

/-- Settles O34: a bus write only sets flags, and the engine leaves them alone. -/
theorem writtenFlagsFallOnlyAtReset : Obligations.WrittenFlagsFallOnlyAtReset := by
  intro cfg s t hs hr
  rcases stepWith_cases hs with ⟨-, rfl⟩ | ⟨rest, -, rfl⟩ | ⟨rest, h, -⟩ | ⟨tr, rest, i, -, -, e⟩
  · simp
  · simp
  · exact absurd h (hr rest)
  · exact ⟨fun _ => e.keyv_mono, fun _ => e.chv_mono⟩

/-- Settles O36: the engine leaves KEY and DIN alone, a transaction leaves DOUT alone. -/
theorem dataRegistersChangeOnlyThere : Obligations.DataRegistersChangeOnlyThere := by
  intro cfg s t hs
  rcases stepWith_cases hs with ⟨h, rfl⟩ | ⟨rest, h, rfl⟩ | ⟨rest, h, -⟩ | ⟨tr, rest, i, h, hd, e⟩
  · exact ⟨fun hne => absurd (engineTurn_key ..) hne, fun hne => absurd (engineTurn_din ..) hne,
      fun hne => .inr ⟨pending_ne_none_of_engineTurn_dout_ne hne, .inl h⟩⟩
  · exact ⟨fun hne => absurd (engineTurn_key ..) hne, fun hne => absurd (engineTurn_din ..) hne,
      fun hne => .inr ⟨pending_ne_none_of_engineTurn_dout_ne (s := s.withSchedule rest) hne, .inr ⟨rest, h⟩⟩⟩
  · exact ⟨fun _ => .inl ⟨rest, h⟩, fun _ => .inl ⟨rest, h⟩, fun _ => .inl ⟨rest, h⟩⟩
  · refine ⟨fun hne => .inr ?_, fun hne => .inr ?_, fun hne => absurd e.dout_eq hne⟩
    · obtain ⟨j, v, rfl⟩ := e.key_eq_or_wrKey.resolve_left hne
      exact ⟨tr, rest, j, v, h, hd⟩
    · obtain ⟨j, v, rfl⟩ := e.din_eq_or_wrDin.resolve_left hne
      exact ⟨tr, rest, j, v, h, hd⟩

/-! ### The two error fields -/

/-- A command sets STICKY only where it is refused, and then ERR holds the code (60_exceptions R118). -/
theorem Effect.sticky_of_wrCmd {s t : State} {c : Word} (e : Effect s (.wrCmd c) t) (hne : t.sticky ≠ s.sticky) :
    t.err ≠ 0x0#4 ∧ t.sticky = true := by
  cases e with
  | refuse _ e => exact ⟨e.code_ne_zero, rfl⟩
  | _ => exact absurd rfl hne

/-- WR STATUS touches STICKY alone, and only with bit 12 of its data (42_register_access R97). -/
theorem execWrStatus_eq_next {v : Word} {s t : State} (h : exec (.wrStatus v) s = .next t) :
    t = s ∨ v.getLsbD 12 = true ∧ t = s.clearSticky := by
  obtain ⟨-, rfl⟩ := writeRegister_eq_next.1 h
  by_cases hv : clearsSticky v = true
  · exact .inr ⟨hv, if_pos hv⟩
  · exact .inl (if_neg hv)

/-- An instruction that presents no command leaves ERR alone, and STICKY too unless it is a clearing WR STATUS. -/
theorem exec_error_fields {i : Instr} {s t : State} (h : exec i s = .next t) (hi : i.presentsCommand = false) :
    t.err = s.err ∧ (t.sticky = s.sticky ∨ ∃ v, i = .wrStatus v ∧ v.getLsbD 12 = true ∧ t.sticky = false) := by
  cases i with
  | nop | encipher | decipher | cbcEnc | cbcDec | wrCmd => cases hi
  | rdKey | rdChain | rdDin | rdDout | rdCmd =>
    obtain ⟨-, rfl⟩ := readRegister_eq_next.1 h
    exact ⟨rfl, .inl rfl⟩
  | rdStatus =>
    cases h
    exact ⟨rfl, .inl rfl⟩
  | wrKey | wrChain | wrDin =>
    obtain ⟨-, rfl⟩ := writeRegister_eq_next.1 h
    exact ⟨rfl, .inl rfl⟩
  | wrStatus v =>
    rcases execWrStatus_eq_next h with rfl | ⟨hv, rfl⟩
    · exact ⟨rfl, .inl rfl⟩
    · exact ⟨rfl, .inr ⟨v, rfl, hv, rfl⟩⟩
  | rdReserved | wrDout | wrReserved => exact absurd (guardIdle_eq_next.1 h).2 (by simp [raiseBusError])

/-- A step whose event is a host transaction runs the instruction that the transaction decodes to. -/
theorem exec_of_stepWith_host {cfg : Configuration} {s t : State} {tr : Transaction} {rest : List Event} {i : Instr}
    (hs : stepWith cfg s = .next t) (h : s.schedule = .host tr :: rest) (hd : decodeBus tr = .ok i) :
    exec i (s.withSchedule rest) = .next t := by
  simpa [stepWith, h, deliver_host hd] using hs

/-- Settles O37: the engine leaves ERR and STICKY alone; of the transactions only WR CMD touches ERR, and only a
refused WR CMD and a clearing WR STATUS touch STICKY. -/
theorem errorFieldsChangeOnlyThere : Obligations.ErrorFieldsChangeOnlyThere := by
  intro cfg s t hs
  rcases stepWith_cases hs with ⟨-, rfl⟩ | ⟨rest, -, rfl⟩ | ⟨rest, h, -⟩ | ⟨tr, rest, i, h, hd, e⟩
  · exact ⟨fun hne => absurd (engineTurn_err ..) hne, fun hne => absurd (engineTurn_sticky ..) hne⟩
  · exact ⟨fun hne => absurd (engineTurn_err ..) hne, fun hne => absurd (engineTurn_sticky ..) hne⟩
  · exact ⟨fun _ => .inl ⟨rest, h⟩, fun _ => .inl ⟨rest, h⟩⟩
  · cases hi : i.presentsCommand with
    | true =>
      obtain ⟨c, rfl⟩ := eq_wrCmd_of_decodeBus hd hi
      exact ⟨fun _ => .inr ⟨tr, rest, c, h, hd⟩,
        fun hne => .inr (.inl ⟨tr, rest, c, h, hd, e.sticky_of_wrCmd hne⟩)⟩
    | false =>
      obtain ⟨herr, hsticky⟩ := exec_error_fields (exec_of_stepWith_host hs h hd) hi
      refine ⟨fun hne => absurd herr hne, fun hne => ?_⟩
      obtain ⟨v, rfl, hv, ht⟩ := hsticky.resolve_left hne
      exact .inr (.inr ⟨tr, rest, v, h, hd, hv, ht⟩)

/-! ### The instances of a platform -/

/-- An event at place `n` that goes on replaces the core there and nothing else; at a place past the end nothing
happens (10_state R32). -/
theorem Platform.deliverAt_eq_next {p q : Platform} {n : Nat} {e : Event} (h : Platform.deliverAt n e p = .next q) :
    (p[n]? = none ∧ q = p) ∨
    ∃ x c, p[n]? = some x ∧ deliver x.config e x.core = .next c ∧ q = p.set n { x with core := c } := by
  induction p generalizing n q with
  | nil =>
    cases n <;> cases h <;> exact .inl ⟨rfl, rfl⟩
  | cons x xs ih =>
    cases n with
    | zero =>
      unfold Platform.deliverAt at h
      split at h <;> cases h
      next c hc => exact .inr ⟨x, c, rfl, hc, rfl⟩
    | succ n =>
      unfold Platform.deliverAt at h
      split at h <;> cases h
      next ys hys =>
        rcases ih hys with ⟨hn, rfl⟩ | ⟨y, c, hy, hc, rfl⟩
        · exact .inl ⟨hn, rfl⟩
        · exact .inr ⟨y, c, hy, hc, rfl⟩

/-- Settles O52: an event replaces the list's entry at its own place at most. -/
theorem instancesShareNothing : Obligations.InstancesShareNothing := by
  intro p q n e h
  rcases Platform.deliverAt_eq_next h with ⟨hn, rfl⟩ | ⟨y, c, hy, hc, rfl⟩
  · exact ⟨rfl, fun _ _ => rfl, fun x hx => absurd (hn.symm.trans hx) (by simp)⟩
  · refine ⟨List.length_set, fun m hm => List.getElem?_set_ne hm.symm, fun x hx => ?_⟩
    obtain rfl : y = x := Option.some.inj (hy.symm.trans hx)
    obtain ⟨hlt, -⟩ := List.getElem?_eq_some_iff.1 hx
    exact ⟨c, hc, List.getElem?_set_self hlt⟩

end Sys2Proof.Machine

end

section
/-! The statements of 20_memory: the little-endian byte form of words and blocks, and the window that an instance
decodes in the host's address space. -/

namespace Sys2Proof

/-! ### The byte form of a word -/

section
variable (b0 b1 b2 b3 : Byte)

@[simp] theorem byteLane_zero_wordOfLanes : byteLane (wordOfLanes b0 b1 b2 b3) 0 = b0 :=
  BitVec.extractLsb'_append_eq_right

@[simp] theorem byteLane_one_wordOfLanes : byteLane (wordOfLanes b0 b1 b2 b3) 1 = b1 :=
  (BitVec.extractLsb'_append_eq_of_le (by decide)).trans BitVec.extractLsb'_append_eq_right

@[simp] theorem byteLane_two_wordOfLanes : byteLane (wordOfLanes b0 b1 b2 b3) 2 = b2 :=
  calc (b3 ++ b2 ++ b1 ++ b0).extractLsb' 16 8
    _ = (b3 ++ b2 ++ b1).extractLsb' 8 8 := BitVec.extractLsb'_append_eq_of_le (by decide)
    _ = (b3 ++ b2).extractLsb' 0 8 := BitVec.extractLsb'_append_eq_of_le (by decide)
    _ = b2 := BitVec.extractLsb'_append_eq_right

@[simp] theorem byteLane_three_wordOfLanes : byteLane (wordOfLanes b0 b1 b2 b3) 3 = b3 :=
  calc (b3 ++ b2 ++ b1 ++ b0).extractLsb' 24 8
    _ = (b3 ++ b2 ++ b1).extractLsb' 16 8 := BitVec.extractLsb'_append_eq_of_le (by decide)
    _ = (b3 ++ b2).extractLsb' 8 8 := BitVec.extractLsb'_append_eq_of_le (by decide)
    _ = b3 := BitVec.extractLsb'_append_eq_left

end

/-- A word is put together again from its four byte lanes. -/
@[simp] theorem wordOfLanes_byteLane (v : Word) :
    wordOfLanes (byteLane v 0) (byteLane v 1) (byteLane v 2) (byteLane v 3) = v := by
  have h2 : byteLane v 3 ++ byteLane v 2 = v.extractLsb' 16 16 :=
    BitVec.extractLsb'_append_extractLsb'_eq_extractLsb' rfl
  have h1 : v.extractLsb' 16 16 ++ byteLane v 1 = v.extractLsb' 8 24 :=
    BitVec.extractLsb'_append_extractLsb'_eq_extractLsb' rfl
  have h0 : v.extractLsb' 8 24 ++ byteLane v 0 = v.extractLsb' 0 32 :=
    BitVec.extractLsb'_append_extractLsb'_eq_extractLsb' rfl
  rw [wordOfLanes, h2, h1, h0, BitVec.extractLsb'_eq_self]

end Sys2Proof

namespace Sys2Proof.Machine

/-! ### The byte form of a block -/

/-- Byte `j` of a block is lane `j mod 4` of word `j div 4` (20_memory R36). -/
theorem unpack_getElem? (b : Block) {j : Nat} (hj : j < 8) :
    (unpack b)[j]? = some (byteLane (if j / 4 = 0 then b.w0 else b.w1) (j % 4)) := by
  interval_cases j <;> rfl

theorem pack_bytes (b0 b1 b2 b3 b4 b5 b6 b7 : Byte) :
    pack [b0, b1, b2, b3, b4, b5, b6, b7] = ⟨wordOfLanes b0 b1 b2 b3, wordOfLanes b4 b5 b6 b7⟩ := rfl

theorem unpack_pack (b0 b1 b2 b3 b4 b5 b6 b7 : Byte) :
    unpack (pack [b0, b1, b2, b3, b4, b5, b6, b7]) = [b0, b1, b2, b3, b4, b5, b6, b7] := by
  simp [pack_bytes, unpack]

@[simp] theorem pack_unpack (b : Block) : pack (unpack b) = b := by
  simp [unpack, pack_bytes]

/-- Settles O45: byte by byte from the lanes of the two words. -/
theorem bytesAreLittleEndian : Obligations.BytesAreLittleEndian :=
  ⟨fun b _ hj => unpack_getElem? b hj,
    fun b0 b1 b2 b3 b4 b5 b6 b7 => ⟨pack_bytes .., unpack_pack b0 b1 b2 b3 b4 b5 b6 b7⟩,
    pack_unpack⟩

/-! ### The window -/

/-- Inside the window the offset is the distance from its base (20_memory R39). -/
theorem windowOffset_of_mem {base addr : Nat} (h : base ≤ addr ∧ addr < base + 64) :
    windowOffset base addr = some (BitVec.ofNat 6 (addr - base)) :=
  if_pos h

theorem windowOffset_eq_none_iff {base addr : Nat} :
    windowOffset base addr = none ↔ ¬ (base ≤ addr ∧ addr < base + 64) := by
  rw [windowOffset, Config.windowBytes, ite_eq_right_iff]
  simp

/-- Two aligned windows that decode one address have the same base. -/
theorem base_eq_of_windowOffset_ne_none {a b addr : Nat} (ha : a % 64 = 0) (hb : b % 64 = 0)
    (hma : windowOffset a addr ≠ none) (hmb : windowOffset b addr ≠ none) : a = b := by
  rw [ne_eq, windowOffset_eq_none_iff, not_not] at hma hmb
  omega

theorem Platform.wellFormed_iff {p : Platform} : p.wellFormed = true ↔
    (∀ x ∈ p, x.config.baseAddr % 64 = 0) ∧ (p.map fun x => x.config.baseAddr).Nodup ∧ p ≠ [] := by
  simp [Platform.wellFormed, Config.windowBytes, and_assoc]

/-- No two places of a platform whose bases are distinct have one base. -/
theorem Platform.place_eq_of_base_eq {p : Platform} {x y : Instance} {m n : Nat}
    (nodup : (p.map fun z => z.config.baseAddr).Nodup) (hx : p[m]? = some x) (hy : p[n]? = some y)
    (he : x.config.baseAddr = y.config.baseAddr) : m = n := by
  have hm : (p.map fun z => z.config.baseAddr)[m]? = some x.config.baseAddr := by simp [hx]
  have hn : (p.map fun z => z.config.baseAddr)[n]? = some x.config.baseAddr := by simp [hy, he]
  obtain ⟨hlt, -⟩ := List.getElem?_eq_some_iff.1 hm
  exact (List.getElem?_inj hlt nodup).1 (hm.trans hn.symm)

/-- Settles O53: two instances that decode one address would have one base, so one place. -/
theorem windowDecoding : Obligations.WindowDecoding := by
  refine ⟨fun base addr hin => ⟨_, windowOffset_of_mem hin, ?_⟩, fun _ _ => windowOffset_eq_none_iff.2,
    fun p m n addr x y hp hmn hx hy hxd => ?_⟩
  · have hlt : addr - base < 2 ^ 6 := by omega
    rw [BitVec.toNat_ofNat, Nat.mod_eq_of_lt hlt]
  · obtain ⟨aligned, nodup, -⟩ := Platform.wellFormed_iff.1 hp
    have hax := aligned x (List.mem_of_getElem? hx)
    have hay := aligned y (List.mem_of_getElem? hy)
    by_contra hyd
    have hbase := base_eq_of_windowOffset_ne_none hax hay hxd hyd
    exact hmn (Platform.place_eq_of_base_eq nodup hx hy hbase)

end Sys2Proof.Machine

end

section
/-! The statements of 30_encoding: the two formats and their encodings, the order of the checks on a transaction, what
the core runs for a command word, and the host's poll. -/

namespace Sys2Proof

/-! ### The decoder gives an encoded instruction back -/

/-- A write at an aligned offset is decoded by the row of its descriptor. -/
theorem decodeBus_busWrite32 {off : Offset} (ha : off.extractLsb' 0 2 = 0#2) (v : Word) :
    decodeBus (busWrite32 off v) = decodeRow (BitVec.ofBool true ++ off) v :=
  decodeBus_aligned rfl ha

/-- A command comes back from its word, a bus instruction from its descriptor at each word index. -/
theorem decode_encode (i : Instr) : decode (encode i) = .ok i := by
  cases i with
  | nop | encipher | decipher | cbcEnc | cbcDec => rfl
  | rdKey j | rdReserved j => rcases wordIndex2_cases j with rfl | rfl | rfl | rfl <;> rfl
  | rdChain j | rdDin j | rdDout j => rcases wordIndex1_cases j with rfl | rfl <;> rfl
  | rdCmd | rdStatus => rfl
  | wrKey j v | wrReserved j v =>
    rcases wordIndex2_cases j with rfl | rfl | rfl | rfl <;> exact decodeBus_busWrite32 rfl v
  | wrChain j v | wrDin j v | wrDout j v =>
    rcases wordIndex1_cases j with rfl | rfl <;> exact decodeBus_busWrite32 rfl v
  | wrCmd v | wrStatus v => exact decodeBus_busWrite32 rfl v

/-- Settles O1, constructor by constructor. -/
theorem decodeOfEncodeIsTheInstruction : Obligations.DecodeOfEncodeIsTheInstruction := decode_encode

/-! ### The fourteen rows as a table -/

/-- A row of 30_encoding R54: its match and mask bits, and the instruction it stands for, from the descriptor and the
data. -/
structure BusRow where
  mtch : BitVec 7
  mask : BitVec 7
  instr : BitVec 7 → Word → Instr

/-- The rows of 30_encoding R54, in the spec's order. -/
def busRows : List BusRow :=
  [⟨0x00#7, 0x73#7, fun d _ => .rdKey (wordIndex2 d)⟩,
   ⟨0x10#7, 0x7B#7, fun d _ => .rdChain (wordIndex1 d)⟩,
   ⟨0x18#7, 0x7B#7, fun d _ => .rdDin (wordIndex1 d)⟩,
   ⟨0x20#7, 0x7B#7, fun d _ => .rdDout (wordIndex1 d)⟩,
   ⟨0x28#7, 0x7F#7, fun _ _ => .rdCmd⟩,
   ⟨0x2C#7, 0x7F#7, fun _ _ => .rdStatus⟩,
   ⟨0x30#7, 0x73#7, fun d _ => .rdReserved (wordIndex2 d)⟩,
   ⟨0x40#7, 0x73#7, fun d v => .wrKey (wordIndex2 d) v⟩,
   ⟨0x50#7, 0x7B#7, fun d v => .wrChain (wordIndex1 d) v⟩,
   ⟨0x58#7, 0x7B#7, fun d v => .wrDin (wordIndex1 d) v⟩,
   ⟨0x60#7, 0x7B#7, fun d v => .wrDout (wordIndex1 d) v⟩,
   ⟨0x68#7, 0x7F#7, fun _ v => .wrCmd v⟩,
   ⟨0x6C#7, 0x7F#7, fun _ v => .wrStatus v⟩,
   ⟨0x70#7, 0x73#7, fun d v => .wrReserved (wordIndex2 d) v⟩]

/-- The instruction of the first of some rows that selects a descriptor. -/
def decodeFirst (d : BitVec 7) (v : Word) : List BusRow → Except DecodeError Instr
  | [] => .error (.noRow d)
  | r :: rs => if rowSelects d r.mtch r.mask then .ok (r.instr d v) else decodeFirst d v rs

theorem decodeRow_eq_decodeFirst (d : BitVec 7) (v : Word) : decodeRow d v = decodeFirst d v busRows := rfl

/-- What the first row that selects gives is the instruction of one of the rows. -/
theorem mem_of_decodeFirst_eq_ok {d : BitVec 7} {v : Word} {i : Instr} {rows : List BusRow}
    (h : decodeFirst d v rows = .ok i) : ∃ r ∈ rows, r.instr d v = i := by
  induction rows with
  | nil => cases h
  | cons r rs ih =>
    unfold decodeFirst at h
    split at h
    · exact ⟨r, List.mem_cons_self, Except.ok.inj h⟩
    · obtain ⟨r', hr, h'⟩ := ih h
      exact ⟨r', List.mem_cons_of_mem _ hr, h'⟩

/-- Two rows ask for different values of the bits that both their masks keep. -/
def BusRow.Differs (a b : BusRow) : Prop := a.mtch &&& b.mask ≠ b.mtch &&& a.mask

/-- Of two rows that differ, one alone selects a descriptor. -/
theorem BusRow.Differs.rowSelects_eq_false {a b : BusRow} (h : a.Differs b) {d : BitVec 7}
    (ha : rowSelects d a.mtch a.mask = true) : rowSelects d b.mtch b.mask = false := by
  rw [Bool.eq_false_iff]
  intro hb
  have ea : d &&& a.mask = a.mtch := beq_iff_eq.1 ha
  have eb : d &&& b.mask = b.mtch := beq_iff_eq.1 hb
  exact h (by rw [← ea, ← eb, BitVec.and_assoc, BitVec.and_assoc, BitVec.and_comm a.mask])

/-- Among rows that differ from one another, whichever selects is the first that does. -/
theorem decodeFirst_eq_of_mem {d : BitVec 7} {v : Word} {r : BusRow} {rows : List BusRow}
    (hd : rows.Pairwise BusRow.Differs) (hr : r ∈ rows) (hs : rowSelects d r.mtch r.mask = true) :
    decodeFirst d v rows = .ok (r.instr d v) := by
  induction rows with
  | nil => cases hr
  | cons a rs ih =>
    obtain ⟨ha, hd⟩ := List.pairwise_cons.1 hd
    rcases List.mem_cons.1 hr with rfl | hr
    · simp [decodeFirst, hs]
    · have hn : ¬ rowSelects d a.mtch a.mask = true := fun h => by
        simp [(ha r hr).rowSelects_eq_false h] at hs
      simp [decodeFirst, hn, ih hd hr]

/-- The rows of 30_encoding R54 differ from one another. -/
theorem busRows_differ : busRows.Pairwise BusRow.Differs := by
  unfold BusRow.Differs
  decide

/-- Every row fixes the low two bits at 0. -/
theorem aligned_of_mem_busRows {r : BusRow} (hr : r ∈ busRows) {d : BitVec 7} (hs : d &&& r.mask = r.mtch) :
    d.extractLsb' 0 2 = 0#2 := by
  have low : ∀ r ∈ busRows, r.mask.extractLsb' 0 2 = BitVec.allOnes 2 ∧ r.mtch.extractLsb' 0 2 = 0#2 := by decide
  obtain ⟨hmask, hmtch⟩ := low r hr
  calc d.extractLsb' 0 2
    _ = d.extractLsb' 0 2 &&& r.mask.extractLsb' 0 2 := by rw [hmask, BitVec.and_allOnes]
    _ = (d &&& r.mask).extractLsb' 0 2 := BitVec.extractLsb'_and.symm
    _ = 0#2 := by rw [hs, hmtch]

/-- A row's instruction is encoded as a transaction of width 4, a write with the row's data or a read with none. -/
theorem encode_of_mem_busRows {r : BusRow} (hr : r ∈ busRows) (d : BitVec 7) (v : Word) :
    ∃ w off, encode (r.instr d v) = .bus ⟨w, off, 4, if w = true then v else 0#32⟩ := by
  fin_cases hr <;> exact ⟨_, _, rfl⟩

/-- A transaction of width 4 whose descriptor a row selects decodes to the row's instruction. -/
theorem decodeBus_of_mem_busRows {r : BusRow} (hr : r ∈ busRows) {t : Transaction} (hw : t.width = 4)
    (hs : t.descriptor &&& r.mask = r.mtch) : decodeBus t = .ok (r.instr t.descriptor t.data) := by
  rw [decodeBus_aligned hw (t.descriptor_low.symm.trans (aligned_of_mem_busRows hr hs)), decodeRow_eq_decodeFirst]
  exact decodeFirst_eq_of_mem busRows_differ hr (beq_iff_eq.2 hs)

/-- A transaction of width 4 decodes exactly when its offset is aligned. -/
theorem exists_decodeBus_eq_ok_iff {t : Transaction} (hw : t.width = 4) :
    (∃ i, decodeBus t = .ok i) ↔ t.off.extractLsb' 0 2 = 0#2 := by
  constructor
  · rintro ⟨i, h⟩
    obtain ⟨-, ha, -⟩ := decodeBus_ok h
    exact ha
  · intro ha
    obtain ⟨i, hi, -⟩ := decodeRow_aligned t.descriptor t.data (t.descriptor_low.trans ha)
    exact ⟨i, (decodeBus_aligned hw ha).trans hi⟩

/-- What a transaction decodes to is encoded as that transaction, without the data of a read. -/
theorem encode_of_decodeBus {t : Transaction} {i : Instr} (h : decodeBus t = .ok i) :
    encode i = .bus { t with data := if t.write = true then t.data else 0#32 } := by
  obtain ⟨hw, ha, hrow⟩ := decodeBus_ok h
  obtain ⟨r, hr, rfl⟩ := mem_of_decodeFirst_eq_ok ((decodeRow_eq_decodeFirst ..).symm.trans hrow)
  obtain ⟨w, off, hu⟩ := encode_of_mem_busRows hr t.descriptor t.data
  obtain ⟨j, hj, hdesc, -⟩ := decodeRow_aligned t.descriptor t.data (t.descriptor_low.trans ha)
  obtain rfl : _ = j := Except.ok.inj (hrow.symm.trans hj)
  rw [hu] at hdesc ⊢
  obtain ⟨rfl, rfl⟩ : w = t.write ∧ off = t.off := Transaction.descriptor_inj hdesc
  rw [hw]

/-- The word index of a descriptor is that of its offset, 30_encoding R55. -/
theorem wordIndex2_append (w : Bool) (off : Offset) : wordIndex2 (BitVec.ofBool w ++ off) = off.extractLsb' 2 2 := by
  revert w off
  decide

theorem wordIndex1_append (w : Bool) (off : Offset) : wordIndex1 (BitVec.ofBool w ++ off) = off.extractLsb' 2 1 := by
  revert w off
  decide

/-- Settles O5: each clause is a row of the table. -/
theorem busRowsFollowTheTable : Obligations.BusRowsFollowTheTable := by
  intro w off v t d
  have rows : ∀ r ∈ busRows, d &&& r.mask = r.mtch → decodeBus t = .ok (r.instr d v) :=
    fun r hr hs => decodeBus_of_mem_busRows hr rfl hs
  simp only [busRows, List.forall_mem_cons, d, wordIndex2_append, wordIndex1_append] at rows
  obtain ⟨rdKey, rdChain, rdDin, rdDout, rdCmd, rdStatus, rdReserved,
    wrKey, wrChain, wrDin, wrDout, wrCmd, wrStatus, wrReserved, -⟩ := rows
  exact ⟨rdKey, rdChain, rdDin, rdDout, rdCmd, rdStatus, rdReserved,
    wrKey, wrChain, wrDin, wrDout, wrCmd, wrStatus, wrReserved, (exists_decodeBus_eq_ok_iff (t := t) rfl).symm⟩

/-! ### The command words -/

theorem extractLsb'_high_zeroExtend (op : BitVec 4) : (op.zeroExtend 32).extractLsb' 4 28 = 0#28 := by
  revert op
  decide

theorem extractLsb'_low_zeroExtend (op : BitVec 4) : (op.zeroExtend 32).extractLsb' 0 4 = op := by
  revert op
  decide

/-- A word without reserved bits is its OP, zero-extended. -/
theorem eq_zeroExtend_of_reserved_clear {c : Word} (h : c.extractLsb' 4 28 = 0#28) :
    c = (c.extractLsb' 0 4).zeroExtend 32 := by
  have hc : c.extractLsb' 4 28 ++ c.extractLsb' 0 4 = c.extractLsb' 0 32 :=
    BitVec.extractLsb'_append_extractLsb'_eq_extractLsb' rfl
  calc c = c.extractLsb' 0 32 := BitVec.extractLsb'_eq_self.symm
    _ = 0#28 ++ c.extractLsb' 0 4 := by rw [← hc, h]
    _ = (c.extractLsb' 0 4).zeroExtend 32 := (BitVec.setWidth_eq_append (by decide)).symm

/-- A word selects a command exactly when no reserved bit is set and its OP is at most 4. -/
theorem exists_decodeCommand_eq_ok_iff {c : Word} :
    (∃ n, decodeCommand c = .ok n) ↔ c.extractLsb' 4 28 = 0#28 ∧ (c.extractLsb' 0 4).toNat ≤ 4 := by
  rcases decodeCommand_cases c with ⟨hr, e⟩ | ⟨hr, ⟨ho, e⟩ | ⟨ho, e⟩ | ⟨ho, e⟩ | ⟨ho, e⟩ | ⟨ho, e⟩ | ⟨ho, e⟩⟩
  · exact iff_of_false (by simp [e]) fun h => hr h.1
  iterate 5 exact iff_of_true ⟨_, e⟩ ⟨hr, by omega⟩
  · exact iff_of_false (by simp [e]) fun h => absurd h.2 (by omega)

/-- What selects a command is an OP of at most 4, zero-extended (30_encoding R50). -/
theorem exists_decodeCommand_eq_ok_iff_zeroExtend {c : Word} :
    (∃ n, decodeCommand c = .ok n) ↔ ∃ op : BitVec 4, op.toNat ≤ 4 ∧ c = op.zeroExtend 32 := by
  rw [exists_decodeCommand_eq_ok_iff]
  constructor
  · rintro ⟨hr, ho⟩
    exact ⟨_, ho, eq_zeroExtend_of_reserved_clear hr⟩
  · rintro ⟨op, ho, rfl⟩
    exact ⟨extractLsb'_high_zeroExtend op, by rwa [extractLsb'_low_zeroExtend]⟩

/-- What a word decodes to has that word. -/
theorem word_of_decodeCommand {c : Word} {n : CommandName} (h : decodeCommand c = .ok n) : n.word = c := by
  have all : ∀ op : BitVec 4, decodeCommand (op.zeroExtend 32) = .ok n → n.word = op.zeroExtend 32 := by
    cases n <;> decide
  obtain ⟨op, -, rfl⟩ := exists_decodeCommand_eq_ok_iff_zeroExtend.1 ⟨n, h⟩
  exact all op h

theorem decode_cmd_eq_ok_iff {c : Word} {i : Instr} :
    decode (.cmd c) = .ok i ↔ ∃ n, decodeCommand c = .ok n ∧ n.instr = i := by
  rw [decode]
  cases decodeCommand c <;> simp [Except.map]

theorem encode_commandName (n : CommandName) : encode n.instr = .cmd n.word := by
  cases n <;> rfl

/-- Settles O2: the commands by their words, the transactions by the row that selects them. -/
theorem decodedCodeIsTheEncoding : Obligations.DecodedCodeIsTheEncoding := by
  refine ⟨fun c i h => ?_, fun t i h => encode_of_decodeBus h⟩
  obtain ⟨n, hn, rfl⟩ := decode_cmd_eq_ok_iff.1 h
  rw [encode_commandName, word_of_decodeCommand hn]

/-- Settles O6: each word and descriptor by evaluation. -/
theorem specWordsDecode : Obligations.SpecWordsDecode := by
  unfold Obligations.SpecWordsDecode
  decide

end Sys2Proof

namespace Sys2Proof.Machine

/-! ### What a CMD write runs -/

/-- WR CMD of a command's word is that command (30_encoding R48). -/
theorem exec_wrCmd_of_decodeCommand {c : Word} {n : CommandName} (h : decodeCommand c = .ok n) (s : State) :
    exec (.wrCmd c) s = exec n.instr s := by
  cases n <;> simp [exec, execWrCmd, h, CommandName.instr]

/-- WR CMD of a word that selects no command is refused with ILLEGAL_CMD (60_exceptions R120). -/
theorem exec_wrCmd_of_not_command {c : Word} (h : ¬ ∃ n, decodeCommand c = .ok n) {s : State} (hb : s.busy = false) :
    exec (.wrCmd c) s = .next (s.refuseCommand .illegalCmd) := by
  cases hd : decodeCommand c with
  | ok n => exact absurd ⟨n, hd⟩ h
  | error e => simp [exec, execWrCmd, hd, writeRegister_idle hb]

/-- The command decoder writes 0, KEY_NOT_LOADED or CHAIN_NOT_LOADED to ERR for a cipher command. -/
theorem presentCommand_err_ne_illegalCmd (op : Op) (s : State) : (presentCommand op s).err ≠ 0x1#4 := by
  rcases presentCommand_cases op s with ⟨-, e⟩ | ⟨-, -, -, e⟩ | ⟨-, -, e⟩ <;> simp [e, CommandError.code, errNone]

/-- A command on an idle core goes on, and ERR is not ILLEGAL_CMD. -/
theorem exec_command_idle (n : CommandName) {s : State} (hb : s.busy = false) :
    ∃ t, exec n.instr s = .next t ∧ t.err ≠ 0x1#4 := by
  cases n with
  | nop => exact ⟨_, writeRegister_idle hb .., by simp [errNone]⟩
  | encipher | decipher | cbcEnc | cbcDec =>
    exact ⟨_, writeRegister_idle hb .., presentCommand_err_ne_illegalCmd _ s⟩

/-- Settles O4: the words refused are those that select no command. -/
theorem illegalCommandWordsAreRefused : Obligations.IllegalCommandWordsAreRefused := by
  refine fun s c hb => ⟨fun hc => exec_wrCmd_of_not_command (fun h => ?_) hb, fun hc => ?_⟩
  · obtain ⟨hr, ho⟩ := exists_decodeCommand_eq_ok_iff.1 h
    exact hc.elim (absurd hr) (by omega)
  · obtain ⟨hr, ho⟩ := not_or.1 hc
    obtain ⟨n, hn⟩ := exists_decodeCommand_eq_ok_iff.2 ⟨not_not.1 hr, by omega⟩
    rw [exec_wrCmd_of_decodeCommand hn]
    exact exec_command_idle n hb

/-- Settles O3: the last clause is an illegal word by its OP. -/
theorem commandWordsSelectFiveCommands : Obligations.CommandWordsSelectFiveCommands := by
  refine ⟨fun c => exists_decodeCommand_eq_ok_iff_zeroExtend, rfl, rfl, rfl, rfl, rfl, fun s op hb ho => ?_⟩
  obtain ⟨refused, -⟩ := illegalCommandWordsAreRefused s (op.zeroExtend 32) hb
  exact refused (.inr (by rwa [extractLsb'_low_zeroExtend]))

/-! ### A step and a transaction -/

/-- The step of a configuration runs the instruction that the transaction at the head decodes to. -/
theorem stepWith_of_decodeBus {cfg : Configuration} {s : State} {t : Transaction} {rest : List Event} {i : Instr}
    (hs : s.schedule = .host t :: rest) (hd : decodeBus t = .ok i) :
    stepWith cfg s = exec i (s.withSchedule rest) := by
  rw [stepWith, hs]
  exact deliver_host hd _

/-- Settles O9: the step behind the host's interface is that of the standard configuration. -/
theorem stepRunsTheDecodedInstruction : Obligations.StepRunsTheDecodedInstruction := by
  refine ⟨fun _ _ _ _ hs hd => stepWith_of_decodeBus hs hd, fun _ _ _ _ _ hs hd => stepWith_of_decodeBus hs hd,
    fun s c i h => ?_⟩
  obtain ⟨n, hn, rfl⟩ := decode_cmd_eq_ok_iff.1 h
  exact exec_wrCmd_of_decodeCommand hn s

/-- While BUSY every instruction but RD STATUS is a hazard fault that names the access it is encoded as. -/
theorem exec_busy {i : Instr} (hi : i ≠ .rdStatus) {s : State} (hb : s.busy = true) :
    exec i s = .fault (.hazard (encode i).transaction.off (encode i).transaction.write) := by
  cases i with
  | rdStatus => exact absurd rfl hi
  | wrCmd c =>
    change execWrCmd c s = _
    unfold execWrCmd
    split <;> exact guardIdle_busy hb ..
  | _ => exact guardIdle_busy hb ..

/-- A transaction of a wrong width or a misaligned offset is a bus error, whatever the core does. -/
theorem hostTurn_of_not_wellFormed {t : Transaction} (h : ¬ (t.width = 4 ∧ t.off.extractLsb' 0 2 = 0#2)) (s : State) :
    hostTurn t s = .fault (.busError t.off) := by
  cases hd : decodeBus t with
  | ok i =>
    obtain ⟨hw, ha, -⟩ := decodeBus_ok hd
    exact absurd ⟨hw, ha⟩ h
  | error e => simp [hostTurn, hd, raiseBusError]

/-- Past width and alignment a transaction runs the instruction of the row that selects its descriptor. -/
theorem hostTurn_aligned {t : Transaction} (hw : t.width = 4) (ha : t.off.extractLsb' 0 2 = 0#2) (s : State) :
    ∃ i, decodeRow t.descriptor t.data = .ok i ∧ hostTurn t s = exec i s ∧
      (encode i).transaction.descriptor = t.descriptor ∧ (i = .rdStatus ↔ t.descriptor = 0x2C#7) := by
  obtain ⟨i, hi, hdesc, hstatus⟩ := decodeRow_aligned t.descriptor t.data (t.descriptor_low.trans ha)
  exact ⟨i, hi, by simp [hostTurn, decodeBus_aligned hw ha, hi], hdesc, hstatus⟩

/-- Settles O7: past width and alignment only the row of 0x2C goes on while BUSY. -/
theorem transactionChecksInOrder : Obligations.TransactionChecksInOrder := by
  refine fun s t => ⟨fun hw => hostTurn_of_not_wellFormed (fun h => hw h.1) s,
    fun _ ha => hostTurn_of_not_wellFormed (fun h => ha h.2) s, fun hw ha hb hne => ?_, fun hw ha _ => ?_⟩
  · obtain ⟨i, -, hrun, hdesc, hstatus⟩ := hostTurn_aligned hw ha s
    obtain ⟨hwrite, hoff⟩ := Transaction.descriptor_inj hdesc
    rw [hrun, exec_busy (mt hstatus.1 hne) hb, hwrite, hoff]
  · obtain ⟨i, hi, hrun, -⟩ := hostTurn_aligned hw ha s
    exact ⟨i, hi, hrun⟩

/-! ### The host's poll -/

/-- STATUS bit 0 is BUSY (10_state R22). -/
theorem statusWord_getElem_zero (s : State) : (statusWord s)[0] = s.busy :=
  (BitVec.getElem_append (n := 31) (m := 1) (by decide)).trans (by simp)

/-- After a STATUS read the host's last STATUS value shows BUSY. -/
theorem lastStatusBusy_recordRead (s : State) :
    lastStatusBusy (s.recordRead statusOff (statusWord s)) = s.busy := by
  simp [lastStatusBusy, lastRead_append, statusWord_getElem_zero]

/-- Settles O51: the value a poll ends on is the one it has just recorded. -/
theorem waitEndsWhenNotBusy : Obligations.WaitEndsWhenNotBusy := by
  intro cfg y rest h
  simp only [System.turn, h, deliver_rdStatus, andThen_next, lastStatusBusy_recordRead]
  rfl

end Sys2Proof.Machine
end

section
/-! The statements of 40_block_cipher: the cipher commands without the chain, where the configuration acts, and the two
directions of the cipher, cycle by cycle. -/

namespace Sys2Proof.Machine

/-! ### A cipher command, from its presentation to its completion -/

/-- The instruction of an operation, for what the four cipher commands share. -/
def Op.instr : Op → Instr
  | .encipher => .encipher
  | .decipher => .decipher
  | .cbcEnc => .cbcEnc
  | .cbcDec => .cbcDec

theorem exec_opInstr (op : Op) (s : State) :
    exec op.instr s = writeRegister cmdOff (presentCommand op s) s := by
  cases op <;> rfl

theorem exec_opInstr_busy (op : Op) {s : State} (hb : s.busy = true) :
    exec op.instr s = .fault (.hazard cmdOff true) :=
  (exec_opInstr op s).trans (guardIdle_busy hb ..)

theorem exec_opInstr_idle (op : Op) {s : State} (hb : s.busy = false) :
    exec op.instr s = .next (presentCommand op s) :=
  (exec_opInstr op s).trans (writeRegister_idle hb ..)

/-- Without the whole key a cipher command is refused, whatever the chain (60_exceptions R121, R123). -/
theorem presentCommand_of_keyv_ne (op : Op) {s : State} (hk : s.keyv ≠ 0b1111#4) :
    presentCommand op s = s.refuseCommand .keyNotLoaded := by
  rcases presentCommand_cases op s with ⟨-, e⟩ | ⟨h, -⟩ | ⟨h, -⟩
  · exact e
  · exact absurd h hk
  · exact absurd h hk

/-- With the key, and the chain where it is read, a cipher command is accepted. -/
theorem presentCommand_of_loaded {op : Op} {s : State} (hk : s.keyv = 0b1111#4)
    (hc : op.needsChain = true → s.chv = 0b11#2) : presentCommand op s = s.accept op := by
  rcases presentCommand_cases op s with ⟨h, -⟩ | ⟨-, hn, h, -⟩ | ⟨-, -, e⟩
  · exact absurd hk h
  · exact absurd (hc hn) h
  · exact e

theorem exec_opInstr_keyNotLoaded (op : Op) {s : State} (hb : s.busy = false) (hk : s.keyv ≠ 0b1111#4) :
    exec op.instr s = .next (s.refuseCommand .keyNotLoaded) := by
  rw [exec_opInstr_idle op hb, presentCommand_of_keyv_ne op hk]

theorem exec_opInstr_accepted {op : Op} {s : State} (hb : s.busy = false) (hk : s.keyv = 0b1111#4)
    (hc : op.needsChain = true → s.chv = 0b11#2) : exec op.instr s = .next (s.accept op) := by
  rw [exec_opInstr_idle op hb, presentCommand_of_loaded hk hc]

/-- The engine's turn after an acceptance completes the command from the registers it was accepted with. -/
theorem deliver_engine_accept (cfg : Configuration) (s : State) (op : Op) :
    deliver cfg .engine (s.accept op) =
      .next (completePending cfg ⟨op, s.key, s.chain, s.din⟩ (s.accept op)) := rfl

/-- Settles O13: ENCIPHER reads no chain. -/
theorem encipherCommand : Obligations.EncipherCommand :=
  ⟨rfl, fun cfg s => ⟨exec_opInstr_busy .encipher, exec_opInstr_keyNotLoaded .encipher, fun hb hk =>
    ⟨_, exec_opInstr_accepted (op := .encipher) hb hk (fun hn => nomatch hn), rfl,
      deliver_engine_accept cfg s .encipher⟩⟩⟩

/-- Settles O14: DECIPHER reads no chain. -/
theorem decipherCommand : Obligations.DecipherCommand :=
  ⟨rfl, fun cfg s => ⟨exec_opInstr_busy .decipher, exec_opInstr_keyNotLoaded .decipher, fun hb hk =>
    ⟨_, exec_opInstr_accepted (op := .decipher) hb hk (fun hn => nomatch hn), rfl,
      deliver_engine_accept cfg s .decipher⟩⟩⟩

/-! ### Where the configuration acts -/

/-- The engine reads the variant alone of its configuration. -/
theorem engineTurn_of_variant_eq {c d : Configuration} (h : c.variant = d.variant) (s : State) :
    engineTurn c s = engineTurn d s := by
  simp only [engineTurn, completePending, h]

theorem engineTurn_of_pending_eq_none (cfg : Configuration) {s : State} (h : s.pending = none) :
    engineTurn cfg s = s := by
  simp [engineTurn, h]

/-- Two configurations whose engines do the same with what is pending have the same step: nothing else reads the
configuration. -/
theorem stepWith_of_engineTurn_eq {c d : Configuration} {s : State}
    (h : ∀ t : State, t.pending = s.pending → engineTurn c t = engineTurn d t) : stepWith c s = stepWith d s := by
  unfold stepWith
  split
  · exact congrArg _ (h s rfl)
  next e rest _ =>
    cases e with
    | host | reset => rfl
    | engine => exact congrArg _ (h (s.withSchedule rest) rfl)

/-- Settles O38: a transaction and a reset are delivered with no look at the configuration; the other steps are the
engine's. -/
theorem configurationActsOnlyAtCompletion : Obligations.ConfigurationActsOnlyAtCompletion := by
  refine fun c d s => ⟨?_, fun hv => stepWith_of_engineTurn_eq fun t _ => engineTurn_of_variant_eq hv t⟩
  rintro (hp | ⟨t, rest, hs⟩ | ⟨rest, hs⟩)
  · refine stepWith_of_engineTurn_eq fun t ht => ?_
    rw [engineTurn_of_pending_eq_none c (ht.trans hp), engineTurn_of_pending_eq_none d (ht.trans hp)]
  · simp only [stepWith, hs, deliver]
  · simp only [stepWith, hs, deliver]

/-! ### Cycles -/

theorem cycles_eq_iterate (f : Working → Working) (n : Nat) : cycles f n = f^[n] := by
  induction n with
  | zero => rfl
  | succ n ih => exact funext fun w => congrFun ih (f w)

/-- One cycle more is done last. -/
theorem cycles_succ (f : Working → Working) (n : Nat) (w : Working) :
    cycles f (n + 1) w = f (cycles f n w) := by
  simp only [cycles_eq_iterate, Function.iterate_succ_apply']

/-- Cycles that undo one another, undo one another as many times. -/
theorem cycles_leftInverse {f g : Working → Working} (h : Function.LeftInverse g f) (n : Nat) :
    Function.LeftInverse (cycles g n) (cycles f n) := by
  simpa only [cycles_eq_iterate] using h.iterate n

theorem encCycle_sum (rv : RoundVariant) (k : Key) (w : Working) : (encCycle rv k w).sum = w.sum + delta := by
  cases rv <;> rfl

theorem decCycle_sum (rv : RoundVariant) (k : Key) (w : Working) : (decCycle rv k w).sum = w.sum - delta := by
  cases rv <;> rfl

/-- A decipher cycle takes back what the encipher cycle added, in the opposite order (40_block_cipher R67, R69). -/
theorem decCycle_encCycle (rv : RoundVariant) (k : Key) : Function.LeftInverse (decCycle rv k) (encCycle rv k) := by
  intro w
  cases rv with
  | xtea => simp only [decCycle, encCycle, xteaDecCycle, xteaEncCycle, BitVec.add_sub_cancel]
  | tea => simp only [decCycle, encCycle, teaDecCycle, teaEncCycle, BitVec.add_sub_cancel]

/-- An encipher cycle adds again what the decipher cycle took. -/
theorem encCycle_decCycle (rv : RoundVariant) (k : Key) : Function.LeftInverse (encCycle rv k) (decCycle rv k) := by
  intro w
  cases rv with
  | xtea => simp only [decCycle, encCycle, xteaDecCycle, xteaEncCycle, BitVec.sub_add_cancel]
  | tea => simp only [decCycle, encCycle, teaDecCycle, teaEncCycle, BitVec.sub_add_cancel]

/-- `DELTA * n`, one cycle on. -/
theorem delta_mul_succ (n : Nat) : delta * BitVec.ofNat 32 (n + 1) = delta * BitVec.ofNat 32 n + delta := by
  rw [BitVec.ofNat_add, BitVec.mul_add, BitVec.mul_one]

theorem cycles_encCycle_sum (rv : RoundVariant) (k : Key) (n : Nat) (w : Working) :
    (cycles (encCycle rv k) n w).sum = w.sum + delta * BitVec.ofNat 32 n := by
  induction n with
  | zero => simp [cycles]
  | succ n ih => rw [cycles_succ, encCycle_sum, ih, delta_mul_succ, BitVec.add_assoc]

theorem cycles_decCycle_sum (rv : RoundVariant) (k : Key) (n : Nat) (w : Working) :
    (cycles (decCycle rv k) n w).sum = w.sum - delta * BitVec.ofNat 32 n := by
  induction n with
  | zero => simp [cycles]
  | succ n ih => rw [cycles_succ, decCycle_sum, ih, delta_mul_succ, sub_add_eq_sub_sub]

/-! ### The working values of a cipher, after n cycles -/

theorem Working.load_block_sum (w : Working) : Working.load w.block w.sum = w := rfl

/-- The working values of `Encipher(K, B)` after `n` cycles. -/
def encAfter (rv : RoundVariant) (k : Key) (b : Block) (n : Nat) : Working :=
  cycles (encCycle rv k) n (Working.load b 0#32)

/-- The working values of `Decipher(K, B)` after `n` cycles. -/
def decAfter (rv : RoundVariant) (k : Key) (b : Block) (n : Nat) : Working :=
  cycles (decCycle rv k) n (Working.load b decSum0)

section
variable (rv : RoundVariant) (k : Key) (b : Block)

theorem encAfter_succ (n : Nat) : encAfter rv k b (n + 1) = encCycle rv k (encAfter rv k b n) := cycles_succ ..

theorem decAfter_succ (n : Nat) : decAfter rv k b (n + 1) = decCycle rv k (decAfter rv k b n) := cycles_succ ..

/-- The forward sum, 40_block_cipher R74. -/
theorem encAfter_sum (n : Nat) : (encAfter rv k b n).sum = delta * BitVec.ofNat 32 n :=
  (cycles_encCycle_sum ..).trans (BitVec.zero_add _)

/-- The backward sum, 40_block_cipher R74. -/
theorem decAfter_sum (n : Nat) : (decAfter rv k b n).sum = decSum0 - delta * BitVec.ofNat 32 n :=
  cycles_decCycle_sum ..

/-- The backward sum is the forward one of as many cycles as are left. -/
theorem decAfter_sum_of_add_eq {m n : Nat} (h : m + n = 32) :
    (decAfter rv k b n).sum = delta * BitVec.ofNat 32 m := by
  have hd : decSum0 = delta * BitVec.ofNat 32 m + delta * BitVec.ofNat 32 n := by
    rw [← BitVec.mul_add, ← BitVec.ofNat_add, h]
    rfl
  rw [decAfter_sum, hd, BitVec.add_sub_cancel]

/-- Encipher ends with its block and the sum that decipher starts from. -/
theorem encAfter_numCycles : encAfter rv k b numCycles = Working.load (encipher rv k b) decSum0 := by
  have hs : (encAfter rv k b numCycles).sum = decSum0 := encAfter_sum ..
  rw [← hs, encipher, ← encAfter, Working.load_block_sum]

/-- Decipher ends with its block and the sum that encipher starts from. -/
theorem decAfter_numCycles : decAfter rv k b numCycles = Working.load (decipher rv k b) 0#32 := by
  have hs : (decAfter rv k b numCycles).sum = 0#32 := (decAfter_sum ..).trans (BitVec.sub_self _)
  rw [← hs, decipher, ← decAfter, Working.load_block_sum]

theorem decipher_encipher : decipher rv k (encipher rv k b) = b := by
  rw [decipher, ← encAfter_numCycles, encAfter, cycles_leftInverse (decCycle_encCycle rv k)]
  rfl

theorem encipher_decipher : encipher rv k (decipher rv k b) = b := by
  rw [encipher, ← decAfter_numCycles, decAfter, cycles_leftInverse (encCycle_decCycle rv k)]
  rfl

end

/-- Settles O41: the cycles of one direction undo those of the other. -/
theorem decipherInvertsEncipher : Obligations.DecipherInvertsEncipher :=
  fun rv k b => ⟨decipher_encipher rv k b, encipher_decipher rv k b⟩

/-- DEC_SUM0 as the spec writes it out, 00_scope R5. -/
theorem decSum0_eq : decSum0 = 0xC6EF3720#32 := by decide

/-- Settles O42: the words are those of `encAfter` and `decAfter`, whose sums are those of R74; with these sums a cycle
is its formula as it stands. -/
theorem sumRunsForwardAndBackward : Obligations.SumRunsForwardAndBackward := by
  refine ⟨fun rv k b n => ⟨encAfter_sum rv k b n, ?_, encAfter_sum rv k b 32, decSum0_eq,
    congrArg Working.sum (decAfter_numCycles rv k b)⟩, fun k b => ?_⟩
  · rw [← decSum0_eq]
    exact decAfter_sum rv k b n
  intro s f g low high
  have enc (rv : RoundVariant) (n : Nat) : (encAfter rv k b n).sum = s n := encAfter_sum rv k b n
  have dec (rv : RoundVariant) (n m : Nat) (h : m + n = 32) : (decAfter rv k b n).sum = s m :=
    decAfter_sum_of_add_eq rv k b h
  refine ⟨⟨fun n => (encAfter .xtea k b n).v0, fun n => (encAfter .xtea k b n).v1, rfl, rfl, rfl, fun n _ => ?_⟩,
    ⟨fun n => (decAfter .xtea k b n).v0, fun n => (decAfter .xtea k b n).v1, rfl, rfl, rfl, fun n hn => ?_⟩,
    ⟨fun n => (encAfter .tea k b n).v0, fun n => (encAfter .tea k b n).v1, rfl, rfl, rfl, fun n _ => ?_⟩,
    ⟨fun n => (decAfter .tea k b n).v0, fun n => (decAfter .tea k b n).v1, rfl, rfl, rfl, fun n hn => ?_⟩⟩
  · rw [← enc .xtea n, ← enc .xtea (n + 1)]
    simp only [encAfter_succ]
    exact ⟨rfl, rfl⟩
  · rw [← dec .xtea n (32 - n) (by omega), ← dec .xtea (n + 1) (31 - n) (by omega)]
    simp only [decAfter_succ]
    exact ⟨rfl, rfl⟩
  · rw [← enc .tea (n + 1)]
    simp only [encAfter_succ]
    exact ⟨rfl, rfl⟩
  · rw [← dec .tea n (32 - n) (by omega)]
    simp only [decAfter_succ]
    exact ⟨rfl, rfl⟩

end Sys2Proof.Machine

end

section
/-! The statements of 41_cbc_chain: the two CBC commands, where CHAIN changes, and streams of blocks on the core. -/

namespace Sys2Proof

/-! ### Words of the key and of a block -/

/-- Four key writes, in order, make the whole key (10_state R14). -/
theorem Key.setWord_all (q k : Key) :
    (((q.setWord 0#2 k.k0).setWord 1#2 k.k1).setWord 2#2 k.k2).setWord 3#2 k.k3 = k := rfl

theorem Block.setWord_all (q b : Block) : (q.setWord 0#1 b.w0).setWord 1#1 b.w1 = b := rfl

theorem decodeBus_rdChain (i : BitVec 1) : decodeBus (busRead32 (chainOff i)) = .ok (.rdChain i) := by
  rcases wordIndex1_cases i with rfl | rfl <;> rfl

end Sys2Proof

namespace Sys2Proof.Machine

/-! ### The CBC commands -/

/-- With the key but not the whole chain, a command that reads CHAIN is refused for it (60_exceptions R122). -/
theorem presentCommand_of_chv_ne {op : Op} (hn : op.needsChain = true) {s : State} (hk : s.keyv = 0b1111#4)
    (hc : s.chv ≠ 0b11#2) : presentCommand op s = s.refuseCommand .chainNotLoaded := by
  rcases presentCommand_cases op s with ⟨h, -⟩ | ⟨-, -, -, e⟩ | ⟨-, h, -⟩
  · exact absurd hk h
  · exact e
  · exact absurd (h hn) hc

theorem exec_opInstr_chainNotLoaded {op : Op} (hn : op.needsChain = true) {s : State} (hb : s.busy = false)
    (hk : s.keyv = 0b1111#4) (hc : s.chv ≠ 0b11#2) :
    exec op.instr s = .next (s.refuseCommand .chainNotLoaded) := by
  rw [exec_opInstr_idle op hb, presentCommand_of_chv_ne hn hk hc]

/-- Settles O15: the completion takes `EncryptStep` of the registers at acceptance. -/
theorem cbcEncCommand : Obligations.CbcEncCommand :=
  ⟨rfl, fun cfg s => ⟨exec_opInstr_busy .cbcEnc, exec_opInstr_keyNotLoaded .cbcEnc,
    exec_opInstr_chainNotLoaded (op := .cbcEnc) rfl, fun hb hk hc =>
      ⟨_, exec_opInstr_accepted (op := .cbcEnc) hb hk (fun _ => hc), rfl, deliver_engine_accept cfg s .cbcEnc⟩⟩⟩

/-- Settles O16: the completion takes `DecryptStep` of the registers at acceptance. -/
theorem cbcDecCommand : Obligations.CbcDecCommand :=
  ⟨rfl, fun cfg s => ⟨exec_opInstr_busy .cbcDec, exec_opInstr_keyNotLoaded .cbcDec,
    exec_opInstr_chainNotLoaded (op := .cbcDec) rfl, fun hb hk hc =>
      ⟨_, exec_opInstr_accepted (op := .cbcDec) hb hk (fun _ => hc), rfl, deliver_engine_accept cfg s .cbcDec⟩⟩⟩

/-! ### What changes CHAIN -/

theorem Op.needsChain_iff {op : Op} : op.needsChain = true ↔ op = .cbcEnc ∨ op = .cbcDec := by
  cases op <;> decide

/-- Of the instructions only WR CHAINi writes CHAIN; an accepted CBC command does not, before its completion. -/
theorem Effect.chain_eq_or_wrChain {s t : State} {i : Instr} (e : Effect s i t) :
    t.chain = s.chain ∨ ∃ j v, i = .wrChain j v := by
  cases e with
  | chain j v => exact .inr ⟨j, v, rfl⟩
  | _ => exact .inl rfl

/-- A turn of the engine writes CHAIN only at the completion of a CBC command (42_register_access R101). -/
theorem cbc_pending_of_engineTurn_chain_ne {cfg : Configuration} {s : State}
    (h : (engineTurn cfg s).chain ≠ s.chain) : ∃ p, s.pending = some p ∧ (p.op = .cbcEnc ∨ p.op = .cbcDec) := by
  rcases engineTurn_cases cfg s with ⟨-, e⟩ | ⟨p, r, c, hp, e, hc⟩
  · exact absurd (congrArg State.chain e) h
  · cases hn : p.op.needsChain with
    | true => exact ⟨p, hp, Op.needsChain_iff.1 hn⟩
    | false => exact absurd ((congrArg State.chain e).trans (hc hn)) h

/-- A command that leaves an error code at the decoder has been refused with it (60_exceptions R118). -/
theorem exec_opInstr_refused {op : Op} {s t : State} (h : exec op.instr s = .next t) (he : t.err ≠ 0x0#4) :
    ∃ e, t = s.refuseCommand e := by
  obtain ⟨-, rfl⟩ := writeRegister_eq_next.1 ((exec_opInstr op s).symm.trans h)
  rcases presentCommand_cases op s with ⟨-, e⟩ | ⟨-, -, -, e⟩ | ⟨-, -, e⟩
  · exact ⟨_, e⟩
  · exact ⟨_, e⟩
  · exact absurd (congrArg State.err e) he

/-- Settles O35: the engine, a transaction and a reset each write CHAIN in one way only; and a refusal writes ERR and
STICKY alone. -/
theorem chainChangesOnlyThere : Obligations.ChainChangesOnlyThere := by
  refine ⟨fun cfg s t hs hne => ?_, fun s t h he => ?_⟩
  · rcases stepWith_cases hs with ⟨h, rfl⟩ | ⟨rest, h, rfl⟩ | ⟨rest, h, -⟩ | ⟨tr, rest, i, h, hd, e⟩
    · obtain ⟨p, hp, hop⟩ := cbc_pending_of_engineTurn_chain_ne hne
      exact .inr (.inr ⟨p, hp, hop, .inl h⟩)
    · obtain ⟨p, hp, hop⟩ := cbc_pending_of_engineTurn_chain_ne (s := s.withSchedule rest) hne
      exact .inr (.inr ⟨p, hp, hop, .inr ⟨rest, h⟩⟩)
    · exact .inl ⟨rest, h⟩
    · obtain ⟨j, v, rfl⟩ := e.chain_eq_or_wrChain.resolve_left hne
      exact .inr (.inl ⟨tr, rest, j, v, h, hd⟩)
  · obtain ⟨e, rfl⟩ : ∃ e, t = s.refuseCommand e :=
      h.elim (exec_opInstr_refused (op := .cbcEnc) · he) (exec_opInstr_refused (op := .cbcDec) · he)
    exact ⟨rfl, rfl, rfl⟩

/-! ### A stream on the core -/

/-- A core in the middle of a stream: it takes any command, with the stream's key and its chaining value. -/
structure State.HoldsStream (s : State) (k : Key) (c : Block) : Prop where
  ready : s.Ready
  key : s.key = k
  chain : s.chain = c

variable {cfg : Configuration}

theorem BlockDone.holdsStream {d e : Driven} {c : Block} (h : BlockDone d e c) : e.core.HoldsStream d.core.key c :=
  ⟨h.ready, h.key, h.chain⟩

/-- A command that takes one block through the step function `f` from every core that holds the stream of a key takes
a list of blocks through `f`, one after the other. `out` is the list of the blocks that `f` gives. -/
theorem processBlocks_of_step {n : CommandName} {k : Key} {f : Block → Block → Block × Block}
    {out : Block → List Block → List Block}
    (hf : ∀ (d : Driven) (c b : Block), d.core.HoldsStream k c →
      ∃ e, processBlock cfg n b d = .next ((f b c).1, e) ∧ e.core.HoldsStream k (f b c).2)
    (hnil : ∀ c, out c [] = []) (hcons : ∀ c b bs, out c (b :: bs) = (f b c).1 :: out (f b c).2 bs)
    (bs : List Block) {d : Driven} {c : Block} (h : d.core.HoldsStream k c) :
    ∃ e, processBlocks cfg n bs d = .next (out c bs, e) ∧
      e.core.HoldsStream k (bs.foldl (fun c b => (f b c).2) c) := by
  induction bs generalizing d c with
  | nil => exact ⟨d, by rw [hnil]; rfl, h⟩
  | cons b bs ih =>
    obtain ⟨e, he, hs⟩ := hf d c b h
    obtain ⟨e', he', hs'⟩ := ih hs
    exact ⟨e', by rw [processBlocks, he, andThen_next, he', andThen_next, hcons], hs'⟩

/-- The chaining value after an encryption is the last ciphertext block (41_cbc_chain R77). -/
theorem foldl_encryptStep (rv : RoundVariant) (k : Key) (ps : List Block) (c : Block) :
    ps.foldl (fun c b => (encryptStep rv k b c).2) c = (encryptBlocks rv k c ps).getLastD c := by
  induction ps generalizing c with
  | nil => rfl
  | cons p ps ih =>
    rw [List.foldl_cons, ih, encryptBlocks, List.getLastD_cons]
    rfl

/-- The chaining value after a decryption is the last ciphertext block consumed (41_cbc_chain R78). -/
theorem foldl_decryptStep (rv : RoundVariant) (k : Key) (cs : List Block) (c : Block) :
    cs.foldl (fun c b => (decryptStep rv k b c).2) c = cs.getLastD c := by
  induction cs generalizing c with
  | nil => rfl
  | cons b cs ih =>
    rw [List.foldl_cons, ih, List.getLastD_cons]
    rfl

/-- CBC_ENC, once per block of a list. -/
theorem processBlocks_cbcEnc {d : Driven} {k : Key} {c : Block} (h : d.core.HoldsStream k c) (ps : List Block) :
    ∃ e, processBlocks cfg .cbcEnc ps d = .next (encryptBlocks cfg.variant k c ps, e) ∧
      e.core.HoldsStream k ((encryptBlocks cfg.variant k c ps).getLastD c) := by
  rw [← foldl_encryptStep]
  refine processBlocks_of_step (fun d c b h => ?_) (fun _ => rfl) (fun _ _ _ => rfl) ps h
  obtain ⟨hr, rfl, rfl⟩ := h
  obtain ⟨e, he, done⟩ := processBlock_cbcEnc hr b
  exact ⟨e, he, done.holdsStream⟩

/-- CBC_DEC, once per block of a list. -/
theorem processBlocks_cbcDec {d : Driven} {k : Key} {c : Block} (h : d.core.HoldsStream k c) (cs : List Block) :
    ∃ e, processBlocks cfg .cbcDec cs d = .next (decryptBlocks cfg.variant k c cs, e) ∧
      e.core.HoldsStream k (cs.getLastD c) := by
  rw [← foldl_decryptStep cfg.variant k]
  refine processBlocks_of_step (fun d c b h => ?_) (fun _ => rfl) (fun _ _ _ => rfl) cs h
  obtain ⟨hr, rfl, rfl⟩ := h
  obtain ⟨e, he, done⟩ := processBlock_cbcDec hr b
  exact ⟨e, he, done.holdsStream⟩

/-! ### The round trip -/

theorem blockXor_cancel (a b : Block) : blockXor (blockXor a b) b = a := by
  simp [blockXor]

theorem encryptBlocks_length (rv : RoundVariant) (k : Key) (c : Block) (ps : List Block) :
    (encryptBlocks rv k c ps).length = ps.length := by
  induction ps generalizing c with
  | nil => rfl
  | cons p ps ih => simp [encryptBlocks, ih]

/-- `DecryptStep` undoes `EncryptStep`, and both leave the ciphertext as the chaining value (41_cbc_chain R83). -/
theorem decryptStep_encryptStep (rv : RoundVariant) (k : Key) (p c : Block) :
    decryptStep rv k (encryptStep rv k p c).1 c = (p, (encryptStep rv k p c).2) := by
  simp only [decryptStep, encryptStep, decipher_encipher, blockXor_cancel]

theorem decryptBlocks_encryptBlocks (rv : RoundVariant) (k : Key) (c : Block) (ps : List Block) :
    decryptBlocks rv k c (encryptBlocks rv k c ps) = ps := by
  induction ps generalizing c with
  | nil => rfl
  | cons p ps ih => simp only [encryptBlocks, decryptBlocks, decryptStep_encryptStep, ih]

/-- Settles O44: both hosts end with the last ciphertext block as the chaining value. -/
theorem cbcRoundTripOnTheCore : Obligations.CbcRoundTripOnTheCore := by
  intro cfg d ps hd
  obtain ⟨d1, run, held⟩ := processBlocks_cbcEnc ⟨hd, rfl, rfl⟩ ps
  refine ⟨_, d1, run, rfl, encryptBlocks_length .., held.chain, fun d2 hd2 hk hc => ?_⟩
  obtain ⟨d3, run', held'⟩ := processBlocks_cbcDec (cfg := cfg) ⟨hd2, hk, hc⟩
    (encryptBlocks cfg.variant d.core.key d.core.chain ps)
  rw [decryptBlocks_encryptBlocks] at run'
  exact ⟨d3, run', held'.chain.trans held.chain.symm⟩

/-! ### Loading a stream and saving its chain -/

theorem markKeyWord_all (f : BitVec 4) :
    markKeyWord (markKeyWord (markKeyWord (markKeyWord f 0#2) 1#2) 2#2) 3#2 = 0b1111#4 := by
  revert f
  decide

theorem markChainWord_all (f : BitVec 2) : markChainWord (markChainWord f 0#1) 1#1 = 0b11#2 := by
  revert f
  decide

/-- `ldkey` and `ldiv` on an idle core load the key and the chain, and change nothing else (70_reset_and_hazards
R138). -/
theorem openStream_idle {s : State} (h : s.busy = false) (k : Key) (iv : Block) :
    openStream cfg k iv s = .next { s with key := k, keyv := 0b1111#4, chain := iv, chv := 0b11#2 } := by
  simp only [openStream, assemble, List.flatMap_cons, List.flatMap_nil, Stmt.expand, issueWrite, RegName.off,
    List.cons_append, List.nil_append, eventsOf, deliverAll_cons]
  simp only [deliver_wrKey, deliver_wrChain, h, State.setKeyWord_busy, State.setChainWord_busy, andThen_next,
    deliverAll_nil, deliverAll_cons]
  simp only [State.setKeyWord, State.setChainWord, markKeyWord_all, markChainWord_all, Key.setWord_all,
    Block.setWord_all, h]

/-- A stream that is opened on an idle core is held by it. -/
theorem openStream_holdsStream {s : State} (h : s.busy = false) (k : Key) (iv : Block) :
    ∃ t, openStream cfg k iv s = .next t ∧ t.HoldsStream k iv :=
  ⟨_, openStream_idle h k iv, ⟨h, rfl, rfl⟩, rfl, rfl⟩

theorem deliver_rdChain {s : State} (h : s.busy = false) (i : BitVec 1) :
    deliver cfg (.host (busRead32 (chainOff i))) s = .next (s.recordRead (chainOff i) (s.chain.word i)) :=
  (deliver_host (decodeBus_rdChain i) s).trans (readRegister_idle h ..)

/-- `getchain` on an idle core records the two words of CHAIN. -/
theorem getchain_idle {s : State} (h : s.busy = false) (n : Nat) :
    deliverAll cfg (eventsOf n (assemble [.getchain])) s =
      .next ((s.recordRead (chainOff 0#1) s.chain.w0).recordRead (chainOff 1#1) s.chain.w1) := by
  simp only [assemble, List.flatMap_cons, List.flatMap_nil, Stmt.expand, issueRead, RegName.off, List.append_nil,
    eventsOf, deliverAll_cons]
  rw [deliver_rdChain h, andThen_next, deliverAll_cons, deliver_rdChain (by exact h), andThen_next, deliverAll_nil]
  rfl

/-! ### The context switch -/

/-- A stream's blocks in the one direction or the other, CBC_DEC where `dec` is true. -/
theorem processBlocks_cbc (dec : Bool) {d : Driven} {k : Key} {c : Block} (h : d.core.HoldsStream k c)
    (bs : List Block) :
    ∃ e, processBlocks cfg (if dec = true then .cbcDec else .cbcEnc) bs d =
        .next (if dec = true then decryptBlocks cfg.variant k c bs else encryptBlocks cfg.variant k c bs, e) ∧
      e.core.Ready := by
  cases dec with
  | false =>
    obtain ⟨e, run, held⟩ := processBlocks_cbcEnc h bs
    exact ⟨e, run, held.ready⟩
  | true =>
    obtain ⟨e, run, held⟩ := processBlocks_cbcDec h bs
    exact ⟨e, run, held.ready⟩

/-- Settles O50: a core that holds a stream gives the stream's blocks, whatever it did before. -/
theorem contextSwitchKeepsTheStream : Obligations.ContextSwitchKeepsTheStream := by
  intro cfg d k v qs ps there here hd op out
  obtain ⟨s1, open1, held1⟩ := openStream_holdsStream (cfg := cfg)
    (s := (d.core.recordRead (chainOff 0#1) d.core.chain.w0).recordRead (chainOff 1#1) d.core.chain.w1)
    hd.notBusy k v
  obtain ⟨d2, run2, ready2⟩ := processBlocks_cbc there (d := ⟨s1, d.polls⟩) held1 qs
  obtain ⟨s3, open3, held3⟩ := openStream_holdsStream (cfg := cfg) ready2.notBusy d.core.key d.core.chain
  obtain ⟨d4, run4, -⟩ := processBlocks_cbc here (d := ⟨s3, d2.polls⟩) held3 ps
  exact ⟨_, s1, d2, s3, d4, getchain_idle hd.notBusy 0, by simp [chainOff], open1, run2, open3, run4⟩

end Sys2Proof.Machine

end

section
/-! The statements of 42_register_access: the command decoder, the engine's completion, each register's reads and
writes, and what a host sees of the key and of a pending command. -/

namespace Sys2Proof

/-! ### The row that selects a transaction's descriptor, by the word index it has -/

/-- The index is that of the offset where a row is masked for two index bits (30_encoding R55). -/
theorem decodeBus_of_row2 (f : BitVec 2 → Word → Instr) {m : BitVec 7}
    (hr : ⟨m, 0x73#7, fun d v => f (wordIndex2 d) v⟩ ∈ busRows) {t : Transaction} (hw : t.width = 4)
    (hs : t.descriptor &&& 0x73#7 = m) : decodeBus t = .ok (f (t.off.extractLsb' 2 2) t.data) := by
  rw [← wordIndex2_append t.write]
  exact decodeBus_of_mem_busRows hr hw hs

/-- The index is that of the offset where a row is masked for one index bit (30_encoding R55). -/
theorem decodeBus_of_row1 (f : BitVec 1 → Word → Instr) {m : BitVec 7}
    (hr : ⟨m, 0x7B#7, fun d v => f (wordIndex1 d) v⟩ ∈ busRows) {t : Transaction} (hw : t.width = 4)
    (hs : t.descriptor &&& 0x7B#7 = m) : decodeBus t = .ok (f (t.off.extractLsb' 2 1) t.data) := by
  rw [← wordIndex1_append t.write]
  exact decodeBus_of_mem_busRows hr hw hs

/-- A row with a full mask selects its match alone. -/
theorem decodeBus_of_row0 (f : Word → Instr) {m : BitVec 7} (hr : ⟨m, 0x7F#7, fun _ v => f v⟩ ∈ busRows)
    {t : Transaction} (hw : t.width = 4) (hs : t.descriptor = m) : decodeBus t = .ok (f t.data) :=
  decodeBus_of_mem_busRows hr hw ((BitVec.and_allOnes (w := 7)).trans hs)

/-! ### One word of the key or of a block -/

theorem Key.word_setWord (k : Key) (i j : BitVec 2) (v : Word) :
    (k.setWord i v).word j = if j = i then v else k.word j := by
  rcases wordIndex2_cases i with rfl | rfl | rfl | rfl <;> rcases wordIndex2_cases j with rfl | rfl | rfl | rfl <;> rfl

theorem Block.word_setWord (b : Block) (i j : BitVec 1) (v : Word) :
    (b.setWord i v).word j = if j = i then v else b.word j := by
  rcases wordIndex1_cases i with rfl | rfl <;> rcases wordIndex1_cases j with rfl | rfl <;> rfl

end Sys2Proof

namespace Sys2Proof.Machine

/-! ### The written flags, bit by bit -/

theorem getLsbD_or_one_shiftLeft {w i : Nat} (f : BitVec w) (hi : i < w) (n : Nat) :
    (f ||| (1#w <<< i)).getLsbD n = (f.getLsbD n || decide (i = n)) := by
  rw [← BitVec.twoPow_eq, BitVec.getLsbD_or, BitVec.getLsbD_twoPow, decide_eq_true hi, Bool.true_and]

/-- `KEYV[i] <- 1` sets bit `i` and leaves the others. -/
theorem getLsbD_markKeyWord (f : BitVec 4) (i : BitVec 2) (n : Nat) :
    (markKeyWord f i).getLsbD n = (f.getLsbD n || decide (i.toNat = n)) :=
  getLsbD_or_one_shiftLeft f i.isLt n

/-- `CHV[i] <- 1` sets bit `i` and leaves the other. -/
theorem getLsbD_markChainWord (f : BitVec 2) (i : BitVec 1) (n : Nat) :
    (markChainWord f i).getLsbD n = (f.getLsbD n || decide (i.toNat = n)) :=
  getLsbD_or_one_shiftLeft f i.isLt n

/-! ### NOP and WR CMD -/

theorem exec_nop_idle {s : State} (hb : s.busy = false) : exec .nop s = .next { s with err := 0x0#4 } :=
  writeRegister_idle hb ..

/-- Settles O12: NOP is a write of CMD that clears ERR. -/
theorem nopClearsErrOnly : Obligations.NopClearsErrOnly :=
  ⟨rfl, fun _ => ⟨exec_busy (i := .nop) (by simp), exec_nop_idle⟩⟩

/-- The command decoder for a cipher command, as the checks of 60_exceptions R121 to R123 in their order. -/
theorem presentCommand_eq_ite (op : Op) (s : State) : presentCommand op s =
    if s.keyv ≠ 0b1111#4 then s.refuseCommand .keyNotLoaded
    else if op.needsChain = true ∧ s.chv ≠ 0b11#2 then s.refuseCommand .chainNotLoaded
    else s.accept op := by
  rcases presentCommand_cases op s with ⟨hk, e⟩ | ⟨hk, hn, hc, e⟩ | ⟨hk, hc, e⟩
  · rw [e, if_pos hk]
  · rw [e, if_neg (not_not.2 hk), if_pos ⟨hn, hc⟩]
  · rw [e, if_neg (not_not.2 hk), if_neg fun h => h.2 (hc h.1)]

/-- WR CMD of a cipher command's word, on an idle core: the checks of 42_register_access R95 that are left. -/
theorem exec_wrCmd_cipher {c : Word} {n : CommandName} (op : Op) (hd : decodeCommand c = .ok n)
    (hn : n.instr = op.instr) {s : State} (hb : s.busy = false) : exec (.wrCmd c) s = .next (
      if s.keyv ≠ 0b1111#4 then { s with err := 0x2#4, sticky := true }
      else if op.needsChain = true ∧ s.chv ≠ 0b11#2 then { s with err := 0x3#4, sticky := true }
      else { s with err := 0x0#4, busy := true, doutValid := false,
                    pending := some ⟨op, s.key, s.chain, s.din⟩ }) := by
  rw [exec_wrCmd_of_decodeCommand hd, hn, exec_opInstr_idle op hb, presentCommand_eq_ite]
  rfl

/-- Settles O17: the cases of the command word, each cipher command by the checks that it reads. -/
theorem writeCmdFollowsItsPseudocode : Obligations.WriteCmdFollowsItsPseudocode := by
  refine ⟨fun t hw hs => decodeBus_of_row0 .wrCmd (by simp [busRows]) hw hs,
    fun s c => ⟨exec_busy (i := .wrCmd c) (by simp), fun hb => ?_⟩⟩
  rcases decodeCommand_cases c with ⟨hr, hd⟩ | ⟨hr, ⟨ho, hd⟩ | ⟨ho, hd⟩ | ⟨ho, hd⟩ | ⟨ho, hd⟩ | ⟨ho, hd⟩ | ⟨ho, hd⟩⟩
  · rw [exec_wrCmd_of_not_command (by simp [hd]) hb, if_pos (.inl hr)]
    rfl
  · rw [exec_wrCmd_of_decodeCommand hd, CommandName.instr, exec_nop_idle hb, ho]
    simp [hr]
  · rw [exec_wrCmd_cipher .encipher hd rfl hb, ho]
    simp [hr, Op.needsChain]
  · rw [exec_wrCmd_cipher .decipher hd rfl hb, ho]
    simp [hr, Op.needsChain]
  · rw [exec_wrCmd_cipher .cbcEnc hd rfl hb, ho]
    simp [hr, Op.needsChain]
  · rw [exec_wrCmd_cipher .cbcDec hd rfl hb, ho]
    simp [hr, Op.needsChain]
  · rw [exec_wrCmd_of_not_command (by simp [hd]) hb, if_pos (.inr (by omega))]
    rfl

/-! ### The completion -/

theorem deliver_engine_pending {cfg : Configuration} {s : State} {p : Pending} (h : s.pending = some p) :
    deliver cfg .engine s = .next (completePending cfg p s) := by
  simp [deliver, engineTurn, h]

/-- Settles O19: one case per operation. -/
theorem completionStep : Obligations.CompletionStep := by
  refine fun cfg => ⟨fun s hp => congrArg _ (engineTurn_of_pending_eq_none cfg hp), fun s p hp => ?_⟩
  rw [deliver_engine_pending hp]
  obtain ⟨op, k, c, d⟩ := p
  refine ⟨?_, ?_, ?_, ?_⟩ <;> rintro rfl
  · rfl
  · rfl
  · exact ⟨_, rfl, rfl⟩
  · exact ⟨_, rfl, rfl⟩

/-! ### The status word -/

/-- A field of a word that is put together from parts stands in it above the parts to its right. -/
theorem extractLsb'_append_of_high {v w len : Nat} {x : BitVec v} {y : BitVec w} {z : BitVec len} (i : Nat)
    (h : x.extractLsb' i len = z) : (x ++ y).extractLsb' (w + i) len = z := by
  rw [BitVec.extractLsb'_append_eq_of_le (Nat.le_add_right w i), Nat.add_sub_cancel_left, h]

/-- A field of one bit is that bit. -/
theorem getLsbD_of_extractLsb'_one {w i : Nat} {x : BitVec w} {b : Bool} (h : x.extractLsb' i 1 = BitVec.ofBool b) :
    x.getLsbD i = b := by
  simpa using congrArg (BitVec.getLsbD · 0) h

section
variable (s : State)

theorem statusWord_doutValid : (statusWord s).getLsbD 1 = s.doutValid :=
  getLsbD_of_extractLsb'_one <| extractLsb'_append_of_high 0 BitVec.extractLsb'_append_eq_right

theorem statusWord_keyv : (statusWord s).extractLsb' 2 4 = s.keyv :=
  extractLsb'_append_of_high 1 <| extractLsb'_append_of_high 0 BitVec.extractLsb'_append_eq_right

theorem statusWord_chv : (statusWord s).extractLsb' 6 2 = s.chv :=
  extractLsb'_append_of_high 5 <| extractLsb'_append_of_high 4 <| extractLsb'_append_of_high 0
    BitVec.extractLsb'_append_eq_right

theorem statusWord_err : (statusWord s).extractLsb' 8 4 = s.err :=
  extractLsb'_append_of_high 7 <| extractLsb'_append_of_high 6 <| extractLsb'_append_of_high 2 <|
    extractLsb'_append_of_high 0 BitVec.extractLsb'_append_eq_right

theorem statusWord_sticky : (statusWord s).getLsbD 12 = s.sticky :=
  getLsbD_of_extractLsb'_one <| extractLsb'_append_of_high 11 <| extractLsb'_append_of_high 10 <|
    extractLsb'_append_of_high 6 <| extractLsb'_append_of_high 4 <| extractLsb'_append_of_high 0
    BitVec.extractLsb'_append_eq_right

theorem statusWord_reserved : (statusWord s).extractLsb' 13 19 = 0#19 :=
  extractLsb'_append_of_high 12 <| extractLsb'_append_of_high 11 <| extractLsb'_append_of_high 7 <|
    extractLsb'_append_of_high 5 <| extractLsb'_append_of_high 1 BitVec.extractLsb'_append_eq_left

end

/-- Settles O22: RD STATUS has no BUSY guard, and its word is put together from the fields. -/
theorem statusReadReturnsItsFields : Obligations.StatusReadReturnsItsFields :=
  ⟨fun _ hw hs => decodeBus_of_row0 (fun _ => .rdStatus) (by simp [busRows]) hw hs,
    fun s => ⟨statusWord s, rfl, statusWord_getElem_zero s, statusWord_doutValid s, statusWord_keyv s,
      statusWord_chv s, statusWord_err s, statusWord_sticky s, statusWord_reserved s⟩⟩

/-! ### The register writes -/

/-- Settles O23: the word and the flag of the index, and the other words and flags. -/
theorem keyWriteLoadsOneWord : Obligations.KeyWriteLoadsOneWord := by
  refine ⟨fun t hw hs => decodeBus_of_row2 .wrKey (by simp [busRows]) hw hs, fun s i v hb => ?_⟩
  refine ⟨s.setKeyWord i v, writeRegister_idle hb .., ?_, fun j hj => ?_, ?_, fun n hn => ?_, rfl⟩
  · simp [Key.word_setWord]
  · simp [Key.word_setWord, hj]
  · simp [getLsbD_markKeyWord]
  · simp [getLsbD_markKeyWord, Ne.symm hn]

/-- Settles O24: the word and the flag of the index, and the other word and flag. -/
theorem chainWriteLoadsOneWord : Obligations.ChainWriteLoadsOneWord := by
  refine ⟨fun t hw hs => decodeBus_of_row1 .wrChain (by simp [busRows]) hw hs, fun s i v hb => ?_⟩
  refine ⟨s.setChainWord i v, writeRegister_idle hb .., ?_, fun j hj => ?_, ?_, fun n hn => ?_, rfl⟩
  · simp [Block.word_setWord]
  · simp [Block.word_setWord, hj]
  · simp [getLsbD_markChainWord]
  · simp [getLsbD_markChainWord, Ne.symm hn]

/-- Settles O25: DIN has no written flag. -/
theorem dinWriteLoadsOneWord : Obligations.DinWriteLoadsOneWord :=
  ⟨fun _ hw hs => decodeBus_of_row1 .wrDin (by simp [busRows]) hw hs,
    fun _ _ hb => ⟨writeRegister_idle hb .., writeRegister_idle hb ..⟩⟩

/-- Settles O26: by the value of bit 12. -/
theorem statusWriteClearsSticky : Obligations.StatusWriteClearsSticky := by
  refine ⟨fun t hw hs => decodeBus_of_row0 .wrStatus (by simp [busRows]) hw hs, fun s v hb => ?_⟩
  refine (writeRegister_idle hb ..).trans (congrArg _ ?_)
  change (if clearsSticky v = true then s.clearSticky else s) = { s with sticky := s.sticky && !clearsSticky v }
  cases clearsSticky v <;> simp [State.clearSticky]

/-- Settles O27: past the BUSY guard the access is a bus error. -/
theorem rejectedAccessesGetABusError : Obligations.RejectedAccessesGetABusError :=
  ⟨fun _ hw => ⟨decodeBus_of_row1 .wrDout (by simp [busRows]) hw,
      decodeBus_of_row2 (fun i _ => .rdReserved i) (by simp [busRows]) hw,
      decodeBus_of_row2 .wrReserved (by simp [busRows]) hw⟩,
    fun _ hb => ⟨fun _ _ => guardIdle_idle hb .., fun _ => guardIdle_idle hb .., fun _ _ => guardIdle_idle hb ..⟩⟩

/-! ### The register reads -/

/-- Settles O20: a read of KEY or CMD records 0. -/
theorem writeOnlyRegistersReadZero : Obligations.WriteOnlyRegistersReadZero :=
  ⟨fun _ _ hb => readRegister_idle hb .., fun _ hb => readRegister_idle hb ..,
    fun _ hw hs => decodeBus_of_row2 (fun i _ => .rdKey i) (by simp [busRows]) hw hs,
    fun _ hw hs => decodeBus_of_row0 (fun _ => .rdCmd) (by simp [busRows]) hw hs⟩

/-- Settles O21: a read records the addressed word. -/
theorem dataRegistersReadBack : Obligations.DataRegistersReadBack :=
  ⟨fun _ hw => ⟨decodeBus_of_row1 (fun i _ => .rdChain i) (by simp [busRows]) hw,
      decodeBus_of_row1 (fun i _ => .rdDin i) (by simp [busRows]) hw,
      decodeBus_of_row1 (fun i _ => .rdDout i) (by simp [busRows]) hw⟩,
    fun _ hb => ⟨readRegister_idle hb .., readRegister_idle hb .., readRegister_idle hb .., readRegister_idle hb ..,
      readRegister_idle hb .., readRegister_idle hb ..⟩⟩

/-! ### The steps that are no transaction -/

theorem stepWith_of_schedule_nil {s : State} (h : s.schedule = []) (cfg : Configuration) :
    stepWith cfg s = .next (engineTurn cfg s) := by
  rw [stepWith, h]

/-- Settles O10: the step looks at the head of the schedule alone. -/
theorem stepOfTheOtherEvents : Obligations.StepOfTheOtherEvents := by
  refine fun cfg => ⟨fun s rest h => ?_, fun s rest h => ?_, fun s h => stepWith_of_schedule_nil h cfg,
    fun s => ⟨rfl, rfl⟩⟩
  · rw [stepWith, h]
    rfl
  · rw [stepWith, h]
    rfl

/-! ### The key is not shown -/

/-- What the host sees of two answers is the same: both go on with the same reads and the same status word, or both
stop with the same fault. Said in the direction of the first. -/
structure SameToHost (a b : Answer) : Prop where
  next : ∀ t, a = .next t → ∃ u, b = .next u ∧ u.reads = t.reads ∧ statusWord u = statusWord t
  fault : ∀ f, a = .fault f → b = .fault f

theorem SameToHost.of_next {t u : State} (hr : u.reads = t.reads) (hs : statusWord u = statusWord t) :
    SameToHost (.next t) (.next u) where
  next _ h := by
    cases h
    exact ⟨u, rfl, hr, hs⟩
  fault _ h := nomatch h

theorem SameToHost.of_fault (f : Fault) : SameToHost (.fault f) (.fault f) where
  next _ h := nomatch h
  fault _ h := h

/-- The BUSY guard shows BUSY alone. -/
theorem SameToHost.guardIdle {s : State} {k : Key} {a b : Answer} (h : SameToHost a b) (off : Offset) (w : Bool) :
    SameToHost (guardIdle off w s a) (guardIdle off w { s with key := k } b) := by
  unfold Machine.guardIdle
  split
  · exact .of_fault _
  · exact h

/-- A cipher command's checks look at the written flags and not at the key. -/
theorem presentCommand_reads_statusWord (op : Op) (s : State) (k : Key) :
    (presentCommand op { s with key := k }).reads = (presentCommand op s).reads ∧
      statusWord (presentCommand op { s with key := k }) = statusWord (presentCommand op s) := by
  simp only [presentCommand_eq_ite]
  split
  · exact ⟨rfl, rfl⟩
  · split <;> exact ⟨rfl, rfl⟩

theorem SameToHost.opInstr (op : Op) (s : State) (k : Key) :
    SameToHost (exec op.instr s) (exec op.instr { s with key := k }) := by
  obtain ⟨hr, hs⟩ := presentCommand_reads_statusWord op s k
  rw [exec_opInstr, exec_opInstr]
  exact .guardIdle (.of_next hr hs) ..

theorem SameToHost.command (n : CommandName) (s : State) (k : Key) :
    SameToHost (exec n.instr s) (exec n.instr { s with key := k }) := by
  cases n with
  | nop => exact .guardIdle (.of_next (by rfl) (by rfl)) ..
  | encipher => exact .opInstr .encipher s k
  | decipher => exact .opInstr .decipher s k
  | cbcEnc => exact .opInstr .cbcEnc s k
  | cbcDec => exact .opInstr .cbcDec s k

/-- Every instruction looks the same to the host with another key. -/
theorem exec_sameToHost (i : Instr) (s : State) (k : Key) : SameToHost (exec i s) (exec i { s with key := k }) := by
  cases i with
  | nop => exact .command .nop s k
  | encipher => exact .command .encipher s k
  | decipher => exact .command .decipher s k
  | cbcEnc => exact .command .cbcEnc s k
  | cbcDec => exact .command .cbcDec s k
  | rdStatus => exact .of_next rfl rfl
  | rdKey | rdChain | rdDin | rdDout | rdCmd | wrKey | wrChain | wrDin =>
    exact .guardIdle (.of_next (by rfl) (by rfl)) ..
  | rdReserved | wrDout | wrReserved => exact .guardIdle (.of_fault _) ..
  | wrStatus v =>
    refine .guardIdle ?_ ..
    split <;> exact .of_next rfl rfl
  | wrCmd c =>
    cases hd : decodeCommand c with
    | ok n =>
      rw [exec_wrCmd_of_decodeCommand hd, exec_wrCmd_of_decodeCommand hd]
      exact .command n s k
    | error e =>
      simp only [exec, execWrCmd, hd]
      exact .guardIdle (.of_next (by rfl) (by rfl)) ..

/-- Settles O39: no read returns KEY, and no check looks at it. -/
theorem noInstructionShowsTheKey : Obligations.NoInstructionShowsTheKey := fun s k i =>
  ⟨(exec_sameToHost i s k).next, (exec_sameToHost i s k).fault⟩

/-! ### Polling -/

/-- The engine neither looks at the schedule and the host's record nor writes them. -/
theorem engineTurn_with_schedule_reads (cfg : Configuration) (s : State) (l : List Event) (r : List ReadRecord) :
    engineTurn cfg { s with schedule := l, reads := r } = { engineTurn cfg s with schedule := l, reads := r } := by
  cases hp : s.pending with
  | none => simp [engineTurn, hp]
  | some p =>
    obtain ⟨op, k, c, d⟩ := p
    cases op <;> simp [engineTurn, hp, completePending, State.finish]

theorem run_succ_of_stepWith {cfg : Configuration} {s t : State} (h : stepWith cfg s = .next t) (n : Nat) :
    Host.Core.run (coreWith cfg) (n + 1) s = Host.Core.run (coreWith cfg) n t := by
  simp [Host.Core.run, coreWith, h]

/-- `n` scheduled STATUS reads are `n` steps that record the status word, and the next step is the engine's turn. -/
theorem run_polls (cfg : Configuration) (n : Nat) (s : State)
    (h : s.schedule = List.replicate n (.host (busRead32 statusOff))) :
    Host.Core.run (coreWith cfg) (n + 1) s = .next { engineTurn cfg s with
      schedule := [], reads := s.reads ++ List.replicate n ⟨statusOff, statusWord s⟩ } := by
  induction n generalizing s with
  | zero =>
    have nil : s.schedule = [] := h
    have same : { s with schedule := [], reads := s.reads ++ List.replicate 0 ⟨statusOff, statusWord s⟩ } = s := by
      rw [List.replicate_zero, List.append_nil, ← nil]
    rw [run_succ_of_stepWith (stepWith_of_schedule_nil nil cfg), ← engineTurn_with_schedule_reads, same]
    rfl
  | succ n ih =>
    have hs : stepWith cfg s = .next ((s.withSchedule (List.replicate n (.host (busRead32 statusOff)))).recordRead
        statusOff (statusWord s)) := stepWith_of_decodeBus h decodeBus_rdStatus
    rw [run_succ_of_stepWith hs, ih _ rfl, ← engineTurn_with_schedule_reads, ← engineTurn_with_schedule_reads]
    simp [State.recordRead, State.withSchedule, statusWord, List.replicate_succ]

/-- Settles O40: the engine's turn completes the pending command, whatever the host has polled. -/
theorem pollingEndsWithTheResult : Obligations.PollingEndsWithTheResult := by
  intro cfg n s p hb hp hs
  refine ⟨_, run_polls cfg n s hs, rfl, ?_⟩
  obtain ⟨r, c, e, -⟩ := completePending_cases cfg p s
  have turn : engineTurn cfg s = s.finish r c := by simp [engineTurn, hp, e]
  rw [turn, e]
  exact ⟨rfl, rfl, rfl, rfl, rfl, (statusWord_getElem_zero s).trans hb⟩

end Sys2Proof.Machine

end

section
/-! The statements of 48_host_stream: the padding and the bytes of a stream, the stream encryptor and what its sink is
given, and the stream decryptor and what its caller is given. -/

namespace Sys2Proof.Machine

/-! ### The blocks of a byte stream, and what is left over -/

@[simp] theorem unpack_length (b : Block) : (unpack b).length = 8 := rfl

/-- A byte stream is taken group by group, 8 bytes at a time, down to a remainder of fewer than 8. -/
theorem bytes_induction {P : List Byte → Prop} (short : ∀ b : List Byte, b.length < 8 → P b)
    (group : ∀ g b : List Byte, g.length = 8 → P b → P (g ++ b)) (b : List Byte) : P b := by
  by_cases h : b.length < 8
  · exact short b h
  · rw [← List.take_append_drop 8 b]
    exact group _ _ (by simp; omega) (bytes_induction short group (b.drop 8))
termination_by b.length
decreasing_by simp; omega

theorem eq_bytes_of_length_eq_eight {g : List Byte} (h : g.length = 8) :
    ∃ b0 b1 b2 b3 b4 b5 b6 b7, g = [b0, b1, b2, b3, b4, b5, b6, b7] := by
  match g, h with
  | [b0, b1, b2, b3, b4, b5, b6, b7], _ => exact ⟨b0, b1, b2, b3, b4, b5, b6, b7, rfl⟩

theorem blocksOf_of_length_lt {b : List Byte} (h : b.length < 8) : blocksOf b = [] := by
  unfold blocksOf
  split
  · simp at h
    omega
  · rfl

theorem blocksOf_group_append {g : List Byte} (h : g.length = 8) (b : List Byte) :
    blocksOf (g ++ b) = pack g :: blocksOf b := by
  obtain ⟨b0, b1, b2, b3, b4, b5, b6, b7, rfl⟩ := eq_bytes_of_length_eq_eight h
  rfl

theorem blocksOf_group {g : List Byte} (h : g.length = 8) : blocksOf g = [pack g] := by
  simpa [blocksOf_of_length_lt] using blocksOf_group_append h []

theorem unpack_pack_group {g : List Byte} (h : g.length = 8) : unpack (pack g) = g := by
  obtain ⟨b0, b1, b2, b3, b4, b5, b6, b7, rfl⟩ := eq_bytes_of_length_eq_eight h
  exact unpack_pack ..

/-- The bytes of no whole block: the final remainder of 48_host_stream R107. -/
def remainder (b : List Byte) : List Byte := b.drop (8 * (b.length / 8))

theorem remainder_of_length_lt {b : List Byte} (h : b.length < 8) : remainder b = b := by
  simp [remainder, Nat.div_eq_of_lt h]

theorem remainder_group_append {g : List Byte} (h : g.length = 8) (b : List Byte) :
    remainder (g ++ b) = remainder b := by
  have hd : 8 * ((g ++ b).length / 8) = g.length + 8 * (b.length / 8) := by
    rw [List.length_append, h]
    omega
  rw [remainder, hd, List.drop_length_add_append, remainder]

@[simp] theorem remainder_length (b : List Byte) : (remainder b).length = b.length % 8 := by
  rw [remainder, List.length_drop]
  omega

theorem blocksOf_length (b : List Byte) : (blocksOf b).length = b.length / 8 := by
  induction b using bytes_induction with
  | short b h => rw [blocksOf_of_length_lt h, Nat.div_eq_of_lt h, List.length_nil]
  | group g b h ih =>
    rw [blocksOf_group_append h, List.length_cons, ih, List.length_append, h]
    omega

/-- The blocks of a longer stream are the blocks of its start, and those that its remainder and the rest make up. -/
theorem blocksOf_append (a b : List Byte) : blocksOf (a ++ b) = blocksOf a ++ blocksOf (remainder a ++ b) := by
  induction a using bytes_induction with
  | short a h => rw [blocksOf_of_length_lt h, remainder_of_length_lt h, List.nil_append]
  | group g a h ih =>
    rw [List.append_assoc, blocksOf_group_append h, blocksOf_group_append h, remainder_group_append h, ih,
      List.cons_append]

theorem remainder_append (a b : List Byte) : remainder (a ++ b) = remainder (remainder a ++ b) := by
  induction a using bytes_induction with
  | short a h => rw [remainder_of_length_lt h]
  | group g a h ih => rw [List.append_assoc, remainder_group_append h, remainder_group_append h, ih]

/-- A stream is the bytes of its blocks and its remainder. -/
theorem flatMap_unpack_blocksOf (b : List Byte) : (blocksOf b).flatMap unpack ++ remainder b = b := by
  induction b using bytes_induction with
  | short b h => rw [blocksOf_of_length_lt h, remainder_of_length_lt h, List.flatMap_nil, List.nil_append]
  | group g b h ih =>
    rw [blocksOf_group_append h, remainder_group_append h, List.flatMap_cons, unpack_pack_group h, List.append_assoc,
      ih]

theorem flatMap_unpack_length (bs : List Block) : (bs.flatMap unpack).length = 8 * bs.length := by
  induction bs with
  | nil => rfl
  | cons b bs ih =>
    rw [List.flatMap_cons, List.length_append, ih, unpack_length, List.length_cons]
    omega

/-- The blocks of the bytes of some blocks and of more bytes. -/
theorem blocksOf_flatMap_unpack_append (bs : List Block) (b : List Byte) :
    blocksOf (bs.flatMap unpack ++ b) = bs ++ blocksOf b := by
  induction bs with
  | nil => rfl
  | cons p bs ih =>
    rw [List.flatMap_cons, List.append_assoc, blocksOf_group_append (unpack_length p), pack_unpack, ih,
      List.cons_append]

theorem blocksOf_flatMap_unpack (bs : List Block) : blocksOf (bs.flatMap unpack) = bs := by
  simpa [blocksOf_of_length_lt] using blocksOf_flatMap_unpack_append bs []

/-! ### The padding (48_host_stream R104, R105, R112) -/

theorem padLength_mem (n : Nat) : 1 ≤ padLength n ∧ padLength n ≤ 8 := by
  unfold padLength
  omega

theorem padded_length (p : List Byte) : (padded p).length = p.length + padLength p.length := by
  simp [padded]

theorem padded_length_mod (p : List Byte) : (padded p).length % 8 = 0 := by
  rw [padded_length, padLength]
  omega

/-- The padding goes after the remainder, and depends on nothing else. -/
theorem remainder_append_padding (p : List Byte) :
    remainder p ++ List.replicate (padLength p.length) (BitVec.ofNat 8 (padLength p.length)) = padded (remainder p) := by
  have h : padLength (remainder p).length = padLength p.length := by simp [padLength]
  rw [padded, h]

/-- The padded plaintext is one block longer than the whole blocks of the plaintext. -/
theorem blocksOf_padded (p : List Byte) : blocksOf (padded p) = blocksOf p ++ [pack (padded (remainder p))] := by
  have h : (padded (remainder p)).length = 8 := by
    rw [padded_length, remainder_length, padLength]
    omega
  rw [← blocksOf_group h, ← remainder_append_padding, padded, blocksOf_append]

theorem ciphertextOf_length (rv : RoundVariant) (k : Key) (iv : Block) (p : List Byte) :
    (ciphertextOf rv k iv p).length = (padded p).length := by
  have h := padded_length_mod p
  rw [ciphertextOf, flatMap_unpack_length, encryptBlocks_length, blocksOf_length]
  omega

/-- Settles O46: a block's bytes are 8, enciphered or not. -/
theorem ciphertextLength : Obligations.CiphertextLength := fun rv k iv p =>
  ⟨(padLength_mem _).1, (padLength_mem _).2, padded_length_mod p,
    (ciphertextOf_length rv k iv p).trans (padded_length p)⟩

/-- The last byte of the padding says how long it is. -/
theorem stripPad_padded (p : List Byte) : stripPad (padded p) = .ok p := by
  obtain ⟨h1, h8⟩ := padLength_mem p.length
  have hl : ((padded p).getLastD 0#8).toNat = padLength p.length := by
    have hne : padLength p.length ≠ 0 := by omega
    simp [padded, List.getLastD_eq_getLast?, List.getLast?_replicate, hne]
    omega
  have ht : (padded p).take ((padded p).length - padLength p.length) = p := by
    rw [padded_length, Nat.add_sub_cancel, padded, List.take_left]
  rw [stripPad, hl, if_pos ⟨h1, h8⟩, ht]

/-- Settles O47: the blocks come back from the ciphertext, and the padding says where the plaintext ends. -/
theorem streamRoundTrip : Obligations.StreamRoundTrip := by
  intro rv k iv p
  have hmod := padded_length_mod p
  have hpos := (padLength_mem p.length).1
  have hlen := (ciphertextOf_length rv k iv p).trans (padded_length p)
  have hrem : remainder (padded p) = [] := by
    rw [← List.length_eq_zero_iff, remainder_length, hmod]
  have hback := flatMap_unpack_blocksOf (padded p)
  rw [hrem, List.append_nil] at hback
  have whole : ¬ ((ciphertextOf rv k iv p).length = 0 ∨ (ciphertextOf rv k iv p).length % 8 ≠ 0) := by
    rw [padded_length] at hmod
    omega
  rw [plaintextOf, if_neg whole, ciphertextOf, blocksOf_flatMap_unpack,
    decryptBlocks_encryptBlocks, hback, stripPad_padded]

/-! ### What a stream keeps while another one has the core (48_host_stream R102, 41_cbc_chain R85) -/

section
variable {cfg : Configuration}

/-- A running stream that gives an idle core up keeps its key and the chaining value of the core. -/
theorem StreamContext.suspend_running {d : Driven} (h : d.core.busy = false) (k : Key) :
    ∃ s, StreamContext.suspend cfg ⟨k, none⟩ d = .next (⟨k, some d.core.chain⟩, { d with core := s }) := by
  refine ⟨(d.core.recordRead (chainOff 0#1) d.core.chain.w0).recordRead (chainOff 1#1) d.core.chain.w1, ?_⟩
  rw [StreamContext.suspend, getchain_idle h, andThen_next, readChain_recordRead]

/-- A suspended stream that takes an idle core loads its key and its chaining value. -/
theorem StreamContext.resume_suspended {new : Driven} (h : new.core.busy = false) (k : Key) (v : Block)
    (own : Driven) :
    ∃ s, StreamContext.resume cfg ⟨k, some v⟩ own new = .next (⟨k, none⟩, { new with core := s }) ∧
      s.HoldsStream k v := by
  obtain ⟨s, run, held⟩ := openStream_holdsStream (cfg := cfg) h k v
  exact ⟨s, by simp only [StreamContext.resume, StreamContext.start, run, andThen_next], held⟩

/-- Settles O54: suspending saves the chaining value, and resuming loads it, whichever side the stream is. -/
theorem suspendedStreamResumes : Obligations.SuspendedStreamResumes := by
  intro cfg new hn
  refine ⟨fun e hr hc => ?_, fun r hr hc => ?_⟩
  · obtain ⟨s, sus⟩ := StreamContext.suspend_running (cfg := cfg) hr.notBusy e.core.core.key
    obtain ⟨t, res, held⟩ := StreamContext.resume_suspended (cfg := cfg) hn e.core.core.key e.core.core.chain
      { e.core with core := s }
    exact ⟨_, _, by rw [Encryptor.suspend, hc, sus, andThen_next], by rw [Encryptor.resume, res, andThen_next], rfl,
      by rw [← hc], held.ready, held.key, held.chain⟩
  · obtain ⟨s, sus⟩ := StreamContext.suspend_running (cfg := cfg) hr.notBusy r.core.core.key
    obtain ⟨t, res, held⟩ := StreamContext.resume_suspended (cfg := cfg) hn r.core.core.key r.core.core.chain
      { r.core with core := s }
    exact ⟨_, _, by rw [Decryptor.suspend, hc, sus, andThen_next], by rw [Decryptor.resume, res, andThen_next], rfl,
      by rw [← hc], held.ready, held.key, held.chain⟩

end

/-! ### What a sink answers -/

/-- The I/O errors among the answers of a sink. -/
def sinkErrors (replies : List SinkReply) : List IoError := replies.filterMap SinkReply.ioError

@[simp] theorem sinkErrors_append (a b : List SinkReply) : sinkErrors (a ++ b) = sinkErrors a ++ sinkErrors b :=
  List.filterMap_append

/-- The sink has answered offers with exactly these I/O errors, and nothing was flushed. -/
def Sink.Answered (k k' : Sink) (errors : List IoError) : Prop :=
  ∃ used, k.replies = used ++ k'.replies ∧ sinkErrors used = errors ∧
    k'.flushes = k.flushes ∧ k'.flushReplies = k.flushReplies

theorem Sink.Answered.refl (k : Sink) : k.Answered k [] := ⟨[], rfl, rfl, rfl, rfl⟩

theorem Sink.Answered.trans {k k' k'' : Sink} {errors : List IoError} (h : k.Answered k' [])
    (h' : k'.Answered k'' errors) : k.Answered k'' errors := by
  obtain ⟨used, hr, he, hf, hq⟩ := h
  obtain ⟨used', hr', he', hf', hq'⟩ := h'
  exact ⟨used ++ used', by rw [hr, hr', List.append_assoc], by simp [he, he'], hf'.trans hf, hq'.trans hq⟩

/-- A sink with no answers to come takes all it is offered, and has none to come. -/
theorem Sink.Answered.of_replies_nil {k k' : Sink} {errors : List IoError} (h : k.Answered k' errors)
    (hk : k.replies = []) : k'.replies = [] ∧ errors = [] := by
  obtain ⟨used, hr, rfl, -⟩ := h
  obtain ⟨rfl, hk'⟩ := List.append_eq_nil_iff.1 (hr.symm.trans hk)
  exact ⟨hk', rfl⟩

/-- The inversion lemma of an offer: what the sink leaves of it, or its I/O error (48_host_stream R107, R114). -/
theorem Sink.offer_cases (k : Sink) (bs : List Byte) :
    (∃ left k', k.offer bs = (.ok left, k') ∧ k.Answered k' [] ∧ k'.taken ++ left = k.taken ++ bs ∧
      (left ≠ [] → k.replies ≠ [])) ∨
    ∃ x k', k.offer bs = (.error x, k') ∧ k.Answered k' [x] ∧ k'.taken = k.taken ∧ bs ≠ [] := by
  by_cases hb : bs = []
  · subst hb
    exact .inl ⟨[], k, rfl, .refl k, rfl, fun h => absurd rfl h⟩
  · have hne : ¬ bs.isEmpty = true := by simpa using hb
    rw [Sink.offer, if_neg hne]
    match hr : k.replies with
    | [] => exact .inl ⟨[], _, rfl, ⟨[], by simp [hr], rfl, rfl, rfl⟩, List.append_nil _, fun h => absurd rfl h⟩
    | .takes n :: rest =>
      exact .inl ⟨bs.drop n, _, rfl, ⟨[.takes n], hr, rfl, rfl, rfl⟩,
        by rw [List.append_assoc, List.take_append_drop], fun _ => by simp⟩
    | .fails x :: rest => exact .inr ⟨x, _, rfl, ⟨[.fails x], hr, rfl, rfl, rfl⟩, rfl, hb⟩

/-! ### What a call of the encryptor does with the bytes pending for the sink -/

/-- The I/O error in an error, if it is one. -/
def StreamError.ioError : StreamError → Option IoError
  | .io x => some x
  | _ => none

@[simp] theorem ioErrorTold_ok {α : Type} (v : α) : ioErrorTold (.ok v : Except StreamError α) = none := rfl

@[simp] theorem ioErrorTold_error {α : Type} (x : StreamError) :
    ioErrorTold (.error x : Except StreamError α) = x.ioError := by
  cases x <;> rfl

theorem StreamError.ne_io_of_ioError_eq_none {x : StreamError} (h : x.ioError = none) (y : IoError) : x ≠ .io y := by
  rintro rfl
  cases h

/-- A call whose offer the sink has not taken whole: what is left stays pending, and the call ends with `short`, or with
the sink's I/O error unchanged (48_host_stream R107, R114). -/
structure Encryptor.Left {α : Type} (e : Encryptor) (k : Sink) (short : Except StreamError α) (r : WriterResult α) :
    Prop where
  answered : k.Answered r.sink (ioErrorTold r.result).toList
  enc : r.enc = { e with unsent := r.enc.unsent, blocked := true }
  bytes : r.sink.taken ++ r.enc.unsent = k.taken ++ e.unsent
  unsent : r.enc.unsent ≠ []
  replies : k.replies ≠ []
  result : r.result = short ∨ ∃ x, r.result = .error (.io x)

section
variable {e : Encryptor} {k : Sink}

/-- An operation that ends where its offer was not taken whole, and says so in its own way. -/
theorem Encryptor.Left.short {α : Type} {r : WriterResult Bool} (h : e.Left k (.ok false) r)
    (hr : r.result = .ok false) {short : Except StreamError α} (hs : ioErrorTold short = none) :
    e.Left k short ⟨r.enc, r.sink, short⟩ :=
  ⟨by simpa [hr, hs] using h.answered, h.enc, h.bytes, h.unsent, h.replies, .inl rfl⟩

/-- An operation that passes the sink's I/O error on. -/
theorem Encryptor.Left.io {α : Type} {r : WriterResult Bool} (h : e.Left k (.ok false) r) {x : IoError}
    (hr : r.result = .error (.io x)) (short : Except StreamError α) :
    e.Left k short ⟨r.enc, r.sink, .error (.io x)⟩ :=
  ⟨by simpa [hr] using h.answered, h.enc, h.bytes, h.unsent, h.replies, .inr ⟨x, rfl⟩⟩

theorem Encryptor.Left.result_ne {α : Type} {short : Except StreamError α} {r : WriterResult α}
    (h : e.Left k short r) {v : α} (hs : short ≠ .ok v) : r.result ≠ .ok v := by
  rcases h.result with hr | ⟨x, hr⟩ <;> rw [hr]
  · exact hs
  · nofun

end

/-- The encryptor once its pending ciphertext is in the sink. -/
def Encryptor.delivered (e : Encryptor) : Encryptor := { e with unsent := [], blocked := false }

/-- An offer of the pending ciphertext: the sink takes it all, or leaves some of it. -/
theorem Encryptor.send_cases (e : Encryptor) (k : Sink) :
    (∃ k', e.send k = ⟨e.delivered, k', .ok true⟩ ∧ k.Answered k' [] ∧ k'.taken = k.taken ++ e.unsent) ∨
    e.Left k (.ok false) (e.send k) := by
  unfold Encryptor.send
  rcases k.offer_cases e.unsent with ⟨left, k', h, ha, ht, hr⟩ | ⟨x, k', h, ha, ht, hu⟩ <;> rw [h]
  · match left with
    | [] => exact .inl ⟨k', rfl, ha, (List.append_nil _).symm.trans ht⟩
    | b :: left => exact .inr ⟨ha, rfl, ht, by simp, hr (by simp), .inl rfl⟩
  · exact .inr ⟨ha, rfl, by rw [ht], hu, fun hk => absurd (ha.of_replies_nil hk).2 (by simp), .inr ⟨x, rfl⟩⟩

/-! ### A block on its way from the buffer to the sink -/

/-- The encryptor once its ready block was enciphered to `b`, which left the driven core at `d`. -/
def Encryptor.enciphered (e : Encryptor) (b : Block) (d : Driven) : Encryptor :=
  { e with core := d, plain := [], unsent := unpack b, blocked := false }

section
variable {cfg : Configuration}

/-- The cipher step of a core that stops is no I/O error. -/
theorem Encryptor.emit_cases (e : Encryptor) (k : Sink) :
    (∃ x, e.emit cfg k = ⟨e, k, .error x⟩ ∧ x.ioError = none ∧
      ∀ r, processBlock cfg .cbcEnc (pack e.plain) e.core ≠ .next r) ∨
    ∃ b d, processBlock cfg .cbcEnc (pack e.plain) e.core = .next (b, d) ∧
      e.emit cfg k = (e.enciphered b d).send k := by
  cases h : processBlock cfg .cbcEnc (pack e.plain) e.core with
  | next r => exact .inr ⟨r.1, r.2, rfl, by simp only [Encryptor.emit, Encryptor.cipherStep, h, andThen_next]; rfl⟩
  | fault f => exact .inl ⟨.coreFault f, by simp only [Encryptor.emit, Encryptor.cipherStep, h]; rfl, rfl, nofun⟩
  | refused f => exact .inl ⟨.coreRefused f, by simp only [Encryptor.emit, Encryptor.cipherStep, h]; rfl, rfl, nofun⟩

/-- On a ready core one CBC_ENC gives the block's ciphertext, and the core stays ready. -/
theorem processBlock_cbcEnc_ready {d : Driven} (h : d.core.Ready) (b : Block) :
    ∃ c d', processBlock cfg .cbcEnc b d = .next (c, d') ∧ d'.core.Ready := by
  obtain ⟨d', run, done⟩ := processBlock_cbcEnc (cfg := cfg) h b
  exact ⟨_, d', run, done.ready⟩

theorem processBlock_cbcEnc_goes_on {d : Driven} (h : d.core.Ready) (b : Block) :
    ¬ ∀ r, processBlock cfg .cbcEnc b d ≠ .next r := fun stop => by
  obtain ⟨c, d', run, -⟩ := processBlock_cbcEnc_ready (cfg := cfg) h b
  exact stop _ run

/-! ### The I/O errors of a write -/

theorem Encryptor.send_answered (e : Encryptor) (k : Sink) :
    k.Answered (e.send k).sink (ioErrorTold (e.send k).result).toList := by
  rcases e.send_cases k with ⟨k', h, ha, -⟩ | h
  · rw [h]
    exact ha
  · exact h.answered

theorem Encryptor.emit_answered (e : Encryptor) (k : Sink) :
    k.Answered (e.emit cfg k).sink (ioErrorTold (e.emit cfg k).result).toList := by
  rcases e.emit_cases (cfg := cfg) k with ⟨x, h, hx, -⟩ | ⟨b, d, -, h⟩ <;> rw [h]
  · rw [ioErrorTold_error, hx]
    exact .refl k
  · exact Encryptor.send_answered ..

/-- A group that is not full stays in the buffer. -/
theorem Encryptor.writeGroups_short {e : Encryptor} {input : List Byte} (h : (e.fill input).plain.length < 8)
    (fuel : Nat) (k : Sink) (n : Nat) :
    e.writeGroups cfg (fuel + 1) k input n = ⟨e.fill input, k, .ok (n + input.length)⟩ := by
  rw [Encryptor.writeGroups, if_pos h]

/-- What a write does once its groups have come to a whole block: `r` is what the block's emission leaves. -/
theorem Encryptor.writeGroups_full {e : Encryptor} {input : List Byte} (h : ¬ (e.fill input).plain.length < 8)
    (fuel : Nat) {k : Sink} (n : Nat) {r : WriterResult Bool} (hr : (e.fill input).emit cfg k = r) :
    (∀ x, r.result = .error x → e.writeGroups cfg (fuel + 1) k input n = ⟨r.enc, r.sink, .error x⟩) ∧
    (r.result = .ok false →
      e.writeGroups cfg (fuel + 1) k input n = ⟨r.enc, r.sink, .ok (n + (8 - e.plain.length))⟩) ∧
    (r.result = .ok true → e.writeGroups cfg (fuel + 1) k input n =
      r.enc.writeGroups cfg fuel r.sink (input.drop (8 - e.plain.length)) (n + (8 - e.plain.length))) := by
  rw [Encryptor.writeGroups, if_neg h, hr]
  exact ⟨fun x hx => by simp only [hx], fun hx => by simp only [hx], fun hx => by simp only [hx]⟩

theorem Encryptor.writeGroups_answered (fuel : Nat) (e : Encryptor) (k : Sink) (input : List Byte) (n : Nat) :
    k.Answered (e.writeGroups cfg fuel k input n).sink
      (ioErrorTold (e.writeGroups cfg fuel k input n).result).toList := by
  induction fuel generalizing e k input n with
  | zero => exact .refl k
  | succ fuel ih =>
    by_cases h : (e.fill input).plain.length < 8
    · rw [Encryptor.writeGroups_short h]
      exact .refl k
    · have ha := (e.fill input).emit_answered (cfg := cfg) k
      obtain ⟨stop, left, all⟩ := Encryptor.writeGroups_full (k := k) h fuel n (cfg := cfg) rfl
      cases hr : ((e.fill input).emit cfg k).result with
      | error x =>
        rw [stop x hr]
        simpa [hr] using ha
      | ok v =>
        rw [hr] at ha
        cases v with
        | false =>
          rw [left hr]
          exact ha
        | true =>
          rw [all hr]
          exact ha.trans (ih ..)

/-- A write of a closed or suspended encryptor is an error of its own, which changes nothing (48_host_stream R109; log
entry 10). A write of another one first offers the pending ciphertext, and takes input only when all of it is gone. -/
theorem Encryptor.write_cases (e : Encryptor) (k : Sink) (input : List Byte) :
    ((e.closed = true ∨ e.context.saved ≠ none) ∧
      ∃ x, e.write cfg k input = ⟨e, k, .error x⟩ ∧ x.ioError = none) ∨
    e.Left k (.ok 0) (e.write cfg k input) ∨
    ∃ k', e.send k = ⟨e.delivered, k', .ok true⟩ ∧ k.Answered k' [] ∧ k'.taken = k.taken ++ e.unsent ∧
      e.write cfg k input = e.delivered.writeGroups cfg (input.length + 1) k' input 0 := by
  by_cases hc : e.closed = true
  · exact .inl ⟨.inl hc, .closed, by rw [Encryptor.write, if_pos hc], rfl⟩
  by_cases hs : e.context.saved.isSome = true
  · exact .inl ⟨.inr (Option.isSome_iff_ne_none.1 hs), .suspended,
      by rw [Encryptor.write, if_neg hc, if_pos hs], rfl⟩
  right
  rw [Encryptor.write, if_neg hc, if_neg hs]
  rcases e.send_cases k with ⟨k', h, ha, ht⟩ | h
  · exact .inr ⟨k', h, ha, ht, by rw [h]⟩
  · left
    rcases h.result with hr | ⟨x, hr⟩ <;> simp only [hr]
    · exact h.short hr rfl
    · exact h.io hr _

theorem Encryptor.write_answered (e : Encryptor) (k : Sink) (input : List Byte) :
    k.Answered (e.write cfg k input).sink (ioErrorTold (e.write cfg k input).result).toList := by
  rcases e.write_cases (cfg := cfg) k input with ⟨-, x, h, hx⟩ | h | ⟨k', -, ha, -, h⟩
  · rw [h, ioErrorTold_error, hx]
    exact .refl k
  · exact h.answered
  · rw [h]
    exact ha.trans (Encryptor.writeGroups_answered ..)

end

/-! ### The bytes of a write -/

section
variable {cfg : Configuration}

theorem processBlocks_append (op : CommandName) (as bs : List Block) (d : Driven) :
    processBlocks cfg op (as ++ bs) d = andThen (processBlocks cfg op as d) fun r =>
      andThen (processBlocks cfg op bs r.2) fun q => .next (r.1 ++ q.1, q.2) := by
  induction as generalizing d with
  | nil => cases h : processBlocks cfg op bs d <;> simp [processBlocks, andThen, h]
  | cons a as ih =>
    simp only [List.cons_append, processBlocks, ih]
    cases processBlock cfg op a d with
    | fault f => rfl
    | refused r => rfl
    | next r =>
      cases h : processBlocks cfg op as r.2 with
      | fault f => simp [andThen, h]
      | refused q => simp [andThen, h]
      | next q => cases h' : processBlocks cfg op bs q.2 <;> simp [andThen, h, h']

theorem processBlocks_append_next {op : CommandName} {as bs cs ds : List Block} {d d' d'' : Driven}
    (h : processBlocks cfg op as d = .next (cs, d')) (h' : processBlocks cfg op bs d' = .next (ds, d'')) :
    processBlocks cfg op (as ++ bs) d = .next (cs ++ ds, d'') := by
  rw [processBlocks_append, h, andThen_next, h', andThen_next]

theorem processBlocks_singleton {op : CommandName} {b c : Block} {d d' : Driven}
    (h : processBlock cfg op b d = .next (c, d')) : processBlocks cfg op [b] d = .next ([c], d') := by
  rw [processBlocks, h]
  rfl

/-- The commands of a ready core give the ciphertext blocks of the step functions (41_cbc_chain R77). -/
theorem eq_encryptBlocks_of_processBlocks {d d' : Driven} {bs cs : List Block} (h : d.core.Ready)
    (hp : processBlocks cfg .cbcEnc bs d = .next (cs, d')) :
    cs = encryptBlocks cfg.variant d.core.key d.core.chain bs := by
  obtain ⟨e, run, -⟩ := processBlocks_cbcEnc (cfg := cfg) ⟨h, rfl, rfl⟩ bs
  cases hp.symm.trans run
  rfl

/-- What a write has done when it has taken these bytes: one CBC_ENC for each whole block of the buffered bytes and the
bytes taken, whose ciphertext goes after what was in the sink and pending, and the remainder is in the buffer
(48_host_stream R107). -/
structure Encryptor.Wrote (cfg : Configuration) (e : Encryptor) (k : Sink) (taken : List Byte) (e' : Encryptor)
    (k' : Sink) : Prop where
  ready : e'.core.core.Ready
  closed : e'.closed = e.closed
  context : e'.context = e.context
  plain : e'.plain = remainder (e.plain ++ taken)
  bytes : ∃ cs, processBlocks cfg .cbcEnc (blocksOf (e.plain ++ taken)) e.core = .next (cs, e'.core) ∧
    k'.taken ++ e'.unsent = k.taken ++ e.unsent ++ cs.flatMap unpack

/-- A write, and then another one: the remainder of the first is the start of the second. -/
theorem Encryptor.Wrote.trans {e e' e'' : Encryptor} {k k' k'' : Sink} {t t' : List Byte}
    (h : e.Wrote cfg k t e' k') (h' : e'.Wrote cfg k' t' e'' k'') : e.Wrote cfg k (t ++ t') e'' k'' := by
  obtain ⟨cs, run, hb⟩ := h.bytes
  obtain ⟨cs', run', hb'⟩ := h'.bytes
  rw [h.plain] at run'
  refine ⟨h'.ready, h'.closed.trans h.closed, h'.context.trans h.context, ?_, cs ++ cs', ?_, ?_⟩
  · rw [h'.plain, h.plain, ← remainder_append, List.append_assoc]
  · rw [← List.append_assoc, blocksOf_append]
    exact processBlocks_append_next run run'
  · rw [hb', hb, List.flatMap_append, List.append_assoc]

/-- Bytes that complete no block go to the buffer. -/
theorem Encryptor.Wrote.of_short {e e' : Encryptor} {k k' : Sink} {t : List Byte} (hr : e.core.core.Ready)
    (hl : (e.plain ++ t).length < 8)
    (he : e' = { e with plain := e.plain ++ t, unsent := e'.unsent, blocked := e'.blocked })
    (hb : k'.taken ++ e'.unsent = k.taken ++ e.unsent) : e.Wrote cfg k t e' k' where
  ready := by rw [he]; exact hr
  closed := by rw [he]
  context := by rw [he]
  plain := by rw [he, remainder_of_length_lt hl]
  bytes := ⟨[], by rw [he, blocksOf_of_length_lt hl]; rfl, by rw [hb]; simp⟩

/-- Bytes that complete one block go on their way to the sink. -/
theorem Encryptor.Wrote.of_group {e e' : Encryptor} {k k' : Sink} {t : List Byte} {b : Block} {d : Driven}
    (hl : (e.plain ++ t).length = 8) (hp : processBlock cfg .cbcEnc (pack (e.plain ++ t)) e.core = .next (b, d))
    (hr : d.core.Ready) (he : e' = { e.enciphered b d with unsent := e'.unsent, blocked := e'.blocked })
    (hb : k'.taken ++ e'.unsent = k.taken ++ e.unsent ++ unpack b) : e.Wrote cfg k t e' k' where
  ready := by rw [he]; exact hr
  closed := by rw [he]; rfl
  context := by rw [he]; rfl
  plain := by
    have h0 : remainder (e.plain ++ t) = [] := by rw [← List.length_eq_zero_iff, remainder_length, hl]
    rw [he, h0]
    rfl
  bytes := ⟨[b], by rw [blocksOf_group hl, processBlocks_singleton hp, he]; rfl, by rw [hb]; simp⟩

/-- How a write that had taken `n` bytes before and is given `input` ends: it takes all of it and the sink takes all
its ciphertext; or it takes some of it, and the sink has left ciphertext or failed. Its count is of the bytes taken. -/
def Encryptor.Ends (cfg : Configuration) (e : Encryptor) (k : Sink) (input : List Byte) (n : Nat)
    (r : WriterResult Nat) : Prop :=
  ∃ m, m ≤ input.length ∧ e.Wrote cfg k (input.take m) r.enc r.sink ∧
    ((m = input.length ∧ r.result = .ok (n + m) ∧ r.enc.unsent = []) ∨
      ∃ e' k', k.Answered k' [] ∧ Encryptor.Left e' k' (.ok (n + m)) r)

theorem Encryptor.Ends.of_wrote {e e' : Encryptor} {k k' : Sink} {input : List Byte} {n m : Nat}
    {r : WriterResult Nat} (hm : m ≤ input.length) (hw : e.Wrote cfg k (input.take m) e' k') (ha : k.Answered k' [])
    (h : e'.Ends cfg k' (input.drop m) (n + m) r) : e.Ends cfg k input n r := by
  obtain ⟨l, hl, hw', hr⟩ := h
  rw [List.length_drop] at hl hr
  rw [Nat.add_assoc] at hr
  refine ⟨m + l, by omega, ?_, ?_⟩
  · rw [List.take_add]
    exact hw.trans hw'
  · rcases hr with ⟨rfl, hr, hu⟩ | ⟨e'', k'', ha', h⟩
    · exact .inl ⟨by omega, hr, hu⟩
    · exact .inr ⟨e'', k'', ha.trans ha', h⟩

theorem Encryptor.fill_plain_length (e : Encryptor) (input : List Byte) :
    (e.fill input).plain.length = e.plain.length + min (8 - e.plain.length) input.length := by
  rw [Encryptor.fill, List.length_append, List.length_take]

/-- A group that completes a block is enciphered on a ready core, and its ciphertext offered. -/
theorem Encryptor.emit_group {e : Encryptor} (k : Sink) {input : List Byte} (hr : e.core.core.Ready)
    (hp : e.plain.length < 8) (hu : e.unsent = []) (hf : ¬ (e.fill input).plain.length < 8) {r : WriterResult Bool}
    (h : (e.fill input).emit cfg k = r) :
    e.Wrote cfg k (input.take (8 - e.plain.length)) r.enc r.sink ∧
      ((r.result = .ok true ∧ r.enc.plain = [] ∧ r.enc.unsent = [] ∧ k.Answered r.sink []) ∨
        ∃ e', Encryptor.Left e' k (.ok false) r) := by
  have h8 : (e.plain ++ input.take (8 - e.plain.length)).length = 8 := by
    rw [e.fill_plain_length] at hf
    rw [List.length_append, List.length_take]
    omega
  obtain ⟨b, d, run, hd⟩ := processBlock_cbcEnc_ready (cfg := cfg) hr (pack (e.fill input).plain)
  rcases (e.fill input).emit_cases (cfg := cfg) k with ⟨-, -, -, stop⟩ | ⟨b', d', run', hs⟩
  · exact absurd run (stop _)
  cases run'.symm.trans run
  rw [← h, hs]
  rcases ((e.fill input).enciphered b d).send_cases k with ⟨k', h', ha, ht⟩ | hl
  · rw [h']
    exact ⟨.of_group h8 run hd rfl (by rw [ht, hu]; simp [Encryptor.delivered, Encryptor.enciphered]),
      .inl ⟨rfl, rfl, rfl, ha⟩⟩
  · exact ⟨.of_group h8 run hd (by rw [hl.enc]; rfl)
        (by rw [hl.bytes, hu]; simp [Encryptor.enciphered, Encryptor.fill]),
      .inr ⟨_, hl⟩⟩

/-- The groups of a write, on a ready core with nothing pending: by the number of groups, each of which takes a byte. -/
theorem Encryptor.writeGroups_ends {fuel : Nat} {e : Encryptor} {k : Sink} {input : List Byte} (n : Nat)
    (hr : e.core.core.Ready) (hp : e.plain.length < 8) (hu : e.unsent = []) (hf : input.length < fuel) :
    e.Ends cfg k input n (e.writeGroups cfg fuel k input n) := by
  induction fuel generalizing e k input n with
  | zero => exact absurd hf (by omega)
  | succ fuel ih =>
    have hl := e.fill_plain_length input
    by_cases h : (e.fill input).plain.length < 8
    · have hall : input.take (8 - e.plain.length) = input := List.take_of_length_le (by omega)
      rw [Encryptor.writeGroups_short h]
      refine ⟨input.length, le_rfl, ?_, .inl ⟨rfl, rfl, hu⟩⟩
      rw [List.take_length]
      exact .of_short hr (by rw [List.length_append]; omega) (by simp [Encryptor.fill, hall]) rfl
    · have hm : 8 - e.plain.length ≤ input.length := by omega
      obtain ⟨stop, left, all⟩ := Encryptor.writeGroups_full (k := k) h fuel n (cfg := cfg) rfl
      obtain ⟨hw, ⟨hx, hp', hu', ha⟩ | ⟨e', hl⟩⟩ := Encryptor.emit_group (cfg := cfg) k hr hp hu h rfl
      · rw [all hx]
        exact .of_wrote hm hw ha
          (ih _ hw.ready (by rw [hp']; exact Nat.zero_lt_succ _) hu' (by rw [List.length_drop]; omega))
      · rcases hl.result with hx | ⟨x, hx⟩
        · rw [left hx]
          exact ⟨_, hm, hw, .inr ⟨e', k, .refl k, hl.short hx rfl⟩⟩
        · rw [stop _ hx]
          exact ⟨_, hm, hw, .inr ⟨e', k, .refl k, hl.io hx _⟩⟩

/-- A write on a ready core ends so, whatever the sink does. -/
theorem Encryptor.write_ends {e : Encryptor} (k : Sink) (input : List Byte) (hr : e.core.core.Ready)
    (hp : e.plain.length < 8) (hc : e.closed = false) (hs : e.context.saved = none) :
    e.Ends cfg k input 0 (e.write cfg k input) := by
  have hp0 : (e.plain ++ input.take 0).length < 8 := by simpa using hp
  rcases e.write_cases (cfg := cfg) k input with ⟨hcl | hsus, -⟩ | h | ⟨k', -, ha, ht, h⟩
  · exact absurd hcl (by simp [hc])
  · exact absurd hs hsus
  · exact ⟨0, Nat.zero_le _, .of_short hr hp0 (by rw [h.enc]; simp) h.bytes, .inr ⟨e, k, .refl k, h⟩⟩
  · rw [h]
    refine .of_wrote (e' := e.delivered) (k' := k') (Nat.zero_le _)
      (.of_short hr hp0 (by simp [Encryptor.delivered]) (by simp [ht, Encryptor.delivered])) ha ?_
    exact Encryptor.writeGroups_ends 0 hr hp rfl (Nat.lt_succ_self _)

/-- The outcomes of a write on a ready core: its count, or an I/O error of the sink; and the count is of less than the
whole only if the sink has left ciphertext. -/
theorem Encryptor.Ends.result {e : Encryptor} {k : Sink} {input : List Byte} {r : WriterResult Nat}
    (h : e.Ends cfg k input 0 r) : ∃ m, m ≤ input.length ∧ e.Wrote cfg k (input.take m) r.enc r.sink ∧
      ((r.result = .ok m ∧ (m < input.length → r.enc.unsent ≠ [])) ∨ ∃ x, r.result = .error (.io x)) := by
  obtain ⟨m, hm, hw, ⟨rfl, hr, -⟩ | ⟨e', k', -, h⟩⟩ := h
  · exact ⟨_, hm, hw, .inl ⟨by rw [hr, Nat.zero_add], fun h => absurd h (lt_irrefl _)⟩⟩
  · exact ⟨m, hm, hw, h.result.imp (fun hr => ⟨by rw [hr, Nat.zero_add], fun _ => h.unsent⟩) id⟩

/-- Settles O56: the bytes of a write, by the groups it takes. -/
theorem writeDeliversEachBlockOnce : Obligations.WriteDeliversEachBlockOnce := by
  intro cfg e k input hr hp hc hs
  obtain ⟨m, hm, hw, hres⟩ := (e.write_ends (cfg := cfg) k input hr hp hc hs).result
  obtain ⟨cs, run, hb⟩ := hw.bytes
  refine ⟨m, cs, hm, fun n hn => ?_, run, hb, ?_⟩
  · rcases hres with ⟨h, -⟩ | ⟨x, h⟩
    · exact Except.ok.inj (hn.symm.trans h)
    · cases hn.symm.trans h
  · rw [hw.plain, eq_encryptBlocks_of_processBlocks hr run, encryptBlocks_length, blocksOf_length, remainder]

end

/-! ### A flush -/

/-- A flush passed on to the sink: done, or the sink's I/O error unchanged; and nothing else (48_host_stream R108). -/
structure Encryptor.PassedOn (e : Encryptor) (k : Sink) (r : WriterResult Unit) : Prop where
  enc : r.enc = e
  taken : r.sink.taken = k.taken
  replies : r.sink.replies = k.replies
  flushed : ∃ flushed, k.flushReplies = flushed ++ r.sink.flushReplies ∧
    flushed.filterMap id = (ioErrorTold r.result).toList
  result : (r.result = .ok () ∧ r.sink.flushes = k.flushes + 1) ∨
    ∃ x, r.result = .error (.io x) ∧ r.sink.flushes = k.flushes

theorem Encryptor.flushSink_passedOn (e : Encryptor) (k : Sink) : e.PassedOn k (e.flushSink k) := by
  unfold Encryptor.flushSink Sink.flush
  match hk : k.flushReplies with
  | [] => exact ⟨rfl, rfl, rfl, ⟨[], by simp [hk], rfl⟩, .inl ⟨rfl, rfl⟩⟩
  | none :: rest => exact ⟨rfl, rfl, rfl, ⟨[none], by simp [hk], rfl⟩, .inl ⟨rfl, rfl⟩⟩
  | some x :: rest => exact ⟨rfl, rfl, rfl, ⟨[some x], by simp [hk], rfl⟩, .inr ⟨x, rfl, rfl⟩⟩

/-- The sink has given exactly these I/O errors, to offers and then to a flush. -/
def Sink.Told (k k' : Sink) (errors : List IoError) : Prop :=
  ∃ used flushed, k.replies = used ++ k'.replies ∧ k.flushReplies = flushed ++ k'.flushReplies ∧
    sinkErrors used ++ flushed.filterMap id = errors

theorem Sink.Answered.told {k k' : Sink} {errors : List IoError} (h : k.Answered k' errors) : k.Told k' errors := by
  obtain ⟨used, hr, he, -, hf⟩ := h
  exact ⟨used, [], hr, by rw [hf]; rfl, by simpa using he⟩

theorem Sink.Answered.trans_told {k k' k'' : Sink} {errors : List IoError} (h : k.Answered k' [])
    (h' : k'.Told k'' errors) : k.Told k'' errors := by
  obtain ⟨used, hr, he, -, hf⟩ := h
  obtain ⟨used', flushed, hr', hf', he'⟩ := h'
  exact ⟨used ++ used', flushed, by rw [hr, hr', List.append_assoc], by rw [← hf, hf'], by simpa [he] using he'⟩

theorem Encryptor.PassedOn.told {e : Encryptor} {k : Sink} {r : WriterResult Unit} (h : e.PassedOn k r) :
    k.Told r.sink (ioErrorTold r.result).toList := by
  obtain ⟨flushed, hf, he⟩ := h.flushed
  exact ⟨[], flushed, by rw [h.replies]; rfl, hf, by simpa [sinkErrors] using he⟩

/-- The outcomes of a flush of an encryptor that is not closed: passed on, misaligned for an incomplete block in the
buffer, or ciphertext left by the sink (48_host_stream R108). -/
theorem Encryptor.flush_cases {e : Encryptor} (k : Sink) (hc : e.closed = false) :
    (∃ k', k.Answered k' [] ∧ k'.taken = k.taken ++ e.unsent ∧
      ((e.plain = [] ∧ e.delivered.PassedOn k' (e.flush k)) ∨
        (e.plain ≠ [] ∧ e.flush k = ⟨e.delivered, k', .error .misalignedFlush⟩))) ∨
    e.Left k (.error .underrun) (e.flush k) := by
  have hc' : ¬ e.closed = true := by simp [hc]
  rw [Encryptor.flush, if_neg hc']
  rcases e.send_cases k with ⟨k', h, ha, ht⟩ | h
  · refine .inl ⟨k', ha, ht, ?_⟩
    rw [h]
    by_cases hp : e.plain = []
    · exact .inl ⟨hp, by simpa [Encryptor.delivered, hp] using e.delivered.flushSink_passedOn k'⟩
    · exact .inr ⟨hp, by simp [Encryptor.delivered, hp]⟩
  · right
    rcases h.result with hr | ⟨x, hr⟩ <;> simp only [hr]
    · exact h.short hr rfl
    · exact h.io hr _

theorem Encryptor.flush_closed {e : Encryptor} (k : Sink) (hc : e.closed = true) :
    e.flush k = ⟨e, k, .error .closed⟩ := by
  rw [Encryptor.flush, if_pos hc]

/-! ### A close -/

section
variable {cfg : Configuration}

/-- The encryptor at the pad block of its close: its pending ciphertext is in the sink, and its buffer is padded. -/
def Encryptor.padReady (e : Encryptor) : Encryptor :=
  { e with closed := true, unsent := [], blocked := false, plain := padded e.plain }

/-- A close of a closed or suspended encryptor is an error of its own, which changes nothing. -/
theorem Encryptor.close_refused (e : Encryptor) (k : Sink) (h : e.closed = true ∨ e.context.saved ≠ none) :
    ∃ x, e.close cfg k = ⟨e, k, .error x⟩ ∧ x.ioError = none := by
  by_cases hc : e.closed = true
  · exact ⟨.closed, by rw [Encryptor.close, if_pos hc], rfl⟩
  · have hs : e.context.saved.isSome = true := Option.isSome_iff_ne_none.2 (h.resolve_left hc)
    exact ⟨.suspended, by rw [Encryptor.close, if_neg hc, if_pos hs], rfl⟩

/-- How a close goes on once the pending ciphertext is in the sink `k`: the core stops, or the pad block is enciphered,
and then the sink has not taken it all, or the flush is passed on (48_host_stream R109). -/
inductive Encryptor.PadBlock (cfg : Configuration) (e : Encryptor) (k : Sink) (r : WriterResult Unit) : Prop where
  | stopped (x) : (∀ q, processBlock cfg .cbcEnc (pack (padded e.plain)) e.core ≠ .next q) → x.ioError = none →
      r = ⟨e.padReady, k, .error x⟩ → PadBlock cfg e k r
  | left (b d) : processBlock cfg .cbcEnc (pack (padded e.plain)) e.core = .next (b, d) →
      (e.padReady.enciphered b d).Left k (.error .shortWrite) r → PadBlock cfg e k r
  | delivered (b d k') : processBlock cfg .cbcEnc (pack (padded e.plain)) e.core = .next (b, d) →
      k.Answered k' [] → k'.taken = k.taken ++ unpack b →
      (e.padReady.enciphered b d).delivered.PassedOn k' r → PadBlock cfg e k r

/-- What a close does once the pending ciphertext is in the sink: `q` is what the pad block's emission leaves. -/
theorem Encryptor.close_padReady {e : Encryptor} {k k' : Sink} (hc : e.closed = false) (hs : e.context.saved = none)
    (h : Encryptor.send { e with closed := true } k = ⟨{ e.delivered with closed := true }, k', .ok true⟩)
    {q : WriterResult Bool} (hq : e.padReady.emit cfg k' = q) :
    (∀ x, q.result = .error x → e.close cfg k = ⟨q.enc, q.sink, .error x⟩) ∧
    (q.result = .ok false → e.close cfg k = ⟨q.enc, q.sink, .error .shortWrite⟩) ∧
    (q.result = .ok true → e.close cfg k = q.enc.flushSink q.sink) := by
  simp only [Encryptor.padReady] at hq
  rw [Encryptor.close, if_neg (by simp [hc]), if_neg (by simp [hs]), h]
  simp only [Encryptor.delivered, hq]
  exact ⟨fun x hx => by simp only [hx], fun hx => by simp only [hx], fun hx => by simp only [hx]⟩

/-- The outcomes of a close of an encryptor that is not closed and runs: what is pending is not taken whole, or the pad
block comes. -/
theorem Encryptor.close_cases {e : Encryptor} (k : Sink) (hc : e.closed = false) (hs : e.context.saved = none) :
    Encryptor.Left { e with closed := true } k (.error .shortWrite) (e.close cfg k) ∨
    ∃ k', k.Answered k' [] ∧ k'.taken = k.taken ++ e.unsent ∧ e.PadBlock cfg k' (e.close cfg k) := by
  rcases Encryptor.send_cases { e with closed := true } k with ⟨k', h, ha, ht⟩ | h
  · refine .inr ⟨k', ha, ht, ?_⟩
    obtain ⟨stop, left, all⟩ := Encryptor.close_padReady (cfg := cfg) hc hs h rfl
    rcases e.padReady.emit_cases (cfg := cfg) k' with ⟨x, hx, hio, hstop⟩ | ⟨b, d, run, he⟩
    · exact .stopped x hstop hio ((stop x (by rw [hx])).trans (by rw [hx]))
    · rw [he] at stop left all
      rcases (e.padReady.enciphered b d).send_cases k' with ⟨k'', h', ha', ht'⟩ | hl
      · refine .delivered b d k'' run ha' ht' ?_
        rw [all (by rw [h']), h']
        exact Encryptor.flushSink_passedOn ..
      · refine .left b d run ?_
        rcases hl.result with hr | ⟨x, hr⟩
        · rw [left hr]
          exact hl.short hr rfl
        · rw [stop _ hr]
          exact hl.io hr _
  · left
    rw [Encryptor.close, if_neg (by simp [hc]), if_neg (by simp [hs])]
    rcases h.result with hr | ⟨x, hr⟩ <;> simp only [hr]
    · exact h.short hr rfl
    · exact h.io hr _

theorem Encryptor.PadBlock.told {e : Encryptor} {k : Sink} {r : WriterResult Unit} (h : e.PadBlock cfg k r) :
    k.Told r.sink (ioErrorTold r.result).toList := by
  cases h with
  | stopped x hstop hx hr =>
    rw [hr, ioErrorTold_error, hx]
    exact (Sink.Answered.refl k).told
  | left b d run hl => exact hl.answered.told
  | delivered b d k' run ha ht hf => exact ha.trans_told hf.told

/-- On a ready core the pad block is enciphered, and its bytes are in the sink or pending. -/
theorem Encryptor.PadBlock.bytes {e : Encryptor} {k : Sink} {r : WriterResult Unit} (h : e.PadBlock cfg k r)
    (hr : e.core.core.Ready) :
    ∃ c, processBlock cfg .cbcEnc (pack (padded e.plain)) e.core = .next (c, r.enc.core) ∧
      r.sink.taken ++ r.enc.unsent = k.taken ++ unpack c := by
  cases h with
  | stopped x hstop hx hr' => exact absurd hstop (processBlock_cbcEnc_goes_on hr _)
  | left b d run hl => exact ⟨b, by rw [hl.enc]; exact run, hl.bytes⟩
  | delivered b d k' run ha ht hf =>
    exact ⟨b, by rw [hf.enc]; exact run, by rw [hf.enc, hf.taken, ht]; exact List.append_nil _⟩

/-! ### What the caller of the encryptor is answered -/

theorem Sink.Answered.flushes {k k' : Sink} {errors : List IoError} (h : k.Answered k' errors) :
    k'.flushes = k.flushes := by
  obtain ⟨used, -, -, hf, -⟩ := h
  exact hf

theorem Sink.Answered.flushReplies {k k' : Sink} {errors : List IoError} (h : k.Answered k' errors) :
    k'.flushReplies = k.flushReplies := by
  obtain ⟨used, -, -, -, hf⟩ := h
  exact hf

/-- A call that has told no I/O error and left ciphertext ends as it does where the sink took too little. -/
theorem Encryptor.Left.result_eq {α : Type} {e : Encryptor} {k : Sink} {short : Except StreamError α}
    {r : WriterResult α} (h : e.Left k short r) (ht : ioErrorTold r.result = none) : r.result = short := by
  rcases h.result with hr | ⟨x, hr⟩
  · exact hr
  · rw [hr] at ht
    cases ht

/-- A flush passed on that has told no I/O error is done. -/
theorem Encryptor.PassedOn.result_eq {e : Encryptor} {k : Sink} {r : WriterResult Unit} (h : e.PassedOn k r)
    (ht : ioErrorTold r.result = none) : r.result = .ok () := by
  rcases h.result with ⟨hr, -⟩ | ⟨x, hr, -⟩
  · exact hr
  · rw [hr] at ht
    cases ht

/-- The sink counts a flush exactly when the call succeeds. -/
theorem Encryptor.PassedOn.flushes {e : Encryptor} {k : Sink} {r : WriterResult Unit} (h : e.PassedOn k r) :
    (r.result = .ok () → r.sink.flushes = k.flushes + 1) ∧ (r.result ≠ .ok () → r.sink.flushes = k.flushes) := by
  rcases h.result with ⟨hr, hf⟩ | ⟨x, hr, hf⟩
  · exact ⟨fun _ => hf, fun h => absurd hr h⟩
  · exact ⟨fun h => absurd (h.symm.trans hr) (by simp), fun _ => hf⟩

end

section
variable {cfg : Configuration} {e : Encryptor}

theorem Encryptor.flush_flushes (k : Sink) (hc : e.closed = false) :
    ((e.flush k).result = .ok () → (e.flush k).sink.flushes = k.flushes + 1) ∧
    ((e.flush k).result ≠ .ok () → (e.flush k).sink.flushes = k.flushes) := by
  rcases e.flush_cases k hc with ⟨k', ha, -, ⟨-, h⟩ | ⟨-, h⟩⟩ | h
  · rw [← ha.flushes]
    exact h.flushes
  · rw [h]
    exact ⟨nofun, fun _ => ha.flushes⟩
  · exact ⟨fun hr => absurd hr (h.result_ne nofun), fun _ => h.answered.flushes⟩

/-- A flush that has told no I/O error: what it is short of. -/
theorem Encryptor.flush_result (k : Sink) (hc : e.closed = false) (ht : ioErrorTold (e.flush k).result = none) :
    (e.flush k).result = if (e.flush k).enc.unsent ≠ [] then .error .underrun
      else if e.plain ≠ [] then .error .misalignedFlush else .ok () := by
  rcases e.flush_cases k hc with ⟨k', -, -, ⟨hp, h⟩ | ⟨hp, h⟩⟩ | h
  · rw [if_neg (by rw [h.enc]; simp [Encryptor.delivered]), if_neg (by simpa using hp)]
    exact h.result_eq ht
  · rw [h, if_neg (by simp [Encryptor.delivered]), if_pos hp]
  · rw [if_pos h.unsent]
    exact h.result_eq ht

/-- A flush that delivers all that is pending, with a partial block in the buffer. -/
theorem Encryptor.flush_misaligned (k : Sink) (hc : e.closed = false) (hu : (e.flush k).enc.unsent = [])
    (hp : e.plain ≠ []) : (e.flush k).result = .error .misalignedFlush ∧
      (e.flush k).sink.flushReplies = k.flushReplies ∧ (e.flush k).enc = { e with unsent := [], blocked := false } := by
  rcases e.flush_cases k hc with ⟨k', ha, -, ⟨hp', -⟩ | ⟨-, h⟩⟩ | h
  · exact absurd hp' hp
  · rw [h]
    exact ⟨rfl, ha.flushReplies, rfl⟩
  · exact absurd hu h.unsent

theorem Encryptor.close_flushes (k : Sink) (hc : e.closed = false) (hs : e.context.saved = none)
    (hne : (e.close cfg k).result ≠ .ok ()) : (e.close cfg k).sink.flushes = k.flushes := by
  rcases e.close_cases (cfg := cfg) k hc hs with h | ⟨k', ha, -, h⟩
  · exact h.answered.flushes
  · rw [← ha.flushes]
    cases h with
    | stopped x hstop hx hr => rw [hr]
    | left b d run hl => exact hl.answered.flushes
    | delivered b d k'' run ha' ht hf => exact (hf.flushes.2 hne).trans ha'.flushes

/-- A close that succeeds has delivered the ciphertext of the pad block, and flushed the sink once. -/
theorem Encryptor.close_succeeded (k : Sink) (hc : e.closed = false) (hs : e.context.saved = none)
    (hok : (e.close cfg k).result = .ok ()) :
    (e.close cfg k).enc.unsent = [] ∧ (e.close cfg k).sink.flushes = k.flushes + 1 ∧
      ∃ b, processBlock cfg .cbcEnc (pack (padded e.plain)) e.core = .next (b, (e.close cfg k).enc.core) ∧
        (e.close cfg k).sink.taken = k.taken ++ e.unsent ++ unpack b := by
  rcases e.close_cases (cfg := cfg) k hc hs with h | ⟨k', ha, ht, h⟩
  · exact absurd hok (h.result_ne nofun)
  · cases h with
    | stopped x hstop hx hr => cases hr ▸ hok
    | left b d run hl => exact absurd hok (hl.result_ne nofun)
    | delivered b d k'' run ha' ht' hf =>
      refine ⟨by rw [hf.enc]; rfl, ?_, b, by rw [hf.enc]; exact run, by rw [hf.taken, ht', ht]⟩
      rw [hf.flushes.1 hok, ha'.flushes, ha.flushes]

/-- A close on a ready core that has told no I/O error: a short write, or done. -/
theorem Encryptor.close_result (k : Sink) (hc : e.closed = false) (hs : e.context.saved = none)
    (hr : e.core.core.Ready) (ht : ioErrorTold (e.close cfg k).result = none) :
    (e.close cfg k).result = if (e.close cfg k).enc.unsent ≠ [] then .error .shortWrite else .ok () := by
  rcases e.close_cases (cfg := cfg) k hc hs with h | ⟨k', -, -, h⟩
  · rw [if_pos h.unsent]
    exact h.result_eq ht
  · cases h with
    | stopped x hstop hx hr' => exact absurd hstop (processBlock_cbcEnc_goes_on hr _)
    | left b d run hl =>
      rw [if_pos hl.unsent]
      exact hl.result_eq ht
    | delivered b d k'' run ha ht' hf =>
      rw [if_neg (by rw [hf.enc]; simp [Encryptor.delivered])]
      exact hf.result_eq ht

/-- Settles O59: by the outcomes of a write, of a flush and of a close. -/
theorem encryptorAnswersFollowTheSink : Obligations.EncryptorAnswersFollowTheSink := by
  intro cfg e k hc
  refine ⟨fun input hr hp hs => ?_, (e.flush_flushes k hc).1, (e.flush_flushes k hc).2, e.flush_misaligned k hc,
    e.flush_result k hc, fun hs => ⟨e.close_succeeded k hc hs, e.close_flushes k hc hs, e.close_result k hc hs⟩⟩
  obtain ⟨m, -, -, hres⟩ := (e.write_ends (cfg := cfg) k input hr hp hc hs).result
  refine ⟨(e.write_answered k input).flushes, fun x hx => ?_, fun n hn hlt => ?_⟩
  · rcases hres with ⟨h, -⟩ | ⟨y, h⟩
    · cases h.symm.trans hx
    · exact ⟨y, Except.error.inj (hx.symm.trans h)⟩
  · rcases hres with ⟨h, hu⟩ | ⟨y, h⟩
    · cases h.symm.trans hn
      exact hu hlt
    · cases h.symm.trans hn

/-! ### A plaintext cut into writes -/

/-- A write whose sink takes every byte takes its whole input. -/
theorem Encryptor.write_all {k : Sink} (input : List Byte) (hr : e.core.core.Ready) (hp : e.plain.length < 8)
    (hc : e.closed = false) (hs : e.context.saved = none) (hk : k.replies = []) :
    (e.write cfg k input).result = .ok input.length ∧ (e.write cfg k input).enc.unsent = [] ∧
      e.Wrote cfg k input (e.write cfg k input).enc (e.write cfg k input).sink := by
  obtain ⟨m, -, hw, ⟨rfl, hres, hu⟩ | ⟨e', k', ha, h⟩⟩ := e.write_ends (cfg := cfg) k input hr hp hc hs
  · rw [List.take_length] at hw
    exact ⟨by rw [hres, Nat.zero_add], hu, hw⟩
  · exact absurd (ha.of_replies_nil hk).1 h.replies

theorem Encryptor.Wrote.plain_length {e' : Encryptor} {k k' : Sink} {t : List Byte} (h : e.Wrote cfg k t e' k') :
    e'.plain.length < 8 := by
  rw [h.plain, remainder_length]
  omega

/-- Writes of all chunks, whose sink takes every byte, are one write of the chunks joined. -/
theorem Encryptor.writeAll_wrote {k : Sink} (chunks : List (List Byte)) (hr : e.core.core.Ready)
    (hp : e.plain.length < 8) (hu : e.unsent = []) (hc : e.closed = false) (hs : e.context.saved = none)
    (hk : k.replies = []) :
    let r := e.writeAll cfg k chunks
    r.2.2 = chunks.map (fun b => .ok b.length) ∧ r.1.unsent = [] ∧ k.Answered r.2.1 [] ∧
      e.Wrote cfg k chunks.flatten r.1 r.2.1 := by
  induction chunks generalizing e k with
  | nil => exact ⟨rfl, hu, .refl k, .of_short hr (by simpa using hp) (by simp [Encryptor.writeAll]) rfl⟩
  | cons c cs ih =>
    obtain ⟨hres, hu', hw⟩ := e.write_all (cfg := cfg) c hr hp hc hs hk
    have ha := e.write_answered (cfg := cfg) k c
    rw [hres] at ha
    obtain ⟨hall, hnil, ha', hw'⟩ := ih hw.ready hw.plain_length hu' (hw.closed.trans hc) (by rw [hw.context, hs])
      (ha.of_replies_nil hk).1
    exact ⟨congrArg₂ List.cons hres hall, hnil, ha.trans ha', hw.trans hw'⟩

/-- A close on a ready core whose sink takes every byte succeeds. -/
theorem Encryptor.close_all {k : Sink} (hr : e.core.core.Ready) (hc : e.closed = false)
    (hs : e.context.saved = none) (hk : k.replies = []) (hf : k.flushReplies = []) :
    (e.close cfg k).result = .ok () := by
  rcases e.close_cases (cfg := cfg) k hc hs with h | ⟨k', ha, -, h⟩
  · exact absurd hk h.replies
  · have hk' := (ha.of_replies_nil hk).1
    cases h with
    | stopped x hstop hx hr' => exact absurd hstop (processBlock_cbcEnc_goes_on hr _)
    | left b d run hl => exact absurd hk' hl.replies
    | delivered b d k'' run ha' ht' hp =>
      obtain ⟨flushed, hfl, he⟩ := hp.flushed
      rw [ha'.flushReplies, ha.flushReplies, hf] at hfl
      rw [(List.append_eq_nil_iff.1 hfl.symm).1] at he
      exact hp.result_eq (by simpa using he.symm)

/-- Settles O48: the writes take the whole plaintext, and the close takes its remainder with the padding. -/
theorem encryptorIgnoresChunking : Obligations.EncryptorIgnoresChunking := by
  intro cfg d k chunks hd r c
  obtain ⟨hall, hu, ha, hw⟩ := Encryptor.writeAll_wrote (cfg := cfg) (e := ⟨d, ⟨k, none⟩, [], [], false, false⟩)
    (k := ⟨[], [], 0, []⟩) chunks hd (Nat.zero_lt_succ _) rfl rfl rfl rfl
  have hs : r.1.context.saved = none := by rw [hw.context]
  have hok : c.result = .ok () :=
    Encryptor.close_all hw.ready hw.closed hs (ha.of_replies_nil rfl).1 ha.flushReplies
  obtain ⟨-, hf, b, run', ht⟩ := Encryptor.close_succeeded r.2.1 hw.closed hs hok
  obtain ⟨cs, run, hb⟩ := hw.bytes
  rw [hw.plain] at run'
  have hcs := eq_encryptBlocks_of_processBlocks hd (processBlocks_append_next run (processBlocks_singleton run'))
  refine ⟨hall, hok, ?_, hf.trans (congrArg (· + 1) ha.flushes)⟩
  simp only [List.nil_append] at hcs hb
  rw [ciphertextOf, blocksOf_padded, ← hcs, ht, hb]
  simp

end

/-! ### The states of a stream (48_host_stream R102) -/

section
variable {e : Encryptor}

theorem Encryptor.phase_closed (h : e.closed = true) : e.phase = .closed := by
  rw [Encryptor.phase, if_pos h]

theorem Encryptor.closed_of_phase (h : e.phase = .closed) : e.closed = true := by
  by_contra hc
  rw [Encryptor.phase, if_neg hc] at h
  split_ifs at h

/-- Pending ciphertext is offered or not. -/
theorem Encryptor.phase_unsent (hc : e.closed = false) (hu : e.unsent ≠ []) :
    e.phase = if e.blocked = true then .pendingWrite else .draining := by
  rw [Encryptor.phase, if_neg (by simp [hc]), if_pos (by simpa using hu)]

/-- With nothing on its way, the buffer says the state. -/
theorem Encryptor.phase_sent (hc : e.closed = false) (hu : e.unsent = []) :
    e.phase = if 8 ≤ e.plain.length then .blockReady else if e.plain = [] then .idle else .buffering := by
  rw [Encryptor.phase, if_neg (by simp [hc]), if_neg (by simp [hu])]
  by_cases hp : e.plain = [] <;> simp [hp]

/-- What a block's ciphertext does at an offer: it is gone, and the buffer is empty; or it is a pending write. -/
theorem Encryptor.send_phase (k : Sink) (hc : e.closed = false) (hp : e.plain = []) :
    (e.send k).enc.phase = if (e.send k).result = .ok true then .idle else .pendingWrite := by
  rcases e.send_cases k with ⟨k', h, -, -⟩ | h
  · rw [h, if_pos rfl]
    exact (Encryptor.phase_sent (e := e.delivered) hc rfl).trans (by simp [Encryptor.delivered, hp])
  · have hc' : (e.send k).enc.closed = false := by rw [h.enc, hc]
    rw [if_neg (h.result_ne (by simp)), Encryptor.phase_unsent hc' h.unsent, if_pos (by rw [h.enc])]

/-- Only a call that takes the offer whole goes on to the input. -/
theorem Encryptor.write_blocked {cfg : Configuration} (k : Sink) (input : List Byte) (h : (e.send k).result ≠ .ok true) :
    (e.write cfg k input).enc.plain = e.plain ∧ (e.write cfg k input).enc.core = e.core ∧
      ∀ n, (e.write cfg k input).result = .ok n → n = 0 := by
  rcases e.write_cases (cfg := cfg) k input with ⟨-, x, hx, -⟩ | hl | ⟨k', hs, -⟩
  · rw [hx]
    exact ⟨rfl, rfl, nofun⟩
  · refine ⟨by rw [hl.enc], by rw [hl.enc], fun n hn => ?_⟩
    by_contra h0
    exact hl.result_ne (fun h => h0 (Except.ok.inj h).symm) hn
  · rw [hs] at h
    exact absurd rfl h

theorem Encryptor.close_phase {cfg : Configuration} (k : Sink) (hs : e.context.saved = none) :
    (e.close cfg k).enc.phase = .closed := by
  cases hc : e.closed with
  | true =>
    obtain ⟨x, h, -⟩ := e.close_refused (cfg := cfg) k (.inl hc)
    rw [h]
    exact Encryptor.phase_closed hc
  | false =>
    apply Encryptor.phase_closed
    rcases e.close_cases (cfg := cfg) k hc hs with h | ⟨k', -, -, h⟩
    · rw [h.enc]
    · cases h with
      | stopped x hstop hx hr => rw [hr]; rfl
      | left b d run hl => rw [hl.enc]; rfl
      | delivered b d k'' run ha ht hf => rw [hf.enc]; rfl

/-- The ready block of an encryptor on a ready core is enciphered, and its ciphertext is to be drained. -/
theorem Encryptor.cipherStep_ready {cfg : Configuration} (hr : e.core.core.Ready) :
    ∃ b d, e.cipherStep cfg = .next (e.enciphered b d) := by
  obtain ⟨b, d, run, -⟩ := processBlock_cbcEnc_ready (cfg := cfg) hr (pack e.plain)
  exact ⟨b, d, by rw [Encryptor.cipherStep, run]; rfl⟩

end

section
variable {d : Decryptor}

theorem Decryptor.phase_blockReady (h : 8 ≤ d.carry.length) : d.phase = .blockReady := by
  rw [Decryptor.phase, if_pos h]

theorem Decryptor.phase_of_carry_short (h : d.carry.length < 8) : d.phase =
    if d.buffer ≠ [] then .draining else if d.carry = [] ∧ d.held = none then .idle else .buffering := by
  rw [Decryptor.phase, if_neg (by omega)]
  by_cases hb : d.buffer = [] <;> by_cases hc : d.carry = [] <;> cases hh : d.held <;> simp [hb, hc]

/-- CBC_DEC on a ready core takes the first whole block, holds its plaintext back and releases the one held until now. -/
theorem Decryptor.cipherStep_ready {cfg : Configuration} (hr : d.core.core.Ready) :
    ∃ core, BlockDone d.core core (pack (d.carry.take 8)) ∧ d.cipherStep cfg = .next { d with
      core := core, carry := d.carry.drop 8, buffer := d.buffer ++ d.held.getD [],
      held := some (unpack (decryptStep cfg.variant d.core.core.key (pack (d.carry.take 8)) d.core.core.chain).1) } := by
  obtain ⟨core, run, done⟩ := processBlock_cbcDec (cfg := cfg) hr (pack (d.carry.take 8))
  exact ⟨core, done, by rw [Decryptor.cipherStep, run]; rfl⟩

/-- What the released bytes can answer is answered from them, and nothing is pulled. -/
theorem Decryptor.pull_released {cfg : Configuration} {n : Nat} (h : n ≤ d.buffer.length) (src : List SourceReply) :
    d.pull cfg n src = .got () { d with source := src } := by
  match src with
  | [] | .fails _ :: _ | .chunk _ :: _ => rw [Decryptor.pull, if_pos h]

theorem Decryptor.read_released {cfg : Configuration} {n : Nat} (hs : d.context.saved = none)
    (h : n ≤ d.buffer.length) : d.read cfg n = .got (d.buffer.take n) { d with buffer := d.buffer.drop n } := by
  rw [Decryptor.read, if_neg (by simp [hs]), Decryptor.pull_released h]

end

/-- Settles O58: the state by what is pending and buffered, and what each operation leaves of it. -/
theorem streamsFollowTheStateMachine : Obligations.StreamsFollowTheStateMachine := by
  intro cfg
  refine ⟨fun e input hr hc hu hp => ⟨?_, fun hl hne => ?_, fun hl => ?_⟩,
    fun e k input _ h => e.write_blocked k input h, fun e k => e.close_phase k, fun e k input h => ?_, fun d hr h8 => ⟨d.phase_blockReady h8, ?_⟩,
    fun d => d.phase_of_carry_short, fun d n hs hn => ⟨d.read_released hs hn, fun hl hlt => ?_, fun hl heq => ?_⟩⟩
  · rw [Encryptor.phase_sent hc hu, if_neg (by omega)]
  · have hf : (e.fill input).plain = e.plain ++ input := by
      rw [Encryptor.fill, List.take_of_length_le (by omega)]
    rw [Encryptor.phase_sent (e := e.fill input) hc hu, hf, if_neg (by simp; omega), if_neg hne]
  · obtain ⟨b, d, run⟩ := (e.fill input).cipherStep_ready (cfg := cfg) hr
    have h8 : 8 ≤ (e.fill input).plain.length := by
      rw [e.fill_plain_length]
      omega
    exact ⟨by rw [Encryptor.phase_sent (e := e.fill input) hc hu, if_pos h8], _, run,
      Encryptor.phase_unsent (e := (e.fill input).enciphered b d) hc (List.cons_ne_nil _ _),
      fun k => Encryptor.send_phase k hc rfl⟩
  · have hc := e.closed_of_phase h
    exact ⟨by rw [Encryptor.write, if_pos hc], e.flush_closed k hc, by rw [Encryptor.close, if_pos hc]⟩
  · obtain ⟨core, -, run⟩ := d.cipherStep_ready (cfg := cfg) hr
    exact ⟨_, run, rfl, nofun, rfl⟩
  · exact (Decryptor.phase_of_carry_short (d := { d with buffer := d.buffer.drop n }) hl).trans
      (if_pos (by simpa using hlt))
  · exact (Decryptor.phase_of_carry_short (d := { d with buffer := d.buffer.drop n }) hl).trans
      (if_neg (by simp [heq]))

/-! ### What a decryptor pulls from its source -/

section
variable {cfg : Configuration} {n : Nat}

/-- A chunk joined to the leftover bytes, and the complete blocks of both decrypted (48_host_stream R110). -/
def Decryptor.absorb (cfg : Configuration) (d : Decryptor) (bytes : List Byte) : Except StreamError Decryptor :=
  Decryptor.feed cfg (d.carry ++ bytes).length { d with carry := d.carry ++ bytes }

/-- The source put in place of a decryptor's own. -/
def Decryptor.withSource (d : Decryptor) (s : List SourceReply) : Decryptor := { d with source := s }

section
variable {d : Decryptor}

theorem Decryptor.pull_nil (h : ¬ n ≤ d.buffer.length) :
    (∀ x, (d.withSource []).exhausted = .error x → d.pull cfg n [] = .aborted x) ∧
    (∀ d', (d.withSource []).exhausted = .ok d' → d.pull cfg n [] = .got () d') := by
  rw [Decryptor.pull, if_neg h]
  exact ⟨fun x hx => by simp only [Decryptor.withSource] at hx; simp only [hx],
    fun d' hd => by simp only [Decryptor.withSource] at hd; simp only [hd]⟩

theorem Decryptor.pull_fails (h : ¬ n ≤ d.buffer.length) (y : IoError) (cs : List SourceReply) :
    d.pull cfg n (.fails y :: cs) = .again (.io y) (d.withSource cs) := by
  rw [Decryptor.pull, if_neg h]
  rfl

theorem Decryptor.pull_empty (h : ¬ n ≤ d.buffer.length) (cs : List SourceReply) :
    d.pull cfg n (.chunk [] :: cs) = d.pull cfg n cs := by
  rw [Decryptor.pull, if_neg h]
  rfl

theorem Decryptor.pull_tooShort (h : ¬ n ≤ d.buffer.length) {b : List Byte} (hb : b ≠ []) (hl : b.length < 8)
    (cs : List SourceReply) : d.pull cfg n (.chunk b :: cs) = .aborted .malformedLength := by
  rw [Decryptor.pull, if_neg h, if_neg (by simpa using hb), if_pos hl]

theorem Decryptor.pull_chunk (h : ¬ n ≤ d.buffer.length) {b : List Byte} (hl : ¬ b.length < 8) :
    (∀ x, d.absorb cfg b = .error x → ∀ cs, d.pull cfg n (.chunk b :: cs) = .aborted x) ∧
    (∀ d', d.absorb cfg b = .ok d' → ∀ cs, d.pull cfg n (.chunk b :: cs) = d'.pull cfg n cs) := by
  have hb : ¬ b.isEmpty = true := fun hb => hl (by rw [List.isEmpty_iff.1 hb]; decide)
  simp only [Decryptor.absorb]
  constructor <;> intro x hx cs <;> rw [Decryptor.pull, if_neg h, if_neg hb, if_neg hl] <;> simp only [hx]

end

/-- With no whole block at hand there is nothing to decrypt. -/
theorem Decryptor.feed_short {d : Decryptor} (h : d.carry.length < 8) (fuel : Nat) : d.feed cfg fuel = .ok d := by
  cases fuel with
  | zero => rfl
  | succ fuel => rw [Decryptor.feed, if_pos h]

/-- With a whole block at hand the cipher step comes first, and a core that stops ends the call. -/
theorem Decryptor.feed_step {d : Decryptor} (h : ¬ d.carry.length < 8) (fuel : Nat) :
    (∀ d', d.cipherStep cfg = .next d' → d.feed cfg (fuel + 1) = d'.feed cfg fuel) ∧
    (∀ f, d.cipherStep cfg = .fault f → d.feed cfg (fuel + 1) = .error (.coreFault f)) ∧
    (∀ f, d.cipherStep cfg = .refused f → d.feed cfg (fuel + 1) = .error (.coreRefused f)) := by
  rw [Decryptor.feed, if_neg h]
  exact ⟨fun d' hd => by simp only [hd], fun f hf => by simp only [hf], fun f hf => by simp only [hf]⟩

theorem Decryptor.cipherStep_withSource (d : Decryptor) (s : List SourceReply) :
    (d.withSource s).cipherStep cfg = andThen (d.cipherStep cfg) fun d' => .next (d'.withSource s) := by
  simp only [Decryptor.cipherStep, Decryptor.withSource]
  cases processBlock cfg .cbcDec (pack (d.carry.take 8)) d.core <;> rfl

theorem Decryptor.cipherStep_context {d d' : Decryptor} (h : d.cipherStep cfg = .next d') : d'.context = d.context := by
  rw [Decryptor.cipherStep] at h
  cases hp : processBlock cfg .cbcDec (pack (d.carry.take 8)) d.core with
  | next r => rw [hp] at h; cases h; rfl
  | fault f => rw [hp] at h; cases h
  | refused r => rw [hp] at h; cases h

/-- Decrypting what is at hand neither looks at the source nor changes it. -/
theorem Decryptor.feed_withSource (fuel : Nat) (d : Decryptor) (s : List SourceReply) :
    (d.withSource s).feed cfg fuel = (d.feed cfg fuel).map (·.withSource s) := by
  induction fuel generalizing d with
  | zero => rfl
  | succ fuel ih =>
    by_cases h : d.carry.length < 8
    · rw [Decryptor.feed_short h, Decryptor.feed_short (d := d.withSource s) h]
      rfl
    · obtain ⟨next, fault, refused⟩ := Decryptor.feed_step (cfg := cfg) h fuel
      obtain ⟨next', fault', refused'⟩ := Decryptor.feed_step (cfg := cfg) (d := d.withSource s) h fuel
      rw [d.cipherStep_withSource s] at next' fault' refused'
      cases hs : d.cipherStep cfg with
      | next d' => rw [next d' hs, next' (d'.withSource s) (by rw [hs]; rfl), ih]
      | fault f => rw [fault f hs, fault' f (by rw [hs]; rfl)]; rfl
      | refused f => rw [refused f hs, refused' f (by rw [hs]; rfl)]; rfl

/-- Decrypting keeps the key and the saved chain, and a core that stops is no I/O error. -/
theorem Decryptor.feed_frame (fuel : Nat) (d : Decryptor) :
    (∀ d', d.feed cfg fuel = .ok d' → d'.context = d.context) ∧
    (∀ x, d.feed cfg fuel = .error x → x.ioError = none) := by
  induction fuel generalizing d with
  | zero => exact ⟨fun d' h => by cases h; rfl, nofun⟩
  | succ fuel ih =>
    by_cases h : d.carry.length < 8
    · rw [Decryptor.feed_short h]
      exact ⟨fun d' h => by cases h; rfl, nofun⟩
    · obtain ⟨next, fault, refused⟩ := Decryptor.feed_step (cfg := cfg) h fuel
      cases hs : d.cipherStep cfg with
      | next d1 =>
        rw [next d1 hs]
        exact ⟨fun d' h => ((ih d1).1 d' h).trans (Decryptor.cipherStep_context hs), (ih d1).2⟩
      | fault f => exact ⟨by rw [fault f hs]; nofun, fun x h => by cases (fault f hs).symm.trans h; rfl⟩
      | refused f => exact ⟨by rw [refused f hs]; nofun, fun x h => by cases (refused f hs).symm.trans h; rfl⟩

theorem Decryptor.absorb_withSource (d : Decryptor) (s : List SourceReply) (b : List Byte) :
    (d.withSource s).absorb cfg b = (d.absorb cfg b).map (·.withSource s) :=
  Decryptor.feed_withSource _ { d with carry := d.carry ++ b } s

theorem Decryptor.absorb_frame (d : Decryptor) (b : List Byte) :
    (∀ d', d.absorb cfg b = .ok d' → d'.context = d.context) ∧
    (∀ x, d.absorb cfg b = .error x → x.ioError = none) :=
  Decryptor.feed_frame _ { d with carry := d.carry ++ b }

/-- A pull looks at the answers it is given, and not at the decryptor's own source. -/
theorem Decryptor.pull_withSource (src : List SourceReply) (d : Decryptor) (s : List SourceReply) :
    (d.withSource s).pull cfg n src = d.pull cfg n src := by
  induction src generalizing d with
  | nil => rfl
  | cons c cs ih =>
    by_cases h : n ≤ d.buffer.length
    · rw [Decryptor.pull_released h, Decryptor.pull_released (d := d.withSource s) h]
      rfl
    have h' : ¬ n ≤ (d.withSource s).buffer.length := h
    match c with
    | .fails y => rw [Decryptor.pull_fails h, Decryptor.pull_fails h']; rfl
    | .chunk b =>
      by_cases hb : b = []
      · rw [hb, Decryptor.pull_empty h, Decryptor.pull_empty h', ih]
      by_cases hl : b.length < 8
      · rw [Decryptor.pull_tooShort h hb hl, Decryptor.pull_tooShort h' hb hl]
      · obtain ⟨stop, go⟩ := Decryptor.pull_chunk (cfg := cfg) h hl
        obtain ⟨stop', go'⟩ := Decryptor.pull_chunk (cfg := cfg) h' hl
        rw [d.absorb_withSource s b] at stop' go'
        cases ha : d.absorb cfg b with
        | error x => rw [stop x ha, stop' x (by rw [ha]; rfl)]
        | ok d' => rw [go d' ha, go' (d'.withSource s) (by rw [ha]; rfl), ih]

theorem eq_malformedPad_of_stripPad {b : List Byte} {x : StreamError} (h : stripPad b = .error x) :
    x = .malformedPad := by
  simp only [stripPad] at h
  split_ifs at h
  exact (Except.error.inj h).symm

/-- The outcomes at the end of the source (48_host_stream R111 to R113). -/
theorem Decryptor.exhausted_cases (d : Decryptor) :
    (d.done = true ∧ d.exhausted = .ok d) ∨
    (d.done = false ∧ (d.carry ≠ [] ∨ d.held = none) ∧ d.exhausted = .error .malformedLength) ∨
    (d.done = false ∧ d.carry = [] ∧ ∃ h, d.held = some h ∧
      ((stripPad h = .error .malformedPad ∧ d.exhausted = .error .malformedPad) ∨
        ∃ bytes, stripPad h = .ok bytes ∧
          d.exhausted = .ok { d with held := none, buffer := d.buffer ++ bytes, done := true })) := by
  rw [Decryptor.exhausted]
  cases hd : d.done with
  | true => exact .inl ⟨rfl, if_pos rfl⟩
  | false =>
    rw [if_neg (by simp)]
    right
    by_cases hc : d.carry = []
    · rw [if_neg (by simp [hc])]
      cases hh : d.held with
      | none => exact .inl ⟨rfl, .inr rfl, rfl⟩
      | some h =>
        refine .inr ⟨rfl, hc, h, rfl, ?_⟩
        cases hp : stripPad h with
        | ok bytes => exact .inr ⟨bytes, rfl, by simp only [hp]⟩
        | error x =>
          obtain rfl := eq_malformedPad_of_stripPad hp
          exact .inl ⟨rfl, by simp only [hp]⟩
    · exact .inl ⟨rfl, .inl hc, if_pos (by simpa using hc)⟩

/-! ### The I/O errors of a read -/

/-- The I/O errors among the answers of a source. -/
def sourceErrors (src : List SourceReply) : List IoError := src.filterMap SourceReply.ioError

/-- The outcomes of a pull from the answers `src`: it has used some chunks and no error; or it has used chunks up to
the first error, is told it, and goes on later as if that had not come; or it has used chunks and aborts, whatever comes
after them unless the source was at its end (48_host_stream R110, R114). -/
inductive Decryptor.Pulled (cfg : Configuration) (n : Nat) (d : Decryptor) (src : List SourceReply) :
    Reading Unit → Prop where
  | got (used d') : src = used ++ d'.source → sourceErrors used = [] → Pulled cfg n d src (.got () d')
  | again (init y d') : src = init ++ .fails y :: d'.source → sourceErrors init = [] → d'.context = d.context →
      (∀ more, d.pull cfg n (init ++ more) = d'.pull cfg n more) → Pulled cfg n d src (.again (.io y) d')
  | aborted (used rest x) : src = used ++ rest → sourceErrors used = [] → x.ioError = none →
      (rest ≠ [] → ∀ more, d.pull cfg n (used ++ more) = .aborted x) → Pulled cfg n d src (.aborted x)

/-- A chunk that a pull takes, before what it goes on to. -/
theorem Decryptor.Pulled.cons {d d1 : Decryptor} {b : List Byte} {src : List SourceReply} {r : Reading Unit}
    (hstep : ∀ more, d.pull cfg n (.chunk b :: more) = d1.pull cfg n more) (hc : d1.context = d.context)
    (h : d1.Pulled cfg n src r) : d.Pulled cfg n (.chunk b :: src) r := by
  cases h with
  | got used d' hs he => exact .got (.chunk b :: used) d' (by rw [hs]; rfl) he
  | again init y d' hs he hc' hm =>
    exact .again (.chunk b :: init) y d' (by rw [hs]; rfl) he (hc'.trans hc) fun more => (hstep _).trans (hm more)
  | aborted used rest x hs he hx hm =>
    exact .aborted (.chunk b :: used) rest x (by rw [hs]; rfl) he hx fun hr more => (hstep _).trans (hm hr more)

/-- The inversion lemma of `Decryptor.pull`. -/
theorem Decryptor.pull_pulled (src : List SourceReply) (d : Decryptor) :
    d.Pulled cfg n src (d.pull cfg n src) := by
  induction src generalizing d with
  | nil =>
    by_cases h : n ≤ d.buffer.length
    · rw [Decryptor.pull_released h]
      exact .got [] _ rfl rfl
    · obtain ⟨stop, go⟩ := Decryptor.pull_nil (cfg := cfg) h
      rcases (d.withSource []).exhausted_cases with ⟨-, hx⟩ | ⟨-, -, hx⟩ | ⟨-, -, p, -, ⟨-, hx⟩ | ⟨bytes, -, hx⟩⟩
      · rw [go _ hx]
        exact .got [] _ rfl rfl
      · rw [stop _ hx]
        exact .aborted [] [] _ rfl rfl rfl fun h => absurd rfl h
      · rw [stop _ hx]
        exact .aborted [] [] _ rfl rfl rfl fun h => absurd rfl h
      · rw [go _ hx]
        exact .got [] _ rfl rfl
  | cons c cs ih =>
    by_cases h : n ≤ d.buffer.length
    · rw [Decryptor.pull_released h]
      exact .got [] _ rfl rfl
    match c with
    | .fails y =>
      rw [Decryptor.pull_fails h]
      exact .again [] y _ rfl rfl rfl fun more => (Decryptor.pull_withSource more d cs).symm
    | .chunk b =>
      by_cases hb : b = []
      · subst hb
        rw [Decryptor.pull_empty h]
        exact .cons (Decryptor.pull_empty h) rfl (ih d)
      by_cases hl : b.length < 8
      · rw [Decryptor.pull_tooShort h hb hl]
        exact .aborted [.chunk b] cs _ rfl rfl rfl fun _ more => Decryptor.pull_tooShort h hb hl more
      · obtain ⟨stop, go⟩ := Decryptor.pull_chunk (cfg := cfg) h hl
        cases ha : d.absorb cfg b with
        | error x =>
          rw [stop x ha]
          exact .aborted [.chunk b] cs x rfl rfl ((d.absorb_frame b).2 x ha) fun _ => stop x ha
        | ok d' =>
          rw [go d' ha]
          exact .cons (go d' ha) ((d.absorb_frame b).1 d' ha) (ih d')

/-- A read of a decryptor that runs is a pull, and what the pull has released. -/
theorem Decryptor.read_running {d : Decryptor} (hs : d.context.saved = none) :
    (∀ u d', d.pull cfg n d.source = .got u d' →
      d.read cfg n = .got (d'.buffer.take n) { d' with buffer := d'.buffer.drop n }) ∧
    (∀ x d', d.pull cfg n d.source = .again x d' → d.read cfg n = .again x d') ∧
    (∀ x, d.pull cfg n d.source = .aborted x → d.read cfg n = .aborted x) := by
  rw [Decryptor.read, if_neg (by simp [hs])]
  exact ⟨fun u d' h => by simp only [h], fun x d' h => by simp only [h], fun x h => by simp only [h]⟩

theorem Decryptor.read_suspended {d : Decryptor} (hs : d.context.saved ≠ none) :
    d.read cfg n = .again .suspended d := by
  rw [Decryptor.read, if_pos (Option.isSome_iff_ne_none.2 hs)]

/-- The inversion lemma of a read: refused while suspended, or a pull's outcome. -/
theorem Decryptor.read_cases (d : Decryptor) (n : Nat) :
    (d.context.saved ≠ none ∧ d.read cfg n = .again .suspended d) ∨
    (d.context.saved = none ∧
      ((∃ d', d.Pulled cfg n d.source (.got () d') ∧
          d.read cfg n = .got (d'.buffer.take n) { d' with buffer := d'.buffer.drop n }) ∨
        (∃ x d', d.Pulled cfg n d.source (.again x d') ∧ d.read cfg n = .again x d') ∨
        ∃ x, d.Pulled cfg n d.source (.aborted x) ∧ d.read cfg n = .aborted x)) := by
  by_cases hs : d.context.saved = none
  · obtain ⟨got, again, aborted⟩ := Decryptor.read_running (cfg := cfg) (n := n) hs
    have hp := Decryptor.pull_pulled (cfg := cfg) (n := n) d.source d
    refine .inr ⟨hs, ?_⟩
    cases h : d.pull cfg n d.source with
    | got u d' => exact .inl ⟨d', h ▸ hp, got u d' h⟩
    | again x d' => exact .inr (.inl ⟨x, d', h ▸ hp, again x d' h⟩)
    | aborted x => exact .inr (.inr ⟨x, h ▸ hp, aborted x h⟩)
  · exact .inl ⟨hs, Decryptor.read_suspended hs⟩

/-! ### The I/O errors of a flush and of a close -/

theorem Encryptor.flush_told (e : Encryptor) (k : Sink) :
    k.Told (e.flush k).sink (ioErrorTold (e.flush k).result).toList := by
  cases hc : e.closed with
  | true =>
    rw [e.flush_closed k hc]
    exact (Sink.Answered.refl k).told
  | false =>
    rcases e.flush_cases k hc with ⟨k', ha, -, ⟨-, h⟩ | ⟨-, h⟩⟩ | h
    · exact ha.trans_told h.told
    · rw [h]
      exact ha.told
    · exact h.answered.told

/-- A flush only moves bytes from what is pending to the sink. -/
theorem Encryptor.flush_keeps (e : Encryptor) (k : Sink) :
    (e.flush k).sink.taken ++ (e.flush k).enc.unsent = k.taken ++ e.unsent ∧
      (e.flush k).enc.plain = e.plain ∧ (e.flush k).enc.core = e.core := by
  cases hc : e.closed with
  | true =>
    rw [e.flush_closed k hc]
    exact ⟨rfl, rfl, rfl⟩
  | false =>
    rcases e.flush_cases k hc with ⟨k', -, ht, ⟨-, h⟩ | ⟨-, h⟩⟩ | h
    · rw [h.enc, h.taken, ht]
      exact ⟨List.append_nil _, rfl, rfl⟩
    · rw [h]
      exact ⟨(List.append_nil _).trans ht, rfl, rfl⟩
    · exact ⟨h.bytes, by rw [h.enc], by rw [h.enc]⟩

theorem Encryptor.close_told (e : Encryptor) (k : Sink) :
    k.Told (e.close cfg k).sink (ioErrorTold (e.close cfg k).result).toList := by
  by_cases ho : e.closed = false ∧ e.context.saved = none
  · rcases e.close_cases (cfg := cfg) k ho.1 ho.2 with h | ⟨k', ha, -, h⟩
    · exact h.answered.told
    · exact ha.trans_told h.told
  · obtain ⟨x, h, hx⟩ := e.close_refused (cfg := cfg) k (by simpa [or_iff_not_imp_left] using ho)
    rw [h, ioErrorTold_error, hx]
    exact (Sink.Answered.refl k).told

/-- A close moves bytes from what is pending to the sink, and adds the ciphertext of the pad block if it comes to it. -/
theorem Encryptor.close_keeps (e : Encryptor) (k : Sink) (hr : e.core.core.Ready) :
    ((e.close cfg k).sink.taken ++ (e.close cfg k).enc.unsent = k.taken ++ e.unsent ∧
      (e.close cfg k).enc.plain = e.plain ∧ (e.close cfg k).enc.core = e.core) ∨
    ∃ c, processBlock cfg .cbcEnc (pack (padded e.plain)) e.core = .next (c, (e.close cfg k).enc.core) ∧
      (e.close cfg k).sink.taken ++ (e.close cfg k).enc.unsent = k.taken ++ e.unsent ++ unpack c := by
  by_cases ho : e.closed = false ∧ e.context.saved = none
  · rcases e.close_cases (cfg := cfg) k ho.1 ho.2 with h | ⟨k', -, ht, h⟩
    · exact .inl ⟨h.bytes, by rw [h.enc], by rw [h.enc]⟩
    · rw [← ht]
      exact .inr (h.bytes hr)
  · obtain ⟨x, h, -⟩ := e.close_refused (cfg := cfg) k (by simpa [or_iff_not_imp_left] using ho)
    rw [h]
    exact .inl ⟨rfl, rfl, rfl⟩

/-- Settles O55: by what a write, a flush and a close have met of the sink, and a pull of the source. -/
theorem ioErrorsPropagateUnchanged : Obligations.IoErrorsPropagateUnchanged := by
  intro cfg
  refine ⟨fun e k input => ?_, fun e k => ?_, fun e k => ?_, fun d n v d' h => ?_, fun d n x d' hs h => ?_,
    fun d n x h => ?_⟩
  · obtain ⟨used, hr, he, -, hf⟩ := e.write_answered (cfg := cfg) k input
    exact ⟨used, hr, hf.symm, he⟩
  · obtain ⟨used, flushed, hr, hf, he⟩ := e.flush_told k
    exact ⟨used, flushed, hr, hf, he, e.flush_keeps k⟩
  · obtain ⟨used, flushed, hr, hf, he⟩ := e.close_told (cfg := cfg) k
    exact ⟨used, flushed, hr, hf, he, e.close_keeps k⟩
  · rcases d.read_cases (cfg := cfg) n with ⟨-, hx⟩ | ⟨-, ⟨d1, hp, hx⟩ | ⟨x, d1, -, hx⟩ | ⟨x, -, hx⟩⟩ <;>
      cases h.symm.trans hx
    cases hp with
    | got used _ hsrc he => exact ⟨used, hsrc, he⟩
  · rcases d.read_cases (cfg := cfg) n with ⟨hsus, -⟩ | ⟨-, ⟨d1, -, hx⟩ | ⟨x, d1, hp, hx⟩ | ⟨x, -, hx⟩⟩
    · exact absurd hs hsus
    · cases h.symm.trans hx
    · cases h.symm.trans hx
      cases hp with
      | again init y _ hsrc he hc hm =>
        refine ⟨init, y, rfl, hsrc, he, ?_⟩
        have hpull : Decryptor.pull cfg n (d.withSource (init ++ d'.source)) (init ++ d'.source) =
            d'.pull cfg n d'.source := (d.pull_withSource _ _).trans (hm _)
        have hs' : d'.context.saved = none := by rw [hc, hs]
        simp only [Decryptor.withSource] at hpull
        rw [Decryptor.read, Decryptor.read, if_neg (by simp [hs']), if_neg (by simp [hs]), hpull]
    · cases h.symm.trans hx
  · rcases d.read_cases (cfg := cfg) n with ⟨-, hx⟩ | ⟨hs, ⟨d1, -, hx⟩ | ⟨x, d1, -, hx⟩ | ⟨x, hp, hx⟩⟩ <;>
      cases h.symm.trans hx
    cases hp with
    | aborted used rest _ hsrc he hio hm =>
      exact ⟨used, rest, hsrc, he, StreamError.ne_io_of_ioError_eq_none hio, fun hr more =>
        (Decryptor.read_running (d := d.withSource (used ++ more)) hs).2.2 x ((d.pull_withSource _ _).trans (hm hr more))⟩

end

/-! ### The bytes a decryptor gives -/

section
variable {rv : RoundVariant} {k : Key} {iv : Block}

theorem decryptBlocks_append (c : Block) (as bs : List Block) :
    decryptBlocks rv k c (as ++ bs) = decryptBlocks rv k c as ++ decryptBlocks rv k (as.getLastD c) bs := by
  induction as generalizing c with
  | nil => rfl
  | cons a as ih => rw [List.cons_append, decryptBlocks, decryptBlocks, ih, List.getLastD_cons, List.cons_append]; rfl

theorem decryptBlocks_length (c : Block) (bs : List Block) : (decryptBlocks rv k c bs).length = bs.length := by
  induction bs generalizing c with
  | nil => rfl
  | cons b bs ih => rw [decryptBlocks, List.length_cons, ih, List.length_cons]

/-- The decrypted bytes of a ciphertext, the padding among them. -/
def decryptedOf (rv : RoundVariant) (k : Key) (iv : Block) (c : List Byte) : List Byte :=
  (decryptBlocks rv k iv (blocksOf c)).flatMap unpack

theorem decryptedOf_length (c : List Byte) : (decryptedOf rv k iv c).length = 8 * (c.length / 8) := by
  rw [decryptedOf, flatMap_unpack_length, decryptBlocks_length, blocksOf_length]

/-- Whole blocks decrypt to the start of what they and more bytes decrypt to. -/
theorem decryptedOf_prefix (bs : List Block) (more : List Byte) :
    (decryptBlocks rv k iv bs).flatMap unpack <+: decryptedOf rv k iv (bs.flatMap unpack ++ more) := by
  rw [decryptedOf, blocksOf_flatMap_unpack_append, decryptBlocks_append, List.flatMap_append]
  exact List.prefix_append ..

theorem plaintextOf_leftover {c : List Byte} (h : c.length = 0 ∨ c.length % 8 ≠ 0) :
    plaintextOf rv k iv c = .error .malformedLength := if_pos h

/-- A plaintext is the decrypted bytes without a padding of at most 8. -/
theorem stripPad_ok {b p : List Byte} (h : stripPad b = .ok p) : p <+: b ∧ b.length - 8 ≤ p.length := by
  simp only [stripPad] at h
  split_ifs at h with hpad
  cases h
  exact ⟨List.take_prefix .., by rw [List.length_take]; omega⟩

/-- The padding is stripped from the last block alone. -/
theorem stripPad_append {a h : List Byte} (hh : h.length = 8) : stripPad (a ++ h) = (stripPad h).map (a ++ ·) := by
  have hne : h ≠ [] := List.ne_nil_of_length_eq_add_one hh
  have hl : (a ++ h).getLastD 0#8 = h.getLastD 0#8 := by
    simp [List.getLastD_eq_getLast?, List.getLast?_append, List.getLast?_eq_some_getLast hne]
  simp only [stripPad, hl]
  split_ifs with hpad
  · rw [Except.map, List.length_append, Nat.add_sub_assoc (by omega), List.take_length_add_append]
  · rfl

theorem plaintextOf_ok {c p : List Byte} (h : plaintextOf rv k iv c = .ok p) :
    p <+: decryptedOf rv k iv c ∧ (decryptedOf rv k iv c).length - 8 ≤ p.length := by
  rw [plaintextOf] at h
  split_ifs at h
  exact stripPad_ok h

/-- A decryptor in the middle of a stream: `bs` are the ciphertext blocks it has decrypted since the chaining value
`iv`, and of their bytes it has given `given`; the rest is released, or held back as the last block (48_host_stream
R111). -/
structure Decryptor.Running (rv : RoundVariant) (k : Key) (iv : Block) (bs : List Block) (given : List Byte)
    (d : Decryptor) : Prop where
  saved : d.context.saved = none
  done : d.done = false
  core : d.core.core.HoldsStream k (bs.getLastD iv)
  bytes : (decryptBlocks rv k iv bs).flatMap unpack = given ++ d.buffer ++ d.held.getD []
  held : (bs = [] ∧ d.held = none) ∨ ∃ h, d.held = some h ∧ h.length = 8

/-- What is given and released and the block held back are all that is decrypted. -/
theorem Decryptor.Running.length_eq {bs : List Block} {given : List Byte} {d : Decryptor}
    (h : d.Running rv k iv bs given) : 8 * bs.length = (given ++ d.buffer).length + (d.held.getD []).length := by
  rw [← List.length_append, ← h.bytes, flatMap_unpack_length, decryptBlocks_length]

/-- What is given and released is all but the last block. -/
theorem Decryptor.Running.released {bs : List Block} {given : List Byte} {d : Decryptor}
    (h : d.Running rv k iv bs given) :
    (given ++ d.buffer).length = ((decryptBlocks rv k iv bs).flatMap unpack).length - 8 := by
  have hl := h.length_eq
  rw [flatMap_unpack_length, decryptBlocks_length]
  rcases h.held with ⟨rfl, hh⟩ | ⟨b, hh, h8⟩ <;> rw [hh] at hl
  · rw [List.length_nil] at hl ⊢
    omega
  · rw [Option.getD_some, h8] at hl
    omega

end

section
variable {cfg : Configuration} {k : Key} {iv : Block} {n : Nat}

/-- A cipher step decrypts the first whole block at hand. -/
theorem Decryptor.Running.cipherStep {bs : List Block} {given : List Byte} {d : Decryptor}
    (h : d.Running cfg.variant k iv bs given) : ∃ d', d.cipherStep cfg = .next d' ∧
      d'.Running cfg.variant k iv (bs ++ [pack (d.carry.take 8)]) given ∧ d'.carry = d.carry.drop 8 := by
  obtain ⟨core, done, run⟩ := d.cipherStep_ready (cfg := cfg) h.core.ready
  refine ⟨_, run, ⟨h.saved, h.done, ⟨done.ready, done.key.trans h.core.key, ?_⟩, ?_, .inr ⟨_, rfl, rfl⟩⟩, rfl⟩
  · rw [List.getLastD_concat]
    exact done.chain
  · rw [decryptBlocks_append, List.flatMap_append, h.bytes, h.core.key, h.core.chain]
    simp [decryptBlocks]

/-- Feeding decrypts all whole blocks at hand. -/
theorem Decryptor.Running.feed {fuel : Nat} {bs : List Block} {given : List Byte} {d : Decryptor}
    (h : d.Running cfg.variant k iv bs given) (hf : d.carry.length ≤ fuel) : ∃ d', d.feed cfg fuel = .ok d' ∧
      d'.Running cfg.variant k iv (bs ++ blocksOf d.carry) given ∧ d'.carry = remainder d.carry := by
  induction fuel generalizing bs d with
  | zero =>
    have hs : d.carry.length < 8 := by omega
    exact ⟨d, rfl, by rwa [blocksOf_of_length_lt hs, List.append_nil], (remainder_of_length_lt hs).symm⟩
  | succ fuel ih =>
    by_cases hs : d.carry.length < 8
    · exact ⟨d, d.feed_short hs _, by rwa [blocksOf_of_length_lt hs, List.append_nil],
        (remainder_of_length_lt hs).symm⟩
    · obtain ⟨d1, run, h1, hc⟩ := h.cipherStep
      obtain ⟨d', hfeed, h', hc'⟩ := ih h1 (by rw [hc, List.length_drop]; omega)
      have h8 : (d.carry.take 8).length = 8 := by
        rw [List.length_take]
        omega
      refine ⟨d', ((d.feed_step hs fuel).1 d1 run).trans hfeed, ?_, ?_⟩
      · rw [← List.take_append_drop 8 d.carry, blocksOf_group_append h8, List.append_cons, ← hc]
        exact h'
      · rw [hc', hc, ← remainder_group_append h8, List.take_append_drop]

/-- A chunk of a stream, which is joined to what is left over. -/
theorem Decryptor.Running.absorb {bs : List Block} {given : List Byte} {d : Decryptor}
    (h : d.Running cfg.variant k iv bs given) (b : List Byte) : ∃ d', d.absorb cfg b = .ok d' ∧
      d'.Running cfg.variant k iv (bs ++ blocksOf (d.carry ++ b)) given ∧ d'.carry = remainder (d.carry ++ b) :=
  Decryptor.Running.feed (d := { d with carry := d.carry ++ b }) ⟨h.saved, h.done, h.core, h.bytes, h.held⟩ le_rfl

/-- A non-empty chunk shorter than 8 bytes, which is fatal (48_host_stream R110). -/
def tooShort (b : List Byte) : Bool := !b.isEmpty && decide (b.length < 8)

/-- What a source of these chunks is worth: the ciphertext before its first chunk that is too short. -/
def usable (chunks : List (List Byte)) : List Byte := (chunks.takeWhile fun b => !tooShort b).flatten

/-- What the whole stream of a decryptor comes to: its plaintext, or its error. `t` is the ciphertext it has taken and
will take. -/
def outcomeOf (rv : RoundVariant) (k : Key) (iv : Block) (t : List Byte) (chunks : List (List Byte)) :
    Except StreamError (List Byte) :=
  if chunks.any tooShort = true then .error .malformedLength else plaintextOf rv k iv t

theorem outcomeOf_ok {rv : RoundVariant} {t p : List Byte} {chunks : List (List Byte)}
    (h : outcomeOf rv k iv t chunks = .ok p) :
    p <+: decryptedOf rv k iv t ∧ (decryptedOf rv k iv t).length - 8 ≤ p.length := by
  rw [outcomeOf] at h
  split_ifs at h
  exact plaintextOf_ok h

theorem tooShort_iff {b : List Byte} : tooShort b = true ↔ b ≠ [] ∧ b.length < 8 := by
  simp [tooShort]

/-- A chunk that is not too short is part of the stream. -/
theorem usable_cons {b : List Byte} (h : tooShort b = false) (cs : List (List Byte)) :
    usable (b :: cs) = b ++ usable cs := by
  simp [usable, h]

theorem usable_cons_tooShort {b : List Byte} (h : tooShort b = true) (cs : List (List Byte)) :
    usable (b :: cs) = [] := by
  simp [usable, h]

/-- A decryptor that reads the stream of the ciphertext `t`, which comes to `whole`: it runs, its source has chunks to
come, and it has given `given` so far. -/
structure Decryptor.Reads (rv : RoundVariant) (k : Key) (iv : Block) (t : List Byte)
    (whole : Except StreamError (List Byte)) (given : List Byte) (d : Decryptor) (bs : List Block)
    (chunks : List (List Byte)) : Prop where
  running : d.Running rv k iv bs given
  carry : d.carry.length < 8
  total : t = bs.flatMap unpack ++ (d.carry ++ usable chunks)
  whole : whole = outcomeOf rv k iv t chunks

/-- A decryptor at the end of its stream: all that it has not given is released. -/
structure Decryptor.Finished (whole : Except StreamError (List Byte)) (given : List Byte) (d : Decryptor) : Prop where
  saved : d.context.saved = none
  done : d.done = true
  source : d.source = []
  whole : whole = .ok (given ++ d.buffer)

variable {t given : List Byte} {whole : Except StreamError (List Byte)} {d : Decryptor} {bs : List Block}
  {chunks : List (List Byte)}

/-- What is given and released is decrypted, and never of the last block of the stream. -/
theorem Decryptor.Reads.released {rv : RoundVariant} (h : d.Reads rv k iv t whole given bs chunks) :
    given ++ d.buffer <+: decryptedOf rv k iv t ∧ (given ++ d.buffer).length ≤ (decryptedOf rv k iv t).length - 8 := by
  have hp := decryptedOf_prefix (rv := rv) (k := k) (iv := iv) bs (d.carry ++ usable chunks)
  rw [← h.total] at hp
  refine ⟨List.IsPrefix.trans ?_ hp, ?_⟩
  · rw [h.running.bytes]
    exact List.prefix_append ..
  · have hl := hp.length_le
    rw [h.running.released]
    omega

/-- With no usable byte to come, what is given and released is all the decrypted bytes but those of the last block. -/
theorem Decryptor.Reads.released_all {rv : RoundVariant} (h : d.Reads rv k iv t whole given bs chunks)
    (hu : usable chunks = []) : (given ++ d.buffer).length = (decryptedOf rv k iv t).length - 8 := by
  rw [h.running.released, decryptedOf, h.total, hu, List.append_nil, blocksOf_flatMap_unpack_append,
    blocksOf_of_length_lt h.carry, List.append_nil]

/-- The end of the source: the stream is finished, or malformed. -/
theorem Decryptor.Reads.exhausted {rv : RoundVariant} (h : d.Reads rv k iv t whole given bs []) :
    (∃ d', (d.withSource []).exhausted = .ok d' ∧ d'.Finished whole given) ∨
    ∃ x, (d.withSource []).exhausted = .error x ∧ whole = .error x := by
  obtain ⟨run, carry, total, rfl⟩ := h
  rw [show usable [] = [] from rfl, List.append_nil] at total
  have ht : t.length = 8 * bs.length + d.carry.length := by
    rw [total, List.length_append, flatMap_unpack_length]
  have hl := run.length_eq
  have hw : outcomeOf rv k iv t [] = plaintextOf rv k iv t := rfl
  rw [hw]
  rcases (d.withSource []).exhausted_cases with ⟨hd, -⟩ | ⟨-, hc, hx⟩ | ⟨-, hc, b, hb, hx⟩
  · exact absurd (hd.symm.trans run.done) (by simp)
  · refine .inr ⟨_, hx, plaintextOf_leftover ?_⟩
    by_cases hc0 : d.carry = []
    · rcases run.held with ⟨rfl, -⟩ | ⟨b, hb, -⟩
      · exact .inl (by rw [ht, hc0]; rfl)
      · exact absurd (hb.symm.trans (hc.resolve_left (fun h => h hc0))) (by simp)
    · have := List.length_pos_iff.2 hc0
      exact .inr (by omega)
  · have hc : d.carry = [] := hc
    have hb : d.held = some b := hb
    obtain ⟨b', hb', h8⟩ := run.held.resolve_left (by simp [hb])
    cases hb.symm.trans hb'
    rw [hb, Option.getD_some, h8] at hl
    rw [hc, List.append_nil] at total
    rw [hc, List.length_nil] at ht
    have hp : plaintextOf rv k iv t = (stripPad b).map (given ++ d.buffer ++ ·) := by
      rw [plaintextOf, if_neg (by omega), total, blocksOf_flatMap_unpack, run.bytes, hb]
      exact stripPad_append h8
    rcases hx with ⟨hs, hx⟩ | ⟨p, hs, hx⟩
    · exact .inr ⟨_, hx, by rw [hp, hs]; rfl⟩
    · exact .inl ⟨_, hx, run.saved, rfl, rfl, by rw [hp, hs, Except.map, List.append_assoc]; rfl⟩

theorem Decryptor.Reads.withSource {rv : RoundVariant} (h : d.Reads rv k iv t whole given bs chunks)
    (s : List SourceReply) : (d.withSource s).Reads rv k iv t whole given bs chunks :=
  ⟨⟨h.running.saved, h.running.done, h.running.core, h.running.bytes, h.running.held⟩, h.carry, h.total, h.whole⟩

/-- A chunk that is no too short one is taken. -/
theorem Decryptor.Reads.absorb {b : List Byte} (h : d.Reads cfg.variant k iv t whole given bs (b :: chunks))
    (hb : tooShort b = false) : ∃ d', d.absorb cfg b = .ok d' ∧
      d'.Reads cfg.variant k iv t whole given (bs ++ blocksOf (d.carry ++ b)) chunks := by
  obtain ⟨run, carry, total, whole_eq⟩ := h
  obtain ⟨d', ha, run', hc⟩ := run.absorb b
  refine ⟨d', ha, run', by rw [hc, remainder_length]; omega, ?_, by rw [whole_eq]; simp [outcomeOf, hb]⟩
  calc t = bs.flatMap unpack ++ (d.carry ++ b) ++ usable chunks := by
        rw [total, usable_cons hb]
        simp only [List.append_assoc]
    _ = bs.flatMap unpack ++ ((blocksOf (d.carry ++ b)).flatMap unpack ++ remainder (d.carry ++ b)) ++
        usable chunks := by rw [flatMap_unpack_blocksOf]
    _ = (bs ++ blocksOf (d.carry ++ b)).flatMap unpack ++ (d'.carry ++ usable chunks) := by
        rw [hc, List.flatMap_append]
        simp only [List.append_assoc]

/-- A pull of a decryptor that reads a stream releases enough bytes, or finishes the stream, or is told its error when
all that may be given is less than was asked for. -/
theorem Decryptor.Reads.pull (h : d.Reads cfg.variant k iv t whole given bs chunks) :
    (∃ d' bs' rest, d.pull cfg n (chunks.map .chunk) = .got () d' ∧ n ≤ d'.buffer.length ∧
      d'.source = rest.map .chunk ∧ d'.Reads cfg.variant k iv t whole given bs' rest) ∨
    (∃ d', d.pull cfg n (chunks.map .chunk) = .got () d' ∧ d'.Finished whole given) ∨
    ∃ x, d.pull cfg n (chunks.map .chunk) = .aborted x ∧ whole = .error x ∧
      (decryptedOf cfg.variant k iv t).length - 8 < given.length + n := by
  induction chunks generalizing d bs with
  | nil =>
    by_cases hn : n ≤ d.buffer.length
    · exact .inl ⟨_, bs, [], Decryptor.pull_released hn _, hn, rfl, h.withSource _⟩
    · obtain ⟨stop, go⟩ := Decryptor.pull_nil (cfg := cfg) hn
      rcases h.exhausted with ⟨d', hx, hd⟩ | ⟨x, hx, hw⟩
      · exact .inr (.inl ⟨d', go _ hx, hd⟩)
      · have hl := h.released_all rfl
        rw [List.length_append] at hl
        exact .inr (.inr ⟨x, stop _ hx, hw, by omega⟩)
  | cons b cs ih =>
    by_cases hn : n ≤ d.buffer.length
    · exact .inl ⟨_, bs, b :: cs, Decryptor.pull_released hn _, hn, rfl, h.withSource _⟩
    cases hs : tooShort b with
    | true =>
      obtain ⟨hb, h8⟩ := tooShort_iff.1 hs
      have hl := h.released_all (usable_cons_tooShort hs cs)
      rw [List.length_append] at hl
      exact .inr (.inr ⟨_, Decryptor.pull_tooShort hn hb h8 _, by rw [h.whole]; simp [outcomeOf, hs], by omega⟩)
    | false =>
      by_cases hb : b = []
      · subst hb
        rw [List.map_cons, Decryptor.pull_empty hn]
        exact ih ⟨h.running, h.carry, by rw [h.total, usable_cons hs]; rfl, by rw [h.whole]; simp [outcomeOf, hs]⟩
      · have h8 : ¬ b.length < 8 := fun hl => by simp [tooShort_iff.2 ⟨hb, hl⟩] at hs
        obtain ⟨d', ha, h'⟩ := h.absorb hs
        rw [List.map_cons, (Decryptor.pull_chunk hn h8).2 d' ha]
        exact ih h'

/-- A decryptor on a stream: it runs with chunks to come, or the stream has come to its end. -/
def Decryptor.OnStream (rv : RoundVariant) (k : Key) (iv : Block) (t : List Byte)
    (whole : Except StreamError (List Byte)) (given : List Byte) (d : Decryptor) : Prop :=
  (∃ bs chunks, d.source = chunks.map .chunk ∧ d.Reads rv k iv t whole given bs chunks) ∨ d.Finished whole given

/-- Reading takes bytes from what is released to what is given. -/
theorem Decryptor.Reads.take {rv : RoundVariant} (h : d.Reads rv k iv t whole given bs chunks) (n : Nat) :
    Decryptor.Reads rv k iv t whole (given ++ d.buffer.take n) { d with buffer := d.buffer.drop n } bs chunks := by
  refine ⟨⟨h.running.saved, h.running.done, h.running.core, ?_, h.running.held⟩, h.carry, h.total, h.whole⟩
  calc _ = given ++ (d.buffer.take n ++ d.buffer.drop n) ++ d.held.getD [] := by
        rw [h.running.bytes, List.take_append_drop]
    _ = _ := by rw [← List.append_assoc given]

theorem Decryptor.Finished.take (h : d.Finished whole given) (n : Nat) :
    Decryptor.Finished whole (given ++ d.buffer.take n) { d with buffer := d.buffer.drop n } :=
  ⟨h.saved, h.done, h.source, by rw [h.whole, List.append_assoc, List.take_append_drop]⟩

/-- A decryptor at the end of its stream has nothing to pull. -/
theorem Decryptor.Finished.pull (h : d.Finished whole given) : d.pull cfg n d.source = .got () d := by
  have hd : d.withSource [] = d := by rw [← h.source]; rfl
  rw [h.source]
  by_cases hn : n ≤ d.buffer.length
  · rw [Decryptor.pull_released hn]
    exact congrArg _ hd
  · have hx : (d.withSource []).exhausted = .ok d := by rw [hd, Decryptor.exhausted, if_pos h.done]
    exact (Decryptor.pull_nil hn).2 d hx

theorem Decryptor.OnStream.saved {rv : RoundVariant} (h : d.OnStream rv k iv t whole given) :
    d.context.saved = none := by
  rcases h with ⟨bs, chunks, -, h⟩ | h
  · exact h.running.saved
  · exact h.saved

/-- What a finished stream's read gives: `n` bytes, or all that is left. -/
theorem Decryptor.Finished.take_length (h : d.Finished whole given) (n : Nat) :
    (d.buffer.take n).length = n ∨
      ((d.buffer.take n).length ≤ n ∧ whole = .ok (given ++ d.buffer.take n)) := by
  by_cases hn : n ≤ d.buffer.length
  · exact .inl (List.length_take_of_le hn)
  · refine .inr ⟨List.length_take_le .., ?_⟩
    rw [h.whole, List.take_of_length_le (by omega)]

/-- A read of a decryptor on a stream gives the next `n` bytes, or all that is left of a plaintext; or it is told the
stream's error, when all that may be given is less than was asked for. -/
theorem Decryptor.OnStream.read (h : d.OnStream cfg.variant k iv t whole given) (n : Nat) :
    (∃ v d', d.read cfg n = .got v d' ∧ d'.OnStream cfg.variant k iv t whole (given ++ v) ∧
      (v.length = n ∨ (v.length ≤ n ∧ whole = .ok (given ++ v)))) ∨
    ∃ x, d.read cfg n = .aborted x ∧ whole = .error x ∧
      (decryptedOf cfg.variant k iv t).length - 8 < given.length + n := by
  obtain ⟨got, -, aborted⟩ := Decryptor.read_running (cfg := cfg) (n := n) h.saved
  rcases h with ⟨bs, chunks, hs, h⟩ | h
  · rw [hs] at got aborted
    rcases h.pull (n := n) with ⟨d', bs', rest, hp, hn, hs', h'⟩ | ⟨d', hp, h'⟩ | ⟨x, hp, hw, hl⟩
    · exact .inl ⟨_, _, got _ _ hp, .inl ⟨bs', rest, hs', h'.take n⟩, .inl (List.length_take_of_le hn)⟩
    · exact .inl ⟨_, _, got _ _ hp, .inr (h'.take n), h'.take_length n⟩
    · exact .inr ⟨x, aborted x hp, hw, hl⟩
  · exact .inl ⟨_, _, got _ _ h.pull, .inr (h.take n), h.take_length n⟩

/-- A stream that comes to a plaintext gives a part of it. -/
theorem Decryptor.OnStream.given_prefix {rv : RoundVariant} {p : List Byte} (h : d.OnStream rv k iv t (.ok p) given) :
    given <+: p := by
  rcases h with ⟨bs, chunks, -, h⟩ | h
  · obtain ⟨hp, hl⟩ := outcomeOf_ok h.whole.symm
    obtain ⟨hg, hgl⟩ := h.released
    exact (List.prefix_append ..).trans (List.prefix_of_prefix_length_le hg hp (hgl.trans hl))
  · rw [Except.ok.inj h.whole]
    exact List.prefix_append ..

/-- A malformed stream gives decrypted bytes before the last block. -/
theorem Decryptor.OnStream.given_prefix_decrypted {rv : RoundVariant} {x : StreamError}
    (h : d.OnStream rv k iv t (.error x) given) :
    given <+: decryptedOf rv k iv t ∧ given.length ≤ (decryptedOf rv k iv t).length - 8 := by
  rcases h with ⟨bs, chunks, -, h⟩ | h
  · obtain ⟨hg, hgl⟩ := h.released
    exact ⟨(List.prefix_append ..).trans hg, le_trans (by simp) hgl⟩
  · exact absurd h.whole (by simp)

theorem Decryptor.readAll_of_got {n : Nat} {v : List Byte} {d' : Decryptor} (h : d.read cfg n = .got v d')
    (ns : List Nat) : d.readAll cfg (n :: ns) = .ok v :: d'.readAll cfg ns := by
  rw [Decryptor.readAll, h]

theorem Decryptor.readAll_of_aborted {n : Nat} {x : StreamError} (h : d.read cfg n = .aborted x) (ns : List Nat) :
    d.readAll cfg (n :: ns) = [.error x] := by
  rw [Decryptor.readAll, h]

/-- Reads one after the other cut the plaintext that is left into pieces. -/
theorem Decryptor.OnStream.readAll_ok {p : List Byte} (ns : List Nat)
    (h : d.OnStream cfg.variant k iv t (.ok p) given) :
    d.readAll cfg ns = (cutBytes (p.drop given.length) ns).map .ok := by
  induction ns generalizing d given with
  | nil => rfl
  | cons n ns ih =>
    rcases h.read (cfg := cfg) n with ⟨v, d', hr, h', hv⟩ | ⟨x, -, hw, -⟩
    · obtain ⟨rest, rfl⟩ := h'.given_prefix
      have hdrop : (given ++ v ++ rest).drop given.length = v ++ rest := by
        rw [List.append_assoc, List.drop_left]
      have hcut : (v ++ rest).take n = v ∧ (v ++ rest).drop n = rest := by
        rcases hv with rfl | ⟨hl, hw⟩
        · exact ⟨List.take_left, List.drop_left⟩
        · obtain rfl : rest = [] := by simpa using Except.ok.inj hw
          rw [List.append_nil]
          exact ⟨List.take_of_length_le hl, List.drop_of_length_le hl⟩
      rw [Decryptor.readAll_of_got hr, hdrop, cutBytes, hcut.1, hcut.2, List.map_cons]
      exact congrArg _ ((ih h').trans (by rw [List.drop_left]))
    · cases hw

/-- Reads one after the other cut the decrypted bytes of a malformed stream into pieces, up to its last block; and the
first read that asks for more is told the error. -/
theorem Decryptor.OnStream.readAll_error {x : StreamError} (ns : List Nat)
    (h : d.OnStream cfg.variant k iv t (.error x) given) : ∃ m, m ≤ ns.length ∧
      d.readAll cfg ns = (cutBytes ((decryptedOf cfg.variant k iv t).drop given.length) (ns.take m)).map .ok ++
        (if m = ns.length then [] else [.error x]) ∧
      given.length + (ns.take m).sum ≤ (decryptedOf cfg.variant k iv t).length - 8 ∧
      (m < ns.length → (decryptedOf cfg.variant k iv t).length - 8 < given.length + (ns.take (m + 1)).sum) := by
  induction ns generalizing d given with
  | nil => exact ⟨0, le_rfl, rfl, h.given_prefix_decrypted.2, fun h => absurd h (lt_irrefl _)⟩
  | cons n ns ih =>
    rcases h.read (cfg := cfg) n with ⟨v, d', hr, h', hv⟩ | ⟨y, hr, hw, hl⟩
    · obtain rfl : v.length = n := hv.resolve_right fun hw => by cases hw.2
      obtain ⟨m, hm, hall, hsum, hmore⟩ := ih h'
      obtain ⟨rest, hrest⟩ := h'.given_prefix_decrypted.1
      rw [List.length_append, Nat.add_assoc] at hsum hmore
      refine ⟨m + 1, by simpa using hm, ?_, by simpa using hsum, fun h => ?_⟩
      · rw [Decryptor.readAll_of_got hr, hall, ← hrest, List.take_succ_cons, cutBytes]
        simp
      · simpa using hmore (by simpa using h)
    · cases hw
      refine ⟨0, Nat.zero_le _, ?_, h.given_prefix_decrypted.2, fun _ => by simpa using hl⟩
      rw [Decryptor.readAll_of_aborted hr]
      rfl

/-- A new decryptor on a ready core is on the stream of its chunks. -/
theorem Decryptor.onStream_of_ready {d : Driven} (hd : d.core.Ready) (q : Key) (chunks : List (List Byte)) :
    Decryptor.OnStream cfg.variant d.core.key d.core.chain (usable chunks)
      (outcomeOf cfg.variant d.core.key d.core.chain (usable chunks) chunks) []
      ⟨d, ⟨q, none⟩, [], none, [], chunks.map .chunk, false⟩ :=
  .inl ⟨[], chunks, rfl, ⟨⟨rfl, rfl, ⟨hd, rfl, rfl⟩, rfl, .inl ⟨rfl, rfl⟩⟩, Nat.zero_lt_succ _, rfl, rfl⟩⟩

/-- When no chunk is too short the whole ciphertext is usable. -/
theorem outcomeOf_usable (rv : RoundVariant) (chunks : List (List Byte)) :
    outcomeOf rv k iv (usable chunks) chunks =
      if chunks.any tooShort = true then .error .malformedLength else plaintextOf rv k iv chunks.flatten := by
  rw [outcomeOf]
  split_ifs with h
  · rfl
  · have hall : chunks.takeWhile (fun b => !tooShort b) = chunks := by
      simpa [List.takeWhile_eq_self_iff] using h
    rw [usable, hall]

theorem decryptedOf_usable_length_le (rv : RoundVariant) (chunks : List (List Byte)) :
    (decryptedOf rv k iv (usable chunks)).length ≤ chunks.flatten.length := by
  have h : (usable chunks).length ≤ chunks.flatten.length :=
    (List.takeWhile_sublist _).flatten.length_le
  rw [decryptedOf_length]
  omega

/-- What a stream gives is no longer than what it decrypts. -/
theorem Decryptor.OnStream.given_length_le {rv : RoundVariant}
    (h : d.OnStream rv k iv t (outcomeOf rv k iv t chunks) given) :
    given.length ≤ (decryptedOf rv k iv t).length := by
  cases hw : outcomeOf rv k iv t chunks with
  | ok p =>
    rw [hw] at h
    exact h.given_prefix.length_le.trans (outcomeOf_ok hw).1.length_le
  | error x =>
    rw [hw] at h
    exact h.given_prefix_decrypted.1.length_le

/-- Settles O49: by what a decryptor on a stream has given, and what it has still to give. -/
theorem decryptorIgnoresChunking : Obligations.DecryptorIgnoresChunking := by
  intro cfg d q chunks hd reader short whole decrypted
  have h := Decryptor.onStream_of_ready (cfg := cfg) hd q chunks
  have hwhole : outcomeOf cfg.variant d.core.key d.core.chain (usable chunks) chunks = whole :=
    outcomeOf_usable cfg.variant chunks
  refine ⟨fun n hn => ?_, fun ns => ⟨fun p hp => ?_, fun x hx => ?_⟩⟩
  · rcases h.read (cfg := cfg) n with ⟨v, d', hr, h', hv⟩ | ⟨x, hr, hw, -⟩
    · have hle := h'.given_length_le.trans (decryptedOf_usable_length_le cfg.variant chunks)
      rcases hv with rfl | ⟨-, hw⟩
      · exact absurd (hle.trans_lt hn) (lt_irrefl _)
      · rw [← hwhole, hw]
        exact congrArg Reading.told hr
    · rw [← hwhole, hw]
      exact congrArg Reading.told hr
  · rw [hwhole, hp] at h
    exact h.readAll_ok ns
  · rw [hwhole, hx] at h
    obtain ⟨m, hm, hall, hsum, hmore⟩ := h.readAll_error ns
    rw [List.length_nil, Nat.zero_add] at hsum hmore
    exact ⟨m, hm, hall, hsum, hmore⟩

end

end Sys2Proof.Machine

end

section
/-! The statements of 60_exceptions: which transactions stop a run and with what fault, and the effect of a refused
command. -/

namespace Sys2Proof

/-! ### The rows that reject every access -/

/-- The rows whose own rule is a bus error: a write of DOUT and any access to a reserved offset (42_register_access R93,
R99). -/
def Instr.rejected : Instr → Bool
  | .wrDout _ _ | .rdReserved _ | .wrReserved _ _ => true
  | _ => false

/-- The rejecting rows by direction and offset, as 60_exceptions R119 lists them. -/
theorem Instr.rejected_iff (i : Instr) : i.rejected = true ↔
    ((encode i).transaction.write = true ∧
      ((encode i).transaction.off = 0x20#6 ∨ (encode i).transaction.off = 0x24#6)) ∨
    0x30 ≤ (encode i).transaction.off.toNat := by
  cases i with
  | nop | encipher | decipher | cbcEnc | cbcDec | wrCmd | rdCmd | rdStatus | wrStatus =>
    exact iff_of_false Bool.false_ne_true (by simp +decide [encode, Code.transaction, busWrite32])
  | rdKey j | wrKey j =>
    refine iff_of_false Bool.false_ne_true ?_
    rcases wordIndex2_cases j with rfl | rfl | rfl | rfl <;> simp +decide [encode, Code.transaction, busWrite32]
  | rdChain j | rdDin j | rdDout j | wrChain j | wrDin j =>
    refine iff_of_false Bool.false_ne_true ?_
    rcases wordIndex1_cases j with rfl | rfl <;> simp +decide [encode, Code.transaction, busWrite32]
  | wrDout j =>
    refine iff_of_true rfl (.inl ⟨rfl, ?_⟩)
    rcases wordIndex1_cases j with rfl | rfl
    · exact .inl rfl
    · exact .inr rfl
  | rdReserved j | wrReserved j =>
    refine iff_of_true rfl (.inr ?_)
    change 0x30 ≤ (reservedOff j).toNat
    revert j
    decide

end Sys2Proof

namespace Sys2Proof.Machine

/-! ### How an instruction stops -/

theorem exec_idle_rejected {i : Instr} (hi : i.rejected = true) {s : State} (hb : s.busy = false) :
    exec i s = .fault (.busError (encode i).transaction.off) := by
  cases i with
  | wrDout | rdReserved | wrReserved => exact guardIdle_idle hb ..
  | _ => cases hi

/-- A CMD write on an idle core goes on, whatever its word. -/
theorem exec_wrCmd_idle (c : Word) {s : State} (hb : s.busy = false) : ∃ t, exec (.wrCmd c) s = .next t := by
  by_cases h : ∃ n, decodeCommand c = .ok n
  · obtain ⟨n, hn⟩ := h
    obtain ⟨t, ht, -⟩ := exec_command_idle n hb
    exact ⟨t, (exec_wrCmd_of_decodeCommand hn s).trans ht⟩
  · exact ⟨_, exec_wrCmd_of_not_command h hb⟩

theorem exec_idle_next {i : Instr} (hi : i.rejected = false) {s : State} (hb : s.busy = false) :
    ∃ t, exec i s = .next t := by
  cases i with
  | wrDout | rdReserved | wrReserved => cases hi
  | wrCmd c => exact exec_wrCmd_idle c hb
  | rdStatus => exact ⟨_, rfl⟩
  | _ => exact ⟨_, guardIdle_idle hb ..⟩

/-- An instruction goes on, or meets the BUSY hazard, or is rejected by its own rule (60_exceptions R124). -/
theorem exec_outcomes (i : Instr) (s : State) :
    (∃ t, exec i s = .next t) ∨
    (s.busy = true ∧ exec i s = .fault (.hazard (encode i).transaction.off (encode i).transaction.write)) ∨
    (s.busy = false ∧ i.rejected = true ∧ exec i s = .fault (.busError (encode i).transaction.off)) := by
  cases hb : s.busy with
  | true =>
    by_cases hi : i = .rdStatus
    · exact .inl ⟨_, by rw [hi]; rfl⟩
    · exact .inr (.inl ⟨rfl, exec_busy hi hb⟩)
  | false =>
    cases hi : i.rejected with
    | true => exact .inr (.inr ⟨rfl, rfl, exec_idle_rejected hi hb⟩)
    | false => exact .inl (exec_idle_next hi hb)

/-- An instruction is a bus error exactly where its row rejects the access and the core is idle. -/
theorem exec_eq_busError_iff {i : Instr} {s : State} {off : Offset} :
    exec i s = .fault (.busError off) ↔
      off = (encode i).transaction.off ∧ s.busy = false ∧ i.rejected = true := by
  constructor
  · intro h
    rcases exec_outcomes i s with ⟨t, e⟩ | ⟨-, e⟩ | ⟨hb, hi, e⟩
    · cases h.symm.trans e
    · cases h.symm.trans e
    · cases h.symm.trans e
      exact ⟨rfl, hb, hi⟩
  · rintro ⟨rfl, hb, hi⟩
    exact exec_idle_rejected hi hb

/-! ### How a transaction stops -/

/-- Settles O8: before the decoding by width and alignment, and past it by the row. -/
theorem busErrorsAreExactlyThese : Obligations.BusErrorsAreExactlyThese := by
  intro s t off
  by_cases h : t.width = 4 ∧ t.off.extractLsb' 0 2 = 0#2
  · obtain ⟨hw, ha⟩ := h
    obtain ⟨i, -, hrun, hdesc, -⟩ := hostTurn_aligned hw ha s
    obtain ⟨hwrite, hoff⟩ := Transaction.descriptor_inj hdesc
    rw [hrun, exec_eq_busError_iff, i.rejected_iff, hwrite, hoff]
    simp [hw, ha]
  · rw [hostTurn_of_not_wellFormed h]
    constructor
    · rintro ⟨⟩
      exact ⟨rfl, (not_and_or.1 h).imp_right .inl⟩
    · rintro ⟨rfl, -⟩
      rfl

/-- A transaction goes on, or stops with its bus error, or, while BUSY, with its hazard fault. -/
theorem hostTurn_outcomes (t : Transaction) (s : State) :
    (∃ u, hostTurn t s = .next u) ∨ hostTurn t s = .fault (.busError t.off) ∨
    (hostTurn t s = .fault (.hazard t.off t.write) ∧ s.busy = true) := by
  by_cases h : t.width = 4 ∧ t.off.extractLsb' 0 2 = 0#2
  · obtain ⟨hw, ha⟩ := h
    obtain ⟨i, -, hrun, hdesc, -⟩ := hostTurn_aligned hw ha s
    obtain ⟨hwrite, hoff⟩ := Transaction.descriptor_inj hdesc
    rw [hrun, ← hwrite, ← hoff]
    rcases exec_outcomes i s with e | ⟨hb, e⟩ | ⟨-, -, e⟩
    · exact .inl e
    · exact .inr (.inr ⟨e, hb⟩)
    · exact .inr (.inl e)
  · exact .inr (.inl (hostTurn_of_not_wellFormed h s))

/-- A step goes on, or is that of a transaction that stops. -/
theorem stepWith_outcomes (cfg : Configuration) (s : State) :
    (∃ u, stepWith cfg s = .next u) ∨
    ∃ t rest f, s.schedule = .host t :: rest ∧ stepWith cfg s = .fault f ∧
      (f = .busError t.off ∨ (f = .hazard t.off t.write ∧ s.busy = true)) := by
  unfold stepWith
  split
  next => exact .inl ⟨_, rfl⟩
  next e rest hs =>
    cases e with
    | engine | reset => exact .inl ⟨_, rfl⟩
    | host t =>
      rcases hostTurn_outcomes t (s.withSchedule rest) with h | h | ⟨h, hb⟩
      · exact .inl h
      · exact .inr ⟨t, rest, _, hs, h, .inl rfl⟩
      · exact .inr ⟨t, rest, _, hs, h, .inr ⟨rfl, hb⟩⟩

/-- Settles O11: by what a step can be. -/
theorem onlyTransactionsStop : Obligations.OnlyTransactionsStop := by
  refine ⟨fun cfg s f hf => ?_, fun cfg s r hr => ?_⟩
  · rcases stepWith_outcomes cfg s with ⟨u, h⟩ | ⟨t, rest, g, hs, h, hg⟩
    · cases hf.symm.trans h
    · cases hf.symm.trans h
      exact ⟨t, rest, hs, hg⟩
  · rcases stepWith_outcomes cfg s with ⟨u, h⟩ | ⟨t, rest, g, -, h, -⟩ <;> cases hr.symm.trans h

/-! ### A refused command -/

/-- A command that leaves an error code has been refused with it: NOP leaves none. -/
theorem exec_command_refused {n : CommandName} {s t : State} (h : exec n.instr s = .next t) (he : t.err ≠ 0x0#4) :
    ∃ e, t = s.refuseCommand e := by
  cases n with
  | nop =>
    obtain ⟨-, rfl⟩ := writeRegister_eq_next.1 h
    exact absurd rfl he
  | encipher => exact exec_opInstr_refused (op := .encipher) h he
  | decipher => exact exec_opInstr_refused (op := .decipher) h he
  | cbcEnc => exact exec_opInstr_refused (op := .cbcEnc) h he
  | cbcDec => exact exec_opInstr_refused (op := .cbcDec) h he

/-- A CMD write that leaves an error code has been refused with it, as a command or as no command at all. -/
theorem exec_wrCmd_refused {c : Word} {s t : State} (h : exec (.wrCmd c) s = .next t) (he : t.err ≠ 0x0#4) :
    ∃ e, t = s.refuseCommand e := by
  cases hd : decodeCommand c with
  | ok n => exact exec_command_refused ((exec_wrCmd_of_decodeCommand hd s).symm.trans h) he
  | error x =>
    simp only [exec, execWrCmd, hd] at h
    obtain ⟨-, rfl⟩ := writeRegister_eq_next.1 h
    exact ⟨_, rfl⟩

/-- Settles O18: a refusal writes ERR and STICKY alone (60_exceptions R118), with a code of R117's table. -/
theorem refusalIsPrecise : Obligations.RefusalIsPrecise := by
  intro s t c h _ he
  obtain ⟨e, rfl⟩ := exec_wrCmd_refused h he
  exact ⟨rfl, e.code_toNat_le⟩

end Sys2Proof.Machine

end

section
/-! The statements of 70_reset_and_hazards: what BUSY admits, what a reset leaves, what loading leaves, and the result
of a run that has ended. -/

namespace Sys2Proof.Machine

/-! ### Hazards -/

/-- Settles O28: the BUSY guard is in every meaning but that of RD STATUS. -/
theorem busyAdmitsOnlyStatusReads : Obligations.BusyAdmitsOnlyStatusReads :=
  fun _ hb => ⟨fun _ hi => exec_busy hi hb, _, rfl⟩

/-! ### Reset and loading -/

/-- Settles O29: the reset state is the table, and STATUS is put together from its zero fields. -/
theorem resetValues : Obligations.ResetValues :=
  ⟨rfl, rfl, rfl, rfl, rfl, rfl, rfl, rfl, rfl, rfl, rfl, by decide⟩

/-- Settles O30: a reset leaves nothing pending, so the engine has nothing to complete. -/
theorem resetCancelsAPendingCommand : Obligations.ResetCancelsAPendingCommand := fun cfg s =>
  ⟨s.resetCore, rfl, rfl, congrArg _ (engineTurn_of_pending_eq_none cfg s.resetCore_pending)⟩

/-- Settles O31: the reset state is what a reset leaves, for a reset in it changes nothing. -/
theorem invariantHoldsAtReset : Obligations.InvariantHoldsAtReset :=
  State.inv_resetCore State.reset

/-- Settles O43: by the transactions that `ldkey` and `ldiv` expand to. -/
theorem loadingMakesTheCoreReady : Obligations.LoadingMakesTheCoreReady :=
  fun _ _ k iv hb => ⟨_, openStream_idle hb k iv, ⟨hb, rfl, rfl⟩, rfl⟩

/-! ### The end of a run -/

/-- No action is left that reaches the core exactly when none is a transaction and none is a poll. -/
theorem any_reachesCore_eq_false {l : List Action} :
    l.any Action.reachesCore = false ↔ (∀ t, .issue t ∉ l) ∧ .poll ∉ l := by
  rw [List.any_eq_false]
  constructor
  · exact fun h => ⟨fun t ht => h _ ht rfl, fun hp => h _ hp rfl⟩
  · rintro ⟨hissue, hpoll⟩ a ha
    cases a with
    | issue t => exact absurd ha (hissue t)
    | poll => exact absurd ha hpoll
    | check => exact Bool.false_ne_true

theorem System.ended_iff {y : System} : y.ended = true ↔
    (∀ t, .issue t ∉ y.todo) ∧ .poll ∉ y.todo ∧ y.core.busy = false ∧ y.core.pending = none := by
  simp only [System.ended, Bool.and_eq_true, Bool.not_eq_true', any_reachesCore_eq_false, Option.isNone_iff_eq_none,
    and_assoc]

theorem System.result_eq_some {y : System} {r : RunResult} :
    y.result = some r ↔ y.ended = true ∧ r = y.core.observed := by
  rw [System.result, Option.ite_none_right_eq_some, Option.some_inj, eq_comm (a := r)]

theorem State.ended_iff {s : State} : s.ended = true ↔
    (∀ e ∈ s.schedule, e.isHost = false) ∧ s.busy = false ∧ s.pending = none := by
  simp only [State.ended, Bool.and_eq_true, Bool.not_eq_true', List.any_eq_false, Bool.not_eq_true,
    Option.isNone_iff_eq_none, and_assoc]

theorem State.result_of_ended {s : State} (h : s.ended = true) : s.result = some s.observed := if_pos h

/-- A run that has ended and meets no reset only goes on through its schedule: no transaction is left in it, and the
engine has nothing to complete. -/
theorem stepWith_of_ended {cfg : Configuration} {s t : State} (h : s.ended = true)
    (hr : ∀ e ∈ s.schedule, e ≠ .reset) (hs : stepWith cfg s = .next t) : t = s.withSchedule s.schedule.tail := by
  obtain ⟨hhost, -, hp⟩ := State.ended_iff.1 h
  rcases stepWith_cases hs with ⟨hq, rfl⟩ | ⟨rest, hq, rfl⟩ | ⟨rest, hq, -⟩ | ⟨tr, rest, i, hq, -⟩
  · rw [engineTurn_of_pending_eq_none cfg hp, hq, List.tail_nil, ← hq]
    rfl
  · rw [engineTurn_of_pending_eq_none cfg (s := s.withSchedule rest) hp, hq, List.tail_cons]
  · exact absurd rfl (hr .reset (by simp [hq]))
  · exact absurd (hhost (.host tr) (by simp [hq])) (by simp [Event.isHost])

theorem State.ended_withSchedule_tail {s : State} (h : s.ended = true) :
    (s.withSchedule s.schedule.tail).ended = true := by
  obtain ⟨hhost, hb, hp⟩ := State.ended_iff.1 h
  exact State.ended_iff.2 ⟨fun e he => hhost e (List.mem_of_mem_tail he), hb, hp⟩

/-- Settles O57: by what the end of a run asks; the result does not speak of KEY, and a step after the end only shortens
the schedule, which is no part of the result. -/
theorem endedRunHasItsResult : Obligations.EndedRunHasItsResult := by
  refine ⟨fun y r => ?_, fun _ _ => rfl, fun _ => rfl, fun cfg s t h hr hs => ?_⟩
  · rw [System.result_eq_some, System.ended_iff]
    simp only [and_assoc, State.observed]
  · obtain rfl := stepWith_of_ended h hr hs
    have ht := State.ended_withSchedule_tail h
    have hobserved : (s.withSchedule s.schedule.tail).observed = s.observed := rfl
    exact ⟨ht, by rw [State.result_of_ended ht, State.result_of_ended h, hobserved], State.result_of_ended h⟩

end Sys2Proof.Machine

end
